-- ==== Sys2Proof/Word.lean ====
section
/-! DEFINITION. The byte, the 32-bit header word and the pixel (spec/00_scope.md R6, R7; spec/10_state.md R10). -/

namespace Sys2Proof

/-- One byte: a channel, or one cell of a byte space (R7). -/
abbrev Byte := BitVec 8

/-- WIDTH and HEIGHT: unsigned 32-bit registers (spec/10_state.md R18). -/
abbrev Word32 := BitVec 32

/-- A pixel: four independent 8-bit channels (R10). -/
structure Pixel where
  r : Byte
  g : Byte
  b : Byte
  a : Byte
  deriving DecidableEq, Repr, Inhabited

/-- ZERO, the pixel (0,0,0,0) (R7). -/
def Pixel.zero : Pixel := ⟨0, 0, 0, 0⟩

/-- A slot number of the pixel cache, 0..63 (R7). -/
abbrev Index := Fin 64

end Sys2Proof
end

