-- ==== Sys2Proof/Config.lean ====
section
/-! DEFINITION. What is fixed when the engine is built (MAGIC, spec/00_scope.md R5) and the free values for the
registers that spec/10_state.md R25 leaves unspecified. -/

namespace Sys2Proof

/-- The parameter MAGIC: four bytes, first byte first (spec/00_scope.md R5; spec/92_eei_decisions.md D2). -/
structure Magic where
  m0 : Byte
  m1 : Byte
  m2 : Byte
  m3 : Byte
  deriving DecidableEq, Repr, Inhabited

/-- The default of MAGIC: 71 6F 69 66. PRESUMED: spec/00_scope.md R5 gives it as a default "from general knowledge".
The machine carries MAGIC in its state, so no statement about every state rests on this value (entry 1). -/
def Config.defaultMagic : Magic := ⟨0x71, 0x6F, 0x69, 0x66⟩

/-- Free value of a pixel register that R25 calls unspecified (entry 7). -/
opaque Config.freePixel : Nat → Pixel

/-- Free value of a counter that R25 calls unspecified (entry 7). -/
opaque Config.freeNat : Nat → Nat

/-- Free value of RUN where R25 calls it unspecified; RUN is a register of range 0..62 (spec/10_state.md R14; entry 8). -/
opaque Config.freeRun : Nat → Fin 63

/-- Free value of CHANNELS or COLORSPACE where R25 calls it unspecified (entry 7). -/
opaque Config.freeByte : Nat → Byte

/-- Free value of WIDTH or HEIGHT where R25 calls it unspecified (entry 7). -/
opaque Config.freeWord : Nat → Word32

end Sys2Proof
end

