-- ==== Sys2Proof/Syntax.lean ====
section
/-! DEFINITION. The eight items of the chunk grammar, one constructor per row of spec/opcode_table.json.
Operands are those of the assembly notation, un-biased and in its order (spec/30_encoding.md R77, R78). -/

namespace Sys2Proof

/-- An item of the byte stream (spec/30_encoding.md R60). -/
inductive Instr where
  /-- RGB r, g, b (R63). -/
  | rgb (r g b : Byte)
  /-- RGBA r, g, b, a (R64). -/
  | rgba (r g b a : Byte)
  /-- INDEX i (R65). -/
  | index (i : Index)
  /-- DIFF dr, dg, db: the un-biased deltas (R66). -/
  | diff (dr dg db : Int)
  /-- LUMA dg, dr_dg, db_dg: un-biased (R67). -/
  | luma (dg drdg dbdg : Int)
  /-- RUN n: the run length itself, not the stored field (R68). -/
  | run (n : Nat)
  /-- HEADER w, h, c, cs: the 14-byte header; its magic bytes are the machine's parameter MAGIC (R61, R78). -/
  | header (w h : Word32) (c cs : Byte)
  /-- END: the 8-byte end marker, no operand (R62). -/
  | endMarker
  deriving DecidableEq, Repr

/-- Where an item may stand: the header at offset 0, the chunks after it, the marker after the last chunk. Items of the
three places are told apart by position, not by tag (spec/30_encoding.md R60, R62). -/
inductive Place where
  | atHeader
  | atChunk
  | atEnd
  deriving DecidableEq, Repr

/-- The place of each item (spec/30_encoding.md R60). -/
def Instr.place : Instr → Place
  | .rgb _ _ _ => .atChunk
  | .rgba _ _ _ _ => .atChunk
  | .index _ => .atChunk
  | .diff _ _ _ => .atChunk
  | .luma _ _ _ => .atChunk
  | .run _ => .atChunk
  | .header _ _ _ _ => .atHeader
  | .endMarker => .atEnd

end Sys2Proof
end

