-- ==== Sys2Proof/WellFormed.lean ====
section
/-! DEFINITION. When an item is well formed: every operand inside the range its field can hold (spec/30_encoding.md R69, R77). -/

namespace Sys2Proof

/-- A delta that a 2-bit DIFF field holds: -2..1 (spec/30_encoding.md R69). -/
def inDiffRange (d : Int) : Bool := decide (-2 ≤ d ∧ d ≤ 1)

/-- A green delta that the 6-bit LUMA field holds: -32..31 (spec/30_encoding.md R69). -/
def inLumaGreenRange (d : Int) : Bool := decide (-32 ≤ d ∧ d ≤ 31)

/-- A green-relative delta that a 4-bit LUMA field holds: -8..7 (spec/30_encoding.md R69). -/
def inLumaRelRange (d : Int) : Bool := decide (-8 ≤ d ∧ d ≤ 7)

/-- A run length that one RUN chunk carries: 1..62 (spec/30_encoding.md R68, R72). -/
def inRunRange (n : Nat) : Bool := decide (1 ≤ n ∧ n ≤ 62)

/-- Every operand is in the range the assembly notation admits; "an operand outside its range has no encoding" (R77).
HEADER has no check here: its illegal values are legal bytes that the machine reads and refuses (R73 (c), R111). -/
def Instr.wf : Instr → Bool
  | .rgb _ _ _ => true
  | .rgba _ _ _ _ => true
  | .index _ => true
  | .diff dr dg db => inDiffRange dr && inDiffRange dg && inDiffRange db
  | .luma dg drdg dbdg => inLumaGreenRange dg && inLumaRelRange drdg && inLumaRelRange dbdg
  | .run n => inRunRange n
  | .header _ _ _ _ => true
  | .endMarker => true

end Sys2Proof
end

