-- ==== Sys2Proof/Decode.lean ====
section
/-! DEFINITION. The decoder of the byte stream, total on any bytes and rejecting by name, and after it the encoder.
Both are written from spec/30_encoding.md (R61 to R71, R75). -/

namespace Sys2Proof

/-! ### Bit fields and byte order -/

/-- `b[hi:lo]`: the unsigned value of bits hi down to lo of a byte, both ends included (spec/00_scope.md R6). -/
def bits (b : Byte) (hi lo : Nat) : Nat := b.toNat / 2 ^ lo % 2 ^ (hi + 1 - lo)

/-- The big-endian reading of four bytes (spec/00_scope.md R6; spec/20_memory.md R44 (a)). -/
def be32 (b0 b1 b2 b3 : Byte) : Word32 :=
  BitVec.ofNat 32 (b0.toNat * 2 ^ 24 + b1.toNat * 2 ^ 16 + b2.toNat * 2 ^ 8 + b3.toNat)

/-- Byte k of a 32-bit word, byte 0 the least significant. -/
def wordByte (w : Word32) (k : Nat) : Byte := BitVec.ofNat 8 (w.toNat / 2 ^ (8 * k))

/-- The four bytes of a word, most significant first (spec/30_encoding.md R75). -/
def bytesOfWord (w : Word32) : List Byte := [wordByte w 3, wordByte w 2, wordByte w 1, wordByte w 0]

/-! ### Constants of the format (spec/00_scope.md R5) -/

/-- DIFF_BIAS. -/
def diffBias : Int := 2

/-- LUMA_G_BIAS. -/
def lumaGreenBias : Int := 32

/-- LUMA_RB_BIAS (spec/90_conflicts.md C3). -/
def lumaRelBias : Int := 8

/-- HEADER_LEN. -/
def headerLen : Nat := 14

/-- END_MARKER: seven 00 bytes, then 01 (spec/30_encoding.md R62). -/
def endMarkerBytes : List Byte := [0, 0, 0, 0, 0, 0, 0, 1]

/-- The four magic bytes, first byte first. -/
def Magic.bytes (m : Magic) : List Byte := [m.m0, m.m1, m.m2, m.m3]

/-! ### The decoder -/

/-- Why bytes are no item. -/
inductive Reject where
  /-- No byte where a chunk's first byte is needed (spec/41_decoder.md R112). -/
  | noFirstByte
  /-- The first byte is there and a payload byte is not (R112). -/
  | payloadMissing
  /-- The bytes end inside the header, with every magic byte so far correct (R111 steps 2, 3). -/
  | headerShort
  /-- Byte `k` of the header is not MAGIC[k] (R111 step 2). -/
  | badMagic (k : Nat)
  /-- The bytes end inside the end marker, with every byte so far correct (R122). -/
  | markerShort
  /-- Byte `k` of the end marker is wrong (R122). -/
  | markerMismatch (k : Nat)
  deriving DecidableEq, Repr

/-- What decoding answers: an item and the bytes after it, or a rejection by name. -/
inductive Decoded where
  | item (i : Instr) (rest : List Byte)
  | rejected (r : Reject)
  deriving DecidableEq, Repr

/-- The length of a chunk, from its first byte alone (R71, R114). -/
def chunkLen (b0 : Byte) : Nat :=
  if b0 = 0xFE then 4
  else if b0 = 0xFF then 5
  else if bits b0 7 6 = 2 then 2
  else 1

/-- RGB: tag FE, then r, g, b (R63). -/
def decodeRgb : List Byte → Decoded
  | r :: g :: b :: rest => .item (.rgb r g b) rest
  | _ => .rejected .payloadMissing

/-- RGBA: tag FF, then r, g, b, a (R64). -/
def decodeRgba : List Byte → Decoded
  | r :: g :: b :: a :: rest => .item (.rgba r g b a) rest
  | _ => .rejected .payloadMissing

/-- INDEX: the slot number is the low six bits (R65). -/
def decodeIndex (b0 : Byte) (rest : List Byte) : Decoded := .item (.index (Fin.ofNat 64 (bits b0 5 0))) rest

/-- DIFF: red in bits 5:4, green in 3:2, blue in 1:0, each with bias 2 (R66, R69). -/
def decodeDiff (b0 : Byte) (rest : List Byte) : Decoded :=
  .item (.diff (bits b0 5 4 - diffBias) (bits b0 3 2 - diffBias) (bits b0 1 0 - diffBias)) rest

/-- LUMA: green in the low six bits of the first byte with bias 32; red-relative in bits 7:4 and blue-relative in bits
3:0 of the second byte, each with bias 8 (R67, R69). -/
def decodeLuma (b0 : Byte) : List Byte → Decoded
  | b1 :: rest =>
    .item (.luma (bits b0 5 0 - lumaGreenBias) (bits b1 7 4 - lumaRelBias) (bits b1 3 0 - lumaRelBias)) rest
  | [] => .rejected .payloadMissing

/-- RUN: the run length is the low six bits plus 1 (R68, R69). -/
def decodeRun (b0 : Byte) (rest : List Byte) : Decoded := .item (.run (bits b0 5 0 + 1)) rest

/-- A chunk from its bytes: the 8-bit tags FE and FF first, then the 2-bit tag (R70). -/
def decodeChunk : List Byte → Decoded
  | [] => .rejected .noFirstByte
  | b0 :: t =>
    if b0 = 0xFE then decodeRgb t
    else if b0 = 0xFF then decodeRgba t
    else if bits b0 7 6 = 0 then decodeIndex b0 t
    else if bits b0 7 6 = 1 then decodeDiff b0 t
    else if bits b0 7 6 = 2 then decodeLuma b0 t
    else decodeRun b0 t

/-- What comparing bytes with the bytes expected answers, one byte at a time and in order. -/
inductive Compared where
  | same (rest : List Byte)
  | short
  | differs (k : Nat)
  deriving DecidableEq, Repr

/-- Compare as the bytes arrive: a byte that is present and wrong differs, an absent byte is short (R111 step 2, R122). -/
def compareBytes (k : Nat) : List Byte → List Byte → Compared
  | [], rest => .same rest
  | _ :: _, [] => .short
  | e :: es, b :: bs => if b = e then compareBytes (k + 1) es bs else .differs k

/-- The ten header bytes after the magic: WIDTH, HEIGHT big-endian, CHANNELS, COLORSPACE (R61, R111 step 4). -/
def decodeHeaderFields : List Byte → Decoded
  | w3 :: w2 :: w1 :: w0 :: h3 :: h2 :: h1 :: h0 :: c :: cs :: rest =>
    .item (.header (be32 w3 w2 w1 w0) (be32 h3 h2 h1 h0) c cs) rest
  | _ => .rejected .headerShort

/-- The header from its bytes: magic bytes one by one, then the rest (R61, R111 steps 2 to 4). -/
def decodeHeader (m : Magic) (bs : List Byte) : Decoded :=
  match compareBytes 0 m.bytes bs with
  | .same rest => decodeHeaderFields rest
  | .short => .rejected .headerShort
  | .differs k => .rejected (.badMagic k)

/-- The end marker from its bytes (R62, R122). -/
def decodeEnd (bs : List Byte) : Decoded :=
  match compareBytes 0 endMarkerBytes bs with
  | .same rest => .item .endMarker rest
  | .short => .rejected .markerShort
  | .differs k => .rejected (.markerMismatch k)

/-- The item that stands at a place. -/
def decodeAt (p : Place) (m : Magic) (bs : List Byte) : Decoded :=
  match p with
  | .atHeader => decodeHeader m bs
  | .atChunk => decodeChunk bs
  | .atEnd => decodeEnd bs

/-! ### The encoder -/

/-- DIFF byte `0x40 + (dr+2)*16 + (dg+2)*4 + (db+2)` (R75). -/
def encodeDiffByte (dr dg db : Int) : Byte :=
  BitVec.ofInt 8 (0x40 + (dr + diffBias) * 16 + (dg + diffBias) * 4 + (db + diffBias))

/-- LUMA bytes `0x80 + (dg+32)`, then `(dr_dg+8)*16 + (db_dg+8)` (R75). -/
def encodeLumaBytes (dg drdg dbdg : Int) : List Byte :=
  [BitVec.ofInt 8 (0x80 + (dg + lumaGreenBias)), BitVec.ofInt 8 ((drdg + lumaRelBias) * 16 + (dbdg + lumaRelBias))]

/-- RUN byte `0xC0 + (N-1)` (R75). -/
def encodeRunByte (n : Nat) : Byte := BitVec.ofInt 8 (0xC0 + ((n : Int) - 1))

/-- HEADER bytes: MAGIC, WIDTH and HEIGHT most significant byte first, CHANNELS, COLORSPACE (R75). -/
def encodeHeader (m : Magic) (w h : Word32) (c cs : Byte) : List Byte :=
  m.bytes ++ bytesOfWord w ++ bytesOfWord h ++ [c, cs]

/-- The bytes of an item; the formulas of R75 on the operands as they are. -/
def encode (m : Magic) : Instr → List Byte
  | .rgb r g b => [0xFE, r, g, b]
  | .rgba r g b a => [0xFF, r, g, b, a]
  | .index i => [BitVec.ofNat 8 i.val]
  | .diff dr dg db => [encodeDiffByte dr dg db]
  | .luma dg drdg dbdg => encodeLumaBytes dg drdg dbdg
  | .run n => [encodeRunByte n]
  | .header w h c cs => encodeHeader m w h c cs
  | .endMarker => endMarkerBytes

/-- The length of an item in bytes (spec/30_encoding.md R60). -/
def Instr.length : Instr → Nat
  | .rgb _ _ _ => 4
  | .rgba _ _ _ _ => 5
  | .index _ => 1
  | .diff _ _ _ => 1
  | .luma _ _ _ => 2
  | .run _ => 1
  | .header _ _ _ _ => 14
  | .endMarker => 8

/-! ### Reading the opcode table's words -/

/-- The place an opcode-table row's width tells: 14 bytes the header, 8 bytes the end marker, else a chunk (R60). -/
def placeOfBits (nbits : Nat) : Place :=
  if nbits = 112 then .atHeader else if nbits = 64 then .atEnd else .atChunk

/-- The longest item of a place. -/
def Place.maxLen : Place → Nat
  | .atHeader => 14
  | .atChunk => 5
  | .atEnd => 8

/-- The bytes of a word numbered as the opcode table numbers it: byte k is bits 8k+7..8k, bits from nbits up are 0. -/
def tableBytes (nbits w : Nat) : List Byte :=
  (List.range (placeOfBits nbits).maxLen).map fun k => BitVec.ofNat 8 (w % 2 ^ nbits / 2 ^ (8 * k))

/-- The item the decoder reads from an opcode-table word; the header is read with the default MAGIC. -/
def decodeTableWord (nbits w : Nat) : Option Instr :=
  match decodeAt (placeOfBits nbits) Config.defaultMagic (tableBytes nbits w) with
  | .item i _ => some i
  | .rejected _ => none

end Sys2Proof
end

