-- ==== Sys2Proof/Machine/State.lean ====
section
/-! DEFINITION. The state of the engine as plain data, the reasons a step can stop, and the state after power-on
(spec/10_state.md R10 to R27). -/

namespace Sys2Proof.Machine

/-- OP: which operation runs (R18). -/
inductive Op where
  | decode
  | encode
  deriving DecidableEq, Repr

/-- PHASE, the sequencing state (R17). -/
inductive Phase where
  /-- IDLE: no operation has been started since reset. -/
  | idle
  /-- HEADER: the 14 header bytes are being consumed or produced. -/
  | header
  /-- CHUNKS: chunks are being consumed or produced. -/
  | chunks
  /-- END: the end marker is being checked or emitted. -/
  | endMarker
  /-- DONE: the operation ended without error. -/
  | done
  /-- ERROR: the operation ended by `raise`. -/
  | error
  deriving DecidableEq, Repr

/-- The host's two commands (spec/43_buffers_and_commands.md R178, R179; there is no other: R181). -/
inductive Command where
  | startDecode
  | startEncode
  deriving DecidableEq, Repr

/-- The causes of an error (spec/60_exceptions.md R191). -/
inductive Cause where
  | reqChannels
  | badChannels
  | zeroDimension
  | sizeOverflow
  | badBufferLength
  | badMagic
  | runOverrun
  /-- UNRECOGNIZED_TAG: a code that no rule raises (R193). -/
  | unrecognizedTag
  | inHeader
  | inChunks
  | inChunkPayload
  | inEndMarker
  | endMismatch
  deriving DecidableEq, Repr

/-- The two byte spaces (spec/20_memory.md R40). -/
inductive Space where
  | stream
  | pixbuf
  deriving DecidableEq, Repr

/-- A byte space: the bytes it holds, by rising offset; an offset that is not listed holds no byte (entry 3). -/
abbrev Memory := List Host.Cell

/-- The pixel cache: exactly 64 pixel slots (R13). -/
abbrev Cache := Vector Pixel 64

/-- Everything the spec gives the engine, the parameter MAGIC, and two fields of the model's own (`cmd`, `fresh`). -/
structure State where
  /-- The parameter MAGIC (spec/00_scope.md R5; entry 1); nothing writes it. -/
  magic : Magic
  /-- OP (R18). -/
  op : Op
  /-- WIDTH (R18). -/
  width : Word32
  /-- HEIGHT (R18). -/
  height : Word32
  /-- CHANNELS, the source channels (R18). -/
  channels : Byte
  /-- COLORSPACE (R18). -/
  colorspace : Byte
  /-- REQCH, the requested channels (R18). -/
  reqch : Byte
  /-- IN_LEN (R18). -/
  inLen : Nat
  /-- PREV, the previous-pixel register (R11). -/
  prev : Pixel
  /-- CUR, the working pixel (R12). -/
  cur : Pixel
  /-- CACHE (R13). -/
  cache : Cache
  /-- RUN, the run counter, 0..62 (R14). -/
  run : Nat
  /-- PXCOUNT (R15). -/
  pxcount : Nat
  /-- PXI (R15). -/
  pxi : Nat
  /-- IPOS, the decoder's program counter (R16). -/
  ipos : Nat
  /-- OPOS (R16). -/
  opos : Nat
  /-- PHASE (R17). -/
  phase : Phase
  /-- ERR (R19). -/
  err : BitVec 3
  /-- SUB (R19). -/
  sub : BitVec 4
  /-- ERRPOS (R19). -/
  errpos : Nat
  /-- WARN_TRAILING (R19). -/
  warnTrailing : Bool
  /-- OUTVALID (R19). -/
  outvalid : Bool
  /-- OUT_LEN (R19). -/
  outLen : Nat
  /-- STREAM (R21, spec/20_memory.md R40). -/
  stream : Memory
  /-- PIXBUF (R21, spec/20_memory.md R40). -/
  pixbuf : Memory
  /-- The model's own: the host's START request, not yet taken by the engine (entry 5). -/
  cmd : Option Command
  /-- The model's own: numbers the free values; no statement rests on it (entry 7). -/
  fresh : Nat
  deriving DecidableEq, Repr

/-- A stop of the machine that is not the spec's own error exit; the spec's errors are taken as next states (R196). -/
inductive Fault where
  /-- The engine needed an input byte below IN_LEN that is not in the space. Raised by every read of an input space; safe:
  the spec gives no result for a false IN_LEN (spec/93_implementation_defined.md U3), and after a START of the host port
  IN_LEN is true, so only a state that no launch leaves meets it (entry 13). -/
  | absentByte (space : Space) (offset : Nat)
  deriving DecidableEq, Repr

/-- What the machine has no step for. -/
inductive Refusal where
  /-- An instruction without a meaning in the model; raised only by a refused arm of `exec`; safe. -/
  | notModelled (mnemonic : String)
  /-- An item executed where its kind cannot stand (a chunk outside CHUNKS, say). Raised by every meaning; safe: items are
  told apart by position (spec/30_encoding.md R60), so no step executes one out of its place (entry 11). -/
  | outOfPlace
  /-- A START while an operation runs. Raised by `acceptStart` and by the host port; safe: the spec has the model refuse it
  (spec/43_buffers_and_commands.md R180; entry 12). -/
  | startWhileRunning
  /-- A START with an IN_LEN that is not the length of the input space. Raised by the host port; safe: the spec leaves the
  host no such move (spec/93_implementation_defined.md U3; spec/60_exceptions.md R213; entry 13). -/
  | falseInputLength
  /-- The host writes a register or hands over a space while an operation runs. Raised by the host port; safe: the spec
  gives the host no such move (spec/43_buffers_and_commands.md R183; entry 16). -/
  | hostAccessWhileRunning
  deriving DecidableEq, Repr

/-- The engine right after power-on: PHASE = IDLE and the status clear (spec/70_reset_and_hazards.md R221); the registers
R25 leaves unspecified at the values of R220 or zero (entry 2); the spaces empty (entry 3). -/
def State.reset : State where
  magic := Config.defaultMagic
  op := .decode
  width := 0
  height := 0
  channels := 0
  colorspace := 0
  reqch := 0
  inLen := 0
  prev := Pixel.zero
  cur := Pixel.zero
  cache := Vector.replicate 64 Pixel.zero
  run := 0
  pxcount := 0
  pxi := 0
  ipos := 0
  opos := 0
  phase := .idle
  err := 0
  sub := 0
  errpos := 0
  warnTrailing := false
  outvalid := false
  outLen := 0
  stream := []
  pixbuf := []
  cmd := none
  fresh := 0

end Sys2Proof.Machine
end

