-- ==== Sys2Proof/Machine/Ops.lean ====
section
/-! DEFINITION. The named operations on the byte spaces and registers, taking an error (`raise`, spec/60_exceptions.md
R196), and the initialisation at START (spec/70_reset_and_hazards.md R220). -/

namespace Sys2Proof.Machine

abbrev Result := Host.Outcome State Fault Refusal

/-- Go on with the next state, or stop as the first part stopped. -/
def andThen (o : Result) (f : State → Result) : Result :=
  match o with
  | .next s => f s
  | .fault x => .fault x
  | .refused x => .refused x

/-! ### Byte spaces (spec/20_memory.md R40 to R47) -/

/-- The byte at an offset; `none` where the space holds no byte. -/
def Memory.read : Memory → Nat → Option Byte
  | [], _ => none
  | (x, y) :: rest, a => if a = x then some y else Memory.read rest a

/-- Write one byte, keeping the offsets strictly rising. -/
def Memory.write : Memory → Nat → Byte → Memory
  | [], a, b => [(a, b)]
  | (x, y) :: rest, a, b =>
    if a < x then (a, b) :: (x, y) :: rest
    else if a = x then (a, b) :: rest
    else (x, y) :: Memory.write rest a b

/-- The canonical form: offsets strictly rising. -/
abbrev Memory.wf (m : Memory) : Prop := m.Pairwise fun x y => x.1 < y.1

/-- MemWrite(SPACE, a, n, bs): the bytes at a, a+1, ..., lowest offset first (spec/00_scope.md R8). -/
def Memory.writeBytes (m : Memory) (a : Nat) : List Byte → Memory
  | [] => m
  | b :: bs => Memory.writeBytes (m.write a b) (a + 1) bs

/-- What reading several bytes answers: the bytes, or the first offset that holds no byte. -/
inductive ReadResult where
  | bytes (bs : List Byte)
  | absent (offset : Nat)
  deriving DecidableEq, Repr

/-- MemRead(SPACE, a, n): the n bytes at a, a+1, ..., lowest offset first (spec/00_scope.md R8). -/
def Memory.readBytes (m : Memory) (a : Nat) : Nat → ReadResult
  | 0 => .bytes []
  | n + 1 =>
    match m.read a with
    | none => .absent a
    | some b =>
      match Memory.readBytes m (a + 1) n with
      | .bytes bs => .bytes (b :: bs)
      | .absent o => .absent o

/-- A space that holds exactly the given bytes at offsets 0, 1, ... -/
def Memory.ofBytes (bs : List Byte) : Memory := Memory.writeBytes [] 0 bs

/-- The space holds a byte at each of the offsets 0 .. n-1 and at no other: n is its length. -/
def Memory.holdsExactly (m : Memory) (n : Nat) : Bool :=
  m.all (fun cell => decide (cell.1 < n)) && (List.range n).all fun a => (m.read a).isSome

/-! ### The pixel cache and the predictor (spec/40_cache_predictor.md R90 to R94) -/

/-- `hash(p)`: (r*3 + g*5 + b*7 + a*11) mod 64, over the integers (R90, R91). -/
def hash (p : Pixel) : Index :=
  Fin.ofNat 64 (p.r.toNat * 3 + p.g.toNat * 5 + p.b.toNat * 7 + p.a.toNat * 11)

/-- `lookup(i)`: the slot's pixel (R92). -/
def lookup (i : Index) (s : State) : Pixel := s.cache[i]

/-- `update(p)`: CACHE[hash(p)] <- p, all 32 bits at once (R93). -/
def update (p : Pixel) (s : State) : State := { s with cache := s.cache.set (hash p) p }

/-- `advance(p)`: PREV <- p (R94). -/
def advance (p : Pixel) (s : State) : State := { s with prev := p }

/-! ### Pixel load and store (spec/43_buffers_and_commands.md R170, R171) -/

/-- ALPHA_DEFAULT (spec/00_scope.md R5). -/
def alphaDefault : Byte := 255

/-- What loading a pixel answers. -/
inductive Loaded where
  | pixel (p : Pixel)
  | absent (offset : Nat)
  deriving DecidableEq, Repr

/-- `load_pixel(i)`: 4 bytes at 4i when CHANNELS = 4, else 3 bytes at 3i with alpha 255 (R170). -/
def loadPixel (i : Nat) (s : State) : Loaded :=
  if s.channels = 4 then
    match s.pixbuf.readBytes (4 * i) 4 with
    | .bytes [r, g, b, a] => .pixel ⟨r, g, b, a⟩
    | .bytes _ => .absent (4 * i)
    | .absent o => .absent o
  else
    match s.pixbuf.readBytes (3 * i) 3 with
    | .bytes [r, g, b] => .pixel ⟨r, g, b, alphaDefault⟩
    | .bytes _ => .absent (3 * i)
    | .absent o => .absent o

/-- The bytes `store_pixel` writes: alpha dropped when REQCH = 3, kept when CHANNELS = 4, the constant 255 when a
3-channel image is expanded (R171; spec/92_eei_decisions.md D9). -/
def storedBytes (p : Pixel) (s : State) : List Byte :=
  if s.reqch = 3 then [p.r, p.g, p.b]
  else if s.channels = 4 then [p.r, p.g, p.b, p.a]
  else [p.r, p.g, p.b, alphaDefault]

/-- The offset `store_pixel(i, p)` writes at: 3i when REQCH = 3, else 4i (R171). -/
def storeOffset (i : Nat) (s : State) : Nat := if s.reqch = 3 then 3 * i else 4 * i

/-- `store_pixel(i, p)` (R171). -/
def storePixel (i : Nat) (p : Pixel) (s : State) : State :=
  { s with pixbuf := s.pixbuf.writeBytes (storeOffset i s) (storedBytes p s) }

/-! ### Committing a pixel -/

/-- `commit(p)` of the decoder: store, update, advance, count (spec/41_decoder.md R115). -/
def commit (p : Pixel) (s : State) : State :=
  { advance p (update p (storePixel s.pxi p s)) with pxi := s.pxi + 1 }

/-- CUR <- p; commit(CUR): the tail of every decoder chunk rule (spec/41_decoder.md R116 to R121). -/
def resolve (p : Pixel) (s : State) : State := commit p { s with cur := p }

/-- repeat N times: CUR <- PREV; commit(CUR) (spec/41_decoder.md R121). -/
def repeatPrev : Nat → State → State
  | 0, s => s
  | n + 1, s => repeatPrev n (resolve s.prev s)

/-- `commit(p)` of the encoder: update, advance (spec/42_encoder.md R147). -/
def commitEncode (p : Pixel) (s : State) : State := advance p (update p s)

/-! ### Stream positions -/

/-- `Emit(bytes)`: write at OPOS and move OPOS past them (spec/00_scope.md R8). -/
def emit (bs : List Byte) (s : State) : State :=
  { s with stream := s.stream.writeBytes s.opos bs, opos := s.opos + bs.length }

/-- A chunk may stand here: PHASE = CHUNKS and PXI < PXCOUNT (the entry condition of every chunk rule; R113, R143). -/
abbrev atChunk (s : State) : Prop := s.phase = .chunks ∧ s.pxi < s.pxcount

/-- PHASE <- END once PXI = PXCOUNT: the chunk phase ends exactly then (spec/10_state.md R15; R113, R143). -/
def closeChunks (s : State) : State := { s with phase := if s.pxi < s.pxcount then s.phase else .endMarker }

/-- IPOS <- IPOS + len after a chunk is applied, and the loop's test (spec/41_decoder.md R112, R113). -/
def nextChunk (len : Nat) (s : State) : State := closeChunks { s with ipos := s.ipos + len }

/-! ### Taking an error (spec/60_exceptions.md R190 to R198) -/

/-- The class code of a cause, ERR (R191). -/
def Cause.err : Cause → BitVec 3
  | .reqChannels => 1
  | .badChannels => 1
  | .zeroDimension => 1
  | .sizeOverflow => 1
  | .badBufferLength => 1
  | .badMagic => 2
  | .runOverrun => 2
  | .unrecognizedTag => 2
  | .inHeader => 3
  | .inChunks => 3
  | .inChunkPayload => 3
  | .inEndMarker => 3
  | .endMismatch => 4

/-- The sub-cause code of a cause, SUB (R191). -/
def Cause.sub : Cause → BitVec 4
  | .reqChannels => 1
  | .badChannels => 2
  | .zeroDimension => 3
  | .sizeOverflow => 4
  | .badBufferLength => 5
  | .badMagic => 1
  | .runOverrun => 2
  | .unrecognizedTag => 3
  | .inHeader => 1
  | .inChunks => 2
  | .inChunkPayload => 3
  | .inEndMarker => 4
  | .endMismatch => 1

/-- Only MissingEndMarkerError surfaces the output (R195, R200). -/
def Cause.surfaces : Cause → Bool
  | .endMismatch => true
  | _ => false

/-- PXCOUNT * REQCH, the length of a decoder's output (R124, R195). -/
def decodedLen (s : State) : Nat := s.pxcount * s.reqch.toNat

/-- `raise <Class>(sub)`: the operation ends at once in ERROR with its class, sub-cause and position recorded (R196, R198).
PREV, CACHE, PXI and the spaces stand as they are: the item has had no effect on them (R196). CUR, RUN, PXCOUNT, IPOS,
OPOS, and OUT_LEN where no output is surfaced, are unspecified after an error (spec/10_state.md R25): free values
(entry 8). -/
def raise (c : Cause) (pos : Nat) (s : State) : State :=
  { s with
    phase := .error
    err := c.err
    sub := c.sub
    errpos := pos
    warnTrailing := false
    outvalid := c.surfaces
    outLen := if c.surfaces then decodedLen s else Config.freeNat s.fresh
    cur := Config.freePixel s.fresh
    run := (Config.freeRun s.fresh).val
    pxcount := Config.freeNat (s.fresh + 1)
    ipos := Config.freeNat (s.fresh + 2)
    opos := Config.freeNat (s.fresh + 3)
    fresh := s.fresh + 4 }

/-! ### The two ends of an operation -/

/-- The operation ends in DONE: the status of R124 and R152. CUR and ERRPOS are unspecified after DONE
(spec/10_state.md R25): free values (entry 9). -/
def finish (len : Nat) (warn : Bool) (s : State) : State :=
  { s with
    phase := .done
    err := 0
    sub := 0
    warnTrailing := warn
    outvalid := true
    outLen := len
    cur := Config.freePixel s.fresh
    errpos := Config.freeNat s.fresh
    fresh := s.fresh + 1 }

/-- The initialisation every START performs (spec/70_reset_and_hazards.md R220), with CUR, PXCOUNT, ERRPOS and OUT_LEN,
unspecified at START (spec/10_state.md R25), at free values (entry 7). The output space is the caller's to empty. -/
def initOperation (s : State) : State :=
  { s with
    prev := Pixel.zero
    cache := Vector.replicate 64 Pixel.zero
    run := 0
    pxi := 0
    ipos := 0
    opos := 0
    err := 0
    sub := 0
    warnTrailing := false
    outvalid := false
    phase := .header
    cur := Config.freePixel s.fresh
    pxcount := Config.freeNat s.fresh
    errpos := Config.freeNat (s.fresh + 1)
    outLen := Config.freeNat (s.fresh + 2)
    cmd := none
    fresh := s.fresh + 3 }

/-- The header registers of a decode before header byte 13 is consumed: unspecified (spec/10_state.md R25;
spec/93_implementation_defined.md U6), so free values (entry 7). -/
def clearHeaderRegisters (s : State) : State :=
  { s with
    width := Config.freeWord s.fresh
    height := Config.freeWord (s.fresh + 1)
    channels := Config.freeByte s.fresh
    colorspace := Config.freeByte (s.fresh + 1)
    fresh := s.fresh + 2 }

/-! ### Phases -/

/-- An operation is over, or none has begun: IDLE, DONE or ERROR (R178, R179; spec/70_reset_and_hazards.md R233). -/
def Phase.resting : Phase → Bool
  | .idle => true
  | .header => false
  | .chunks => false
  | .endMarker => false
  | .done => true
  | .error => true

/-- SIZE_LIMIT: 2^32 - 1 (spec/00_scope.md R5). -/
def sizeLimit : Nat := 4294967295

/-- WIDTH * HEIGHT * ch over the integers (spec/20_memory.md R56). -/
def imageBytes (w h : Word32) (ch : Byte) : Nat := w.toNat * h.toNat * ch.toNat

/-- A legal channel count: 3 or 4 (spec/10_state.md R18). -/
abbrev legalChannels (c : Byte) : Prop := c = 3 ∨ c = 4

end Sys2Proof.Machine
end

