-- ==== Sys2Proof/Machine/Operands.lean ====
section
/-! DEFINITION. The operand forms of the chunks: what pixel each decoder chunk resolves to, and the deltas of the encoder
(spec/40_cache_predictor.md R99, R100; spec/41_decoder.md R116 to R120). -/

namespace Sys2Proof.Machine

/-- `(q + d) mod 256`: a channel plus a delta, without fault or flag (R100). -/
def addDelta (q : Byte) (d : Int) : Byte := BitVec.ofInt 8 (q.toNat + d)

/-- `d8(c, q) = sext_8(c - q)`: the difference modulo 256 read as a signed 8-bit number (R99). -/
def d8 (c q : Byte) : Int := (c - q).toInt

/-- RGB: the payload, with PREV's alpha (R116). -/
def rgbPixel (r g b : Byte) (prev : Pixel) : Pixel := ⟨r, g, b, prev.a⟩

/-- DIFF: PREV with the three deltas added, alpha kept (R119). -/
def diffPixel (dr dg db : Int) (prev : Pixel) : Pixel :=
  ⟨addDelta prev.r dr, addDelta prev.g dg, addDelta prev.b db, prev.a⟩

/-- LUMA: PREV with dg + dr_dg, dg and dg + db_dg added, alpha kept (R120). -/
def lumaPixel (dg drdg dbdg : Int) (prev : Pixel) : Pixel :=
  ⟨addDelta prev.r (dg + drdg), addDelta prev.g dg, addDelta prev.b (dg + dbdg), prev.a⟩

end Sys2Proof.Machine
end

