-- ==== Sys2Proof/Machine/Flags.lean ====
section
/-! DEFINITION. The engine has no condition codes (spec/10_state.md R20). These are the tests the encoder evaluates within
one pixel step and keeps nowhere (spec/40_cache_predictor.md R101; spec/42_encoder.md R143). -/

namespace Sys2Proof.Machine

/-- `diff_ok`: every delta in -2..1 (R101). -/
abbrev diffOk (dr dg db : Int) : Prop := (-2 ≤ dr ∧ dr ≤ 1) ∧ (-2 ≤ dg ∧ dg ≤ 1) ∧ (-2 ≤ db ∧ db ≤ 1)

/-- `luma_ok`: dg in -32..31, dr_dg and db_dg in -8..7 (R101). -/
abbrev lumaOk (dg drdg dbdg : Int) : Prop :=
  (-32 ≤ dg ∧ dg ≤ 31) ∧ (-8 ≤ drdg ∧ drdg ≤ 7) ∧ (-8 ≤ dbdg ∧ dbdg ≤ 7)

/-- Steps 3 to 5 of the encoder's chain, for a pixel whose alpha is unchanged: DIFF, LUMA, RGB (R143). -/
def deltaItem (cur prev : Pixel) : Instr :=
  let dr := d8 cur.r prev.r
  let dg := d8 cur.g prev.g
  let db := d8 cur.b prev.b
  if diffOk dr dg db then .diff dr dg db
  else if lumaOk dg (dr - dg) (db - dg) then .luma dg (dr - dg) (db - dg)
  else .rgb cur.r cur.g cur.b

/-- Steps 2 to 6 of the encoder's chain, for a pixel that differs from PREV: INDEX on a cache hit, then the three kinds
that keep alpha, then RGBA (R143; spec/90_conflicts.md C1). -/
def chooseItem (cur prev : Pixel) (cache : Cache) : Instr :=
  if cache[hash cur] = cur then .index (hash cur)
  else if cur.a = prev.a then deltaItem cur prev
  else .rgba cur.r cur.g cur.b cur.a

/-- The run is flushed in this pixel's step: it has reached 62, or this is the last pixel (spec/42_encoder.md R144). -/
abbrev flushesHere (s : State) : Prop := s.run = 62 ∨ s.pxi + 1 = s.pxcount

end Sys2Proof.Machine
end

