-- ==== Sys2Proof/Machine/FullPixel.lean ====
section
/-! DEFINITION. The shared tails of the chunk rules, and RGB and RGBA in both directions (spec/41_decoder.md R116, R117;
spec/42_encoder.md R149, R150). -/

namespace Sys2Proof.Machine

/-- Decoder: the chunk of length `len` resolves to the one pixel p (R115, R113); out of its place it is refused. -/
def resolveChunk (len : Nat) (p : Pixel) (s : State) : Result :=
  if atChunk s then .next (nextChunk len (resolve p s)) else .refused .outOfPlace

/-- Encoder: emit_X, the bytes of the chunk at OPOS (R145 to R150); the pixel's commit follows in the pixel loop (R143). -/
def emitChunk (i : Instr) (s : State) : Result :=
  if atChunk s then .next (emit (encode s.magic i) s) else .refused .outOfPlace

/-- RGB: decode R116, encode R149. -/
def execRgb (r g b : Byte) (s : State) : Result :=
  match s.op with
  | .decode => resolveChunk 4 (rgbPixel r g b s.prev) s
  | .encode => emitChunk (.rgb r g b) s

/-- RGBA: decode R117, encode R150. -/
def execRgba (r g b a : Byte) (s : State) : Result :=
  match s.op with
  | .decode => resolveChunk 5 ⟨r, g, b, a⟩ s
  | .encode => emitChunk (.rgba r g b a) s

end Sys2Proof.Machine
end

