-- ==== Sys2Proof/Machine/Framing.lean ====
section
/-! DEFINITION. The two framing items in both directions: HEADER (spec/41_decoder.md R111; spec/42_encoder.md R142) and
END (spec/41_decoder.md R122 to R124; spec/42_encoder.md R151, R152). -/

namespace Sys2Proof.Machine

/-- R111 step 4: the header's fields into their registers, IPOS past the header. -/
def takeHeader (w h : Word32) (c cs : Byte) (s : State) : State :=
  { s with width := w, height := h, channels := c, colorspace := cs, ipos := headerLen }

/-- R111 steps 5 to 8 on the registers: the first check that fails raises at offset 14; else the chunk phase begins. -/
def checkHeader (s : State) : State :=
  if s.width = 0 ∨ s.height = 0 then raise .zeroDimension headerLen s
  else if ¬ legalChannels s.channels then raise .badChannels headerLen s
  else if sizeLimit < imageBytes s.width s.height s.channels ∨ sizeLimit < imageBytes s.width s.height s.reqch then
    raise .sizeOverflow headerLen s
  else { s with pxcount := s.width.toNat * s.height.toNat, phase := .chunks }

/-- HEADER: decode R111 steps 4 to 8, encode R142. -/
def execHeader (w h : Word32) (c cs : Byte) (s : State) : Result :=
  if s.phase = .header then
    match s.op with
    | .decode => .next (checkHeader (takeHeader w h c cs s))
    | .encode => .next { emit (encode s.magic (.header w h c cs)) s with phase := .chunks }
  else .refused .outOfPlace

/-- R122 to R124: the marker has matched; bytes that remain set WARN_TRAILING. -/
def endDecode (s : State) : State :=
  finish (decodedLen s) (decide (s.ipos + 8 < s.inLen)) { s with ipos := s.ipos + 8 }

/-- R151, R152: the marker is emitted and the operation is done. -/
def endEncode (s : State) : State := finish (s.opos + 8) false (emit (encode s.magic .endMarker) s)

/-- END: decode R122 to R124, encode R151 and R152. -/
def execEnd (s : State) : Result :=
  if s.phase = .endMarker then
    match s.op with
    | .decode => .next (endDecode s)
    | .encode => .next (endEncode s)
  else .refused .outOfPlace

end Sys2Proof.Machine
end

