-- ==== Sys2Proof/Machine/Predicted.lean ====
section
/-! DEFINITION. The chunks that lean on CACHE and PREV, in both directions: INDEX, DIFF, LUMA, RUN
(spec/41_decoder.md R118 to R121; spec/42_encoder.md R144 to R146, R148). -/

namespace Sys2Proof.Machine

/-- INDEX: decode R118, encode R145. -/
def execIndex (i : Index) (s : State) : Result :=
  match s.op with
  | .decode => resolveChunk 1 (lookup i s) s
  | .encode => emitChunk (.index i) s

/-- DIFF: decode R119, encode R146. -/
def execDiff (dr dg db : Int) (s : State) : Result :=
  match s.op with
  | .decode => resolveChunk 1 (diffPixel dr dg db s.prev) s
  | .encode => emitChunk (.diff dr dg db) s

/-- LUMA: decode R120, encode R148. -/
def execLuma (dg drdg dbdg : Int) (s : State) : Result :=
  match s.op with
  | .decode => resolveChunk 2 (lumaPixel dg drdg dbdg s.prev) s
  | .encode => emitChunk (.luma dg drdg dbdg) s

/-- RUN in a decode: a run longer than the pixels still to be produced raises RUN_OVERRUN at the chunk's offset with
nothing applied; else N commits of PREV (R121). -/
def repeatChunk (n : Nat) (s : State) : Result :=
  if atChunk s then
    if s.pxcount - s.pxi < n then .next (raise .runOverrun s.ipos s)
    else .next (nextChunk 1 (repeatPrev n s))
  else .refused .outOfPlace

/-- RUN in an encode: Emit(0xC0 + (RUN - 1)); RUN <- 0 (R144). -/
def flushRun (n : Nat) (s : State) : Result :=
  andThen (emitChunk (.run n) s) fun t => .next { t with run := 0 }

/-- RUN: decode R121, encode R144. -/
def execRun (n : Nat) (s : State) : Result :=
  match s.op with
  | .decode => repeatChunk n s
  | .encode => flushRun n s

end Sys2Proof.Machine
end

