-- ==== Sys2Proof/Machine/Fetch.lean ====
section
/-! DEFINITION. Fetching the next item of STREAM in a decode: the length tests and byte comparisons that come before the
item runs, each with the error it raises (spec/41_decoder.md R111 to R113, R122; spec/60_exceptions.md R198, R199). -/

namespace Sys2Proof.Machine

/-- What fetching answers: the item that stands next, an error with its position, or a byte the host never placed. -/
inductive Fetched where
  | item (i : Instr)
  | raised (c : Cause) (pos : Nat)
  | absent (offset : Nat)
  deriving DecidableEq, Repr

/-- The cause and position a rejection of the decoder stands for, `base` the offset the item starts at: a missing byte is
reported at IN_LEN, a wrong byte at its own offset (R198). -/
def rejection (r : Reject) (base : Nat) (s : State) : Fetched :=
  match r with
  | .noFirstByte => .raised .inChunks s.inLen
  | .payloadMissing => .raised .inChunkPayload s.inLen
  | .headerShort => .raised .inHeader s.inLen
  | .badMagic k => .raised .badMagic (base + k)
  | .markerShort => .raised .inEndMarker s.inLen
  | .markerMismatch k => .raised .endMismatch (base + k)

/-- Decode the bytes of STREAM at `base` as the item of a place. -/
def fetchBytes (p : Place) (base n : Nat) (s : State) : Fetched :=
  match s.stream.readBytes base n with
  | .absent o => .absent o
  | .bytes bs =>
    match decodeAt p s.magic bs with
    | .item i _ => .item i
    | .rejected r => rejection r base s

/-- The header: the bytes at offsets 0..13 that IN_LEN allows, magic bytes compared as they arrive (R111 steps 2 to 4). -/
def fetchHeader (s : State) : Fetched := fetchBytes .atHeader 0 (min headerLen s.inLen) s

/-- A chunk: its first byte must be below IN_LEN, then all `chunk_len(b0)` bytes (R112, R113). -/
def fetchChunk (s : State) : Fetched :=
  if s.inLen ≤ s.ipos then .raised .inChunks s.inLen
  else
    match s.stream.read s.ipos with
    | none => .absent s.ipos
    | some b0 =>
      if s.inLen < s.ipos + chunkLen b0 then .raised .inChunkPayload s.inLen
      else fetchBytes .atChunk s.ipos (chunkLen b0) s

/-- The end marker: the bytes from IPOS on that IN_LEN allows, at most 8, compared as they arrive (R122). -/
def fetchEnd (s : State) : Fetched := fetchBytes .atEnd s.ipos (min 8 (s.inLen - s.ipos)) s

end Sys2Proof.Machine
end

