-- ==== Sys2Proof/Machine/Sequence.lean ====
section
/-! DEFINITION. The sequencing of the two operations: START, the decoder's dispatcher, the encoder's pixel loop
(spec/41_decoder.md R110 to R113; spec/42_encoder.md R140 to R143; spec/43_buffers_and_commands.md R178 to R180). -/

namespace Sys2Proof.Machine

/-! ### START -/

/-- START_DECODE: OP, the initialisation, PIXBUF emptied, then the check of REQCH before any byte is consumed
(R178, R220, R111 step 1). -/
def startDecode (s : State) : State :=
  let t := clearHeaderRegisters { initOperation s with op := .decode, pixbuf := [] }
  if legalChannels t.reqch then t else raise .reqChannels 0 t

/-- R141: the encoder's validation, in its order; an encode records ERRPOS = 0 (R198). -/
def validateEncode (s : State) : State :=
  if ¬ legalChannels s.channels then raise .badChannels 0 s
  else if s.width = 0 ∨ s.height = 0 then raise .zeroDimension 0 s
  else if sizeLimit < imageBytes s.width s.height s.channels then raise .sizeOverflow 0 s
  else if s.inLen ≠ imageBytes s.width s.height s.channels then raise .badBufferLength 0 s
  else { s with pxcount := s.width.toNat * s.height.toNat }

/-- START_ENCODE: OP, the initialisation, STREAM emptied, then validation before any byte is read or written
(R179, R220, R141). -/
def startEncode (s : State) : State :=
  validateEncode { initOperation s with op := .encode, stream := [] }

/-- The engine takes the host's START: allowed in IDLE, DONE and ERROR, refused while an operation runs (R178 to R180). -/
def acceptStart (c : Command) (s : State) : Result :=
  if s.phase.resting then
    match c with
    | .startDecode => .next (startDecode s)
    | .startEncode => .next (startEncode s)
  else .refused .startWhileRunning

/-! ### The decoder -/

/-- One step of a decode: the item fetched is executed; an error found while fetching is taken (R113, R196). -/
def runFetched (f : Fetched) (s : State) : Result :=
  match f with
  | .item i => exec i s
  | .raised c pos => .next (raise c pos s)
  | .absent o => .fault (.absentByte .stream o)

/-! ### The encoder -/

/-- The end of a pixel's step: commit(CUR) once, PXI + 1, and PHASE <- END after the last pixel (R143, R147). -/
def endPixel (s : State) : State := closeChunks { commitEncode s.cur s with pxi := s.pxi + 1 }

/-- CUR = PREV: the run grows by one pixel, and is flushed at 62 or at the last pixel (R144). -/
def extendRun (s : State) : Result :=
  let t := { s with run := s.run + 1 }
  if flushesHere t then exec (.run t.run) t else .next t

/-- CUR differs from PREV: an open run is flushed first, then the pixel's own chunk is emitted (R143). -/
def emitPixel (s : State) : Result :=
  andThen (if 0 < s.run then exec (.run s.run) s else .next s) fun t => exec (chooseItem t.cur t.prev t.cache) t

/-- One pixel of an encode: load, one of the outcomes, commit (R143). -/
def encodePixel (s : State) : Result :=
  match loadPixel s.pxi s with
  | .absent o => .fault (.absentByte .pixbuf o)
  | .pixel p =>
    let t := { s with cur := p }
    andThen (if p = s.prev then extendRun t else emitPixel t) fun u => .next (endPixel u)

/-! ### One step -/

/-- The header's step: a decode fetches it, an encode emits the header of its own registers (R111, R142). -/
def headerStep (s : State) : Result :=
  match s.op with
  | .decode => runFetched (fetchHeader s) s
  | .encode => exec (.header s.width s.height s.channels s.colorspace) s

/-- A step of the chunk phase: one chunk of a decode, one pixel of an encode; where PXI has reached PXCOUNT the loop ends
(R113, R143). -/
def chunkStep (s : State) : Result :=
  if s.pxi < s.pxcount then
    match s.op with
    | .decode => runFetched (fetchChunk s) s
    | .encode => encodePixel s
  else .next { s with phase := .endMarker }

/-- The end marker's step (R122, R151). -/
def endStep (s : State) : Result :=
  match s.op with
  | .decode => runFetched (fetchEnd s) s
  | .encode => exec .endMarker s

/-- One step by PHASE. IDLE, DONE and ERROR are resting phases: the engine stays until the next START (R201; entry 5). -/
def phaseStep (s : State) : Result :=
  match s.phase with
  | .idle => .next s
  | .header => headerStep s
  | .chunks => chunkStep s
  | .endMarker => endStep s
  | .done => .next s
  | .error => .next s

/-- A START the host has issued is taken before anything else. -/
def engineStep (s : State) : Result :=
  match s.cmd with
  | some c => acceptStart c s
  | none => phaseStep s

/-! ### Placing an opcode-table word (entry 14) -/

/-- A legal REQCH is kept; any other is replaced by 4, so that the START check would have passed. -/
def legalReqch (s : State) : Byte := if legalChannels s.reqch then s.reqch else 4

/-- A decode is under way, its STREAM holding the bytes at `base`, and the next item stands there. -/
def placeBytes (base : Nat) (bs : List Byte) (phase : Phase) (s : State) : State :=
  { s with
    op := .decode
    phase := phase
    reqch := legalReqch s
    ipos := base
    inLen := max s.inLen (base + bs.length)
    stream := s.stream.writeBytes base bs
    cmd := none }

/-- The word's bytes where the next step fetches: a header at offset 0, a chunk at IPOS with room for the longest run, a
marker at IPOS with every pixel produced. -/
def placeTableWord (nbits w : Nat) (s : State) : State :=
  match placeOfBits nbits with
  | .atHeader => placeBytes 0 (tableBytes nbits w) .header s
  | .atChunk => placeBytes s.ipos (tableBytes nbits w) .chunks { s with pxcount := max s.pxcount (s.pxi + 62) }
  | .atEnd => placeBytes s.ipos (tableBytes nbits w) .endMarker { s with pxcount := s.pxi }

end Sys2Proof.Machine
end

