-- ==== Sys2Proof/Machine/Step.lean ====
section
/-! DEFINITION. One step of the engine, and the placing of an opcode-table word where it fetches. -/

namespace Sys2Proof.Machine

/-- One step: a START that the host has issued, else one step of the operation that runs. -/
def step (s : State) : Host.Outcome State Fault Refusal := Sys2Proof.Machine.engineStep s

/-- `s` with the instruction of an opcode-table word stored where `step` fetches its next instruction. -/
def State.withFetchWord (s : State) (nbits w : Nat) : State := Sys2Proof.Machine.placeTableWord nbits w s

end Sys2Proof.Machine
end

