-- ==== Sys2Proof/Machine/HostPort.lean ====
section
/-! DEFINITION. What the host can do: write the descriptor and hand over a space between operations, issue a START, read
the result (spec/43_buffers_and_commands.md R178 to R183). -/

namespace Sys2Proof.Machine

/-- Between operations: no operation runs and no START is waiting to be taken (R178, R183). -/
abbrev betweenOperations (s : State) : Prop := s.phase.resting = true ∧ s.cmd = none

/-- A host move between operations; from START to DONE or ERROR the host may touch nothing (R183). -/
def hostMove (f : State → State) (s : State) : Result :=
  if betweenOperations s then .next (f s) else .refused .hostAccessWhileRunning

/-- The host writes REQCH (R18). -/
def hostWriteReqch (c : Byte) (s : State) : Result := hostMove (fun t => { t with reqch := c }) s

/-- The host writes IN_LEN (R18). The order of the writes is free (R222), so its truth is asked for at START. -/
def hostWriteInLen (n : Nat) (s : State) : Result := hostMove (fun t => { t with inLen := n }) s

/-- The host writes WIDTH, HEIGHT, CHANNELS and COLORSPACE (R18). -/
def hostWriteImage (w h : Word32) (c cs : Byte) (s : State) : Result :=
  hostMove (fun t => { t with width := w, height := h, channels := c, colorspace := cs }) s

/-- The host places a whole encoded stream in STREAM (R222). -/
def hostPlaceStream (bs : List Byte) (s : State) : Result := hostMove (fun t => { t with stream := Memory.ofBytes bs }) s

/-- The host places a whole pixel buffer in PIXBUF (R222). -/
def hostPlacePixbuf (bs : List Byte) (s : State) : Result := hostMove (fun t => { t with pixbuf := Memory.ofBytes bs }) s

/-- The input space of the operation that a START begins (R178, R179; spec/20_memory.md R41). -/
def commandInput (c : Command) (s : State) : Memory :=
  match c with
  | .startDecode => s.stream
  | .startEncode => s.pixbuf

/-- The host issues a START: allowed in IDLE, DONE and ERROR, refused while an operation runs (R178 to R180). IN_LEN is
the exact length of the input space (spec/70_reset_and_hazards.md R222), or the START is refused: the host has no move
that gives another (spec/93_implementation_defined.md U3; spec/60_exceptions.md R213). -/
def hostStart (c : Command) (s : State) : Result :=
  if ¬ betweenOperations s then .refused .startWhileRunning
  else if (commandInput c s).holdsExactly s.inLen then .next { s with cmd := some c }
  else .refused .falseInputLength

/-- Everything R183 asks of the host for a decode: STREAM and its true length, REQCH, then START_DECODE. -/
def launchDecode (bs : List Byte) (reqch : Byte) (s : State) : Result :=
  andThen (hostPlaceStream bs s) fun t =>
  andThen (hostWriteInLen bs.length t) fun t =>
  andThen (hostWriteReqch reqch t) fun t =>
  hostStart .startDecode t

/-- Everything R183 asks of the host for an encode: PIXBUF and its true length, the image registers, then START_ENCODE. -/
def launchEncode (bs : List Byte) (w h : Word32) (c cs : Byte) (s : State) : Result :=
  andThen (hostPlacePixbuf bs s) fun t =>
  andThen (hostWriteInLen bs.length t) fun t =>
  andThen (hostWriteImage w h c cs t) fun t =>
  hostStart .startEncode t

/-- The operation has ended and its output is complete, PHASE being DONE, or ERROR with OUTVALID = 1 (R182), and no START
waits: from START on the host reads neither space (spec/20_memory.md R48; R183). -/
abbrev outputReadable (s : State) : Prop :=
  (s.phase = .done ∨ s.phase = .error) ∧ s.outvalid = true ∧ s.cmd = none

/-- The output space of the operation (spec/20_memory.md R41). -/
def outputSpace (s : State) : Memory :=
  match s.op with
  | .decode => s.pixbuf
  | .encode => s.stream

/-- The output the host may read: OUT_LEN bytes of the output space, or nothing when the operation has no output
(R182; spec/60_exceptions.md R200). -/
def hostReadOutput (s : State) : Option (List Byte) :=
  if outputReadable s then
    match (outputSpace s).readBytes 0 s.outLen with
    | .bytes bs => some bs
    | .absent _ => none
  else none

end Sys2Proof.Machine
end

