-- ==== Sys2Proof/Machine/Operations.lean ====
section
/-! DEFINITION. The two operations as total functions of their inputs (spec/43_buffers_and_commands.md R184): the host
launches the engine of the given MAGIC, the engine steps to DONE or ERROR, the host reads the outcome. -/

namespace Sys2Proof.Machine

/-- `n` steps, ending at the first fault or refusal. -/
def stepsFrom : Nat → State → Result
  | 0, s => .next s
  | n + 1, s => andThen (step s) (stepsFrom n)

/-- The outcome of a decode (R184). -/
inductive DecodeOutcome where
  | ok (pixels : List Byte) (width height : Word32) (channels colorspace : Byte) (warnTrailing : Bool)
  | error (err : BitVec 3) (sub : BitVec 4) (errpos : Nat)
  | errorWithPixels (errpos : Nat) (pixels : List Byte) (width height : Word32) (channels colorspace : Byte)
  /-- The engine did not end; R127 says that this never happens. -/
  | unfinished
  deriving DecidableEq, Repr

/-- The outcome of an encode (R184). -/
inductive EncodeOutcome where
  | ok (stream : List Byte)
  | error (err : BitVec 3) (sub : BitVec 4)
  /-- The engine did not end; R155 says that this never happens. -/
  | unfinished
  deriving DecidableEq, Repr

/-- Reading the outcome of a decode from the registers; a success is DONE with ERR = NONE (R182, R184, R195). -/
def readDecode (s : State) : DecodeOutcome :=
  match s.phase, hostReadOutput s with
  | .done, some px =>
    if s.err = 0 then .ok px s.width s.height s.channels s.colorspace s.warnTrailing else .unfinished
  | .error, some px => .errorWithPixels s.errpos px s.width s.height s.channels s.colorspace
  | .error, none => .error s.err s.sub s.errpos
  | _, _ => .unfinished

/-- Reading the outcome of an encode from the registers; a success is DONE with ERR = NONE (R182, R184). -/
def readEncode (s : State) : EncodeOutcome :=
  match s.phase, hostReadOutput s with
  | .done, some bs => if s.err = 0 then .ok bs else .unfinished
  | .error, none => .error s.err s.sub
  | _, _ => .unfinished

/-- The engine of a given MAGIC, after power-on. -/
def engine (m : Magic) : State := { State.reset with magic := m }

/-- `decode(MAGIC, stream, reqch)` (R184). START, the header and the marker take a step each and every chunk consumes a
byte, so the steps given are enough (R127). -/
def decodeOperation (m : Magic) (stream : List Byte) (reqch : Byte) : DecodeOutcome :=
  match andThen (launchDecode stream reqch (engine m)) (stepsFrom (stream.length + 3)) with
  | .next s => readDecode s
  | .fault _ => .unfinished
  | .refused _ => .unfinished

/-- `encode(MAGIC, pixels, width, height, channels, colorspace)` (R184). START, the header and the marker take a step each
and every pixel one, so the steps given are enough (R155). -/
def encodeOperation (m : Magic) (pixels : List Byte) (w h : Word32) (c cs : Byte) : EncodeOutcome :=
  match andThen (launchEncode pixels w h c cs (engine m)) (stepsFrom (pixels.length + 3)) with
  | .next s => readEncode s
  | .fault _ => .unfinished
  | .refused _ => .unfinished

end Sys2Proof.Machine
end

