-- ==== Sys2Proof/Safety.lean ====
section
/-! DEFINITION. The premises of a launch, what a step may leave, and the invariant of the engine, in the terms the
statements use (spec/70_reset_and_hazards.md R234; spec/10_state.md R14 to R18; spec/20_memory.md R41, R46). -/

namespace Sys2Proof

open Machine

/-! ### Byte spaces -/

/-- The bytes `bs` stand at offsets a, a+1, ... -/
def HoldsAt (m : Memory) (a : Nat) (bs : List Byte) : Prop := ∀ k b, bs[k]? = some b → m.read (a + k) = some b

/-- Every offset outside a .. a+n-1 reads in `m'` as it reads in `m`. -/
def SameOutside (m m' : Memory) (a n : Nat) : Prop := ∀ x, x < a ∨ a + n ≤ x → m'.read x = m.read x

/-- Every offset reads in `m'` as it reads in `m`. -/
def SameBytes (m m' : Memory) : Prop := ∀ x, m'.read x = m.read x

/-- The space holds exactly the offsets 0 .. n-1. -/
def Filled (m : Memory) (n : Nat) : Prop := ∀ a, (m.read a).isSome = true ↔ a < n

/-! ### Premises of a launch (R234) -/

/-- `NoOperationRunning`: PHASE is IDLE, DONE or ERROR. -/
abbrev NoOperationRunning (s : State) : Prop := s.phase = .idle ∨ s.phase = .done ∨ s.phase = .error

/-- The input space (spec/20_memory.md R41): that of the operation a waiting START begins, else that of the operation of
OP. -/
def inputSpace (s : State) : Memory :=
  match s.cmd with
  | some c => commandInput c s
  | none =>
    match s.op with
    | .decode => s.stream
    | .encode => s.pixbuf

/-- `InputLengthTrue`: IN_LEN is the length of the input space. `SpacesDisjoint` and `SpacesExclusive` need no premise:
the two spaces are two fields of the state, and no host move touches them from START on (entry 16). `MagicFixed` is the
one MAGIC that a statement about both operations gives to both. -/
def InputLengthTrue (s : State) : Prop := Filled (inputSpace s) s.inLen

/-! ### Where an item runs -/

/-- A decode stands before a chunk (the entry condition of spec/41_decoder.md R116 to R121). -/
abbrev DecodingChunk (s : State) : Prop := s.op = .decode ∧ s.phase = .chunks ∧ s.pxi < s.pxcount

/-- An encode stands in a pixel step (the entry condition of spec/42_encoder.md R144 to R150). -/
abbrev EncodingChunk (s : State) : Prop := s.op = .encode ∧ s.phase = .chunks ∧ s.pxi < s.pxcount

/-- The five chunk kinds that resolve to one pixel: all but RUN. -/
def Instr.onePixel : Instr → Bool
  | .rgb _ _ _ => true
  | .rgba _ _ _ _ => true
  | .index _ => true
  | .diff _ _ _ => true
  | .luma _ _ _ => true
  | .run _ => false
  | .header _ _ _ _ => false
  | .endMarker => false

/-! ### What stands unchanged -/

/-- MAGIC, OP and the descriptor registers of R18 are as before. -/
structure SameDescriptor (s t : State) : Prop where
  magic : t.magic = s.magic
  op : t.op = s.op
  width : t.width = s.width
  height : t.height = s.height
  channels : t.channels = s.channels
  colorspace : t.colorspace = s.colorspace
  reqch : t.reqch = s.reqch
  inLen : t.inLen = s.inLen

/-- The status registers of R19 are as before. -/
structure SameStatus (s t : State) : Prop where
  err : t.err = s.err
  sub : t.sub = s.sub
  errpos : t.errpos = s.errpos
  warnTrailing : t.warnTrailing = s.warnTrailing
  outvalid : t.outvalid = s.outvalid
  outLen : t.outLen = s.outLen

/-- PREV, CACHE and PXI are as before. -/
structure SamePixelState (s t : State) : Prop where
  prev : t.prev = s.prev
  cache : t.cache = s.cache
  pxi : t.pxi = s.pxi

/-! ### What a step does -/

/-- The width in bytes of a stored pixel (spec/43_buffers_and_commands.md R171). -/
def storedWidth (s : State) : Nat := if s.reqch = 3 then 3 else 4

/-- CACHE after `update(p)`: the slot of p's hash holds p, the other 63 are as before (spec/40_cache_predictor.md R93). -/
def CacheUpdated (p : Pixel) (before after : Cache) : Prop :=
  ∀ i : Index, after[i] = if i = hash p then p else before[i]

/-- The chunk phase ends exactly when PXI = PXCOUNT (spec/10_state.md R15, R17). -/
def phaseAfter (pxi pxcount : Nat) : Phase := if pxi < pxcount then .chunks else .endMarker

/-- A decoder chunk of `len` bytes has resolved to the pixel p: CUR, PREV, CACHE, PXI, IPOS, PHASE and the pixel's bytes in
PIXBUF (spec/41_decoder.md R113, R115). -/
structure PixelCommitted (p : Pixel) (len : Nat) (s t : State) : Prop where
  cur : t.cur = p
  prev : t.prev = p
  cache : CacheUpdated p s.cache t.cache
  pxi : t.pxi = s.pxi + 1
  ipos : t.ipos = s.ipos + len
  phase : t.phase = phaseAfter (s.pxi + 1) s.pxcount
  pixels : HoldsAt t.pixbuf (storeOffset s.pxi s) (storedBytes p s)

/-- The error of cause c at position pos has been taken (spec/60_exceptions.md R196): status and phase; PREV, CACHE, PXI
and both spaces as before. -/
structure ErrorTaken (c : Cause) (pos : Nat) (s t : State) : Prop where
  phase : t.phase = .error
  err : t.err = c.err
  sub : t.sub = c.sub
  errpos : t.errpos = pos
  warnTrailing : t.warnTrailing = false
  outvalid : t.outvalid = c.surfaces
  pixelState : SamePixelState s t
  stream : SameBytes s.stream t.stream
  pixbuf : SameBytes s.pixbuf t.pixbuf

/-- The state differs from before at most in PHASE, CUR, RUN, PXCOUNT, IPOS, OPOS, the status and the free-value counter:
what an error may change. -/
structure OnlyErrorState (s t : State) : Prop where
  descriptor : SameDescriptor s t
  pixelState : SamePixelState s t
  stream : SameBytes s.stream t.stream
  pixbuf : SameBytes s.pixbuf t.pixbuf
  cmd : t.cmd = s.cmd

/-! ### The encoder's pixel step in the words of the spec -/

/-- The bytes the pixel step of CUR = p puts into STREAM: a run that is flushed by the pixel that extends it, or an open
run's chunk followed by the pixel's own (spec/42_encoder.md R143, R144). -/
def pixelBytes (p : Pixel) (s : State) : List Byte :=
  if p = s.prev then
    if s.run + 1 = 62 ∨ s.pxi + 1 = s.pxcount then encode s.magic (.run (s.run + 1)) else []
  else (if 0 < s.run then encode s.magic (.run s.run) else []) ++ encode s.magic (chooseItem p s.prev s.cache)

/-- RUN after the pixel step of CUR = p (spec/42_encoder.md R144). -/
def runAfter (p : Pixel) (s : State) : Nat :=
  if p = s.prev ∧ ¬ (s.run + 1 = 62 ∨ s.pxi + 1 = s.pxcount) then s.run + 1 else 0

/-! ### The invariants -/

/-- Both spaces are in canonical form. -/
def SpacesCanonical (s : State) : Prop := s.stream.wf ∧ s.pixbuf.wf

/-- The image registers are those of a validated image (spec/20_memory.md R56; spec/10_state.md R15). -/
structure ImageLegal (s : State) : Prop where
  channels : legalChannels s.channels
  width : s.width ≠ 0
  height : s.height ≠ 0
  size : imageBytes s.width s.height s.channels ≤ sizeLimit
  pxcount : s.pxcount = s.width.toNat * s.height.toNat

/-- A decode that runs: its positions, its requested channels and the extent of its output
(spec/10_state.md R16; spec/20_memory.md R43, R46). -/
structure DecodeInv (s : State) : Prop where
  reqch : legalChannels s.reqch
  run : s.run = 0
  start : s.phase = .header → s.ipos = 0 ∧ s.pxi = 0
  image : s.phase ≠ .header → ImageLegal s ∧ imageBytes s.width s.height s.reqch ≤ sizeLimit
  ipos : s.phase ≠ .header → 14 ≤ s.ipos ∧ s.ipos ≤ s.inLen
  output : Filled s.pixbuf (s.pxi * s.reqch.toNat)

/-- An encode that runs: its validated input, its open run and the extent of its output (spec/10_state.md R14, R16;
spec/42_encoder.md R141, R144). -/
structure EncodeInv (s : State) : Prop where
  image : ImageLegal s
  inLen : s.inLen = imageBytes s.width s.height s.channels
  start : s.phase = .header → s.opos = 0 ∧ s.pxi = 0 ∧ s.run = 0
  opos : s.phase ≠ .header → 14 ≤ s.opos
  run : s.run ≤ 61 ∧ s.run ≤ s.pxi
  closed : s.phase = .endMarker → s.run = 0
  output : Filled s.stream s.opos

/-- An operation runs: PHASE is HEADER, CHUNKS or END. -/
abbrev Running (s : State) : Prop := s.phase = .header ∨ s.phase = .chunks ∨ s.phase = .endMarker

/-- The invariant of the engine. -/
structure EngineInv (s : State) : Prop where
  run : s.run ≤ 62
  slot : lookup (hash s.prev) s = s.prev
  chunks : s.phase = .chunks → s.pxi < s.pxcount
  marker : s.phase = .endMarker → s.pxi = s.pxcount
  decode : Running s → s.op = .decode → DecodeInv s
  encode : Running s → s.op = .encode → EncodeInv s

end Sys2Proof
end

