-- ==== Sys2Proof/Certificates/Slice0/Obligations.lean ====
section
/-! DEFINITION. The statements about the engine. Each docstring names the rule of spec/ it formalises. -/

open Sys2Proof Sys2Proof.Machine

/-! ### The encoding -/

/-- R76, which the spec marks as derived: serialising then parsing a well-formed item gives the item back, with the bytes after it untouched; parsing
then serialising gives the same bytes, and what is parsed is well formed and of the place it was parsed at. -/
def Obligations.DecodeAndEncodeAreInverse : Prop :=
  (∀ (m : Magic) (i : Instr) (rest : List Byte), i.wf = true → decodeAt i.place m (encode m i ++ rest) = .item i rest) ∧
  (∀ (m : Magic) (p : Place) (bs rest : List Byte) (i : Instr),
    decodeAt p m bs = .item i rest → i.wf = true ∧ i.place = p ∧ encode m i ++ rest = bs)

/-- R63 to R68 on words written out bit by bit from the patterns, the field placements among them (95_test_vectors.md
3.2). -/
def Obligations.SpecWordsDecodeAsWritten : Prop :=
  decodeChunk [0b11111110, 100, 200, 7] = .item (.rgb 100 200 7) [] ∧
  decodeChunk [0b11111111, 10, 10, 10, 255] = .item (.rgba 10 10 10 255) [] ∧
  decodeChunk [0b00001011] = .item (.index 11) [] ∧
  decodeChunk [0b01001011] = .item (.diff (-2) 0 1) [] ∧
  decodeChunk [0b10000000, 0b00001111] = .item (.luma (-32) (-8) 7) [] ∧
  decodeChunk [0b11111101] = .item (.run 62) []

/-- R70: the first byte alone tells the chunk kind, FE and FF before the 2-bit tags; the six sets of first bytes are those
of the rule, and with four more bytes every first byte starts a chunk: none is unrecognised
(that the six sets cover every byte is marked as derived in the spec). -/
def Obligations.FirstByteTellsTheKind : Prop :=
  (∀ (b0 : Byte) (t rest : List Byte) (i : Instr), decodeChunk (b0 :: t) = .item i rest →
    (b0 = 0xFE ↔ ∃ r g b, i = .rgb r g b) ∧
    (b0 = 0xFF ↔ ∃ r g b a, i = .rgba r g b a) ∧
    (b0.toNat < 0x40 ↔ ∃ k, i = .index k) ∧
    (0x40 ≤ b0.toNat ∧ b0.toNat < 0x80 ↔ ∃ dr dg db, i = .diff dr dg db) ∧
    (0x80 ≤ b0.toNat ∧ b0.toNat < 0xC0 ↔ ∃ dg drdg dbdg, i = .luma dg drdg dbdg) ∧
    (0xC0 ≤ b0.toNat ∧ b0.toNat ≤ 0xFD ↔ ∃ n, i = .run n)) ∧
  (∀ b0 b1 b2 b3 b4 : Byte, ∃ i rest, decodeChunk [b0, b1, b2, b3, b4] = .item i rest)

/-- R71, R114: the chunk's length is a function of its first byte: FE gives 4, FF gives 5, 80..BF give 2, every other byte
gives 1; a chunk is decoded exactly when that many bytes are there, it takes exactly those, and the bytes after them do
not matter. -/
def Obligations.ChunkLengthFromFirstByte : Prop :=
  (∀ b0 : Byte, chunkLen b0 =
    if b0.toNat = 0xFE then 4 else if b0.toNat = 0xFF then 5
    else if 0x80 ≤ b0.toNat ∧ b0.toNat ≤ 0xBF then 2 else 1) ∧
  (∀ (b0 : Byte) (t : List Byte), t.length + 1 < chunkLen b0 → decodeChunk (b0 :: t) = .rejected .payloadMissing) ∧
  (∀ (b0 : Byte) (t : List Byte), t.length + 1 = chunkLen b0 → ∃ i : Instr, i.length = chunkLen b0 ∧
    ∀ rest, decodeChunk (b0 :: t ++ rest) = .item i rest)

/-! ### The pixel cache and the predictor -/

/-- R91, which the spec marks as derived: the hash sum is at most 6630; reducing every product modulo 64 first, or adding in 8-bit wrap-around arithmetic,
gives the same slot. -/
def Obligations.HashInNarrowArithmetic : Prop :=
  ∀ p : Pixel,
    p.r.toNat * 3 + p.g.toNat * 5 + p.b.toNat * 7 + p.a.toNat * 11 ≤ 6630 ∧
    (hash p).val = (p.r.toNat * 3 % 64 + p.g.toNat * 5 % 64 + p.b.toNat * 7 % 64 + p.a.toNat * 11 % 64) % 64 ∧
    (hash p).val = (p.r * 3 + p.g * 5 + p.b * 7 + p.a * 11).toNat % 64

/-- R93: `update(p)` writes exactly the slot of p's hash, with all of p; the other 63 slots and everything else are as
before; updating with the pixel the slot already holds changes nothing. -/
def Obligations.UpdateWritesExactlyOneSlot : Prop :=
  ∀ (p : Pixel) (s : State),
    CacheUpdated p s.cache (update p s).cache ∧ { update p s with cache := s.cache } = s ∧
    (s.cache[hash p] = p → update p s = s)

/-- R24: after the pixels p_0 .. p_(k-1) have been committed from a cache of ZERO, slot i holds the last of them that hashes
to i, or ZERO if none does; the same after the decoder's commits and after the encoder's. -/
def Obligations.SlotHoldsLatestPixelOfItsHash : Prop :=
  ∀ (ps : List Pixel) (s : State) (i : Index), s.cache = Vector.replicate 64 Pixel.zero →
    (ps.foldl (fun u p => commit p u) s).cache[i] = ((ps.reverse.find? fun p => hash p = i).getD Pixel.zero) ∧
    (ps.foldl (fun u p => commitEncode p u) s).cache[i] = ((ps.reverse.find? fun p => hash p = i).getD Pixel.zero)

/-- R97, which the spec marks as derived: CACHE[hash(PREV)] = PREV is kept by every step of the engine, whatever it does. -/
def Obligations.PreviousPixelStaysInItsSlot : Prop :=
  ∀ s t : State, lookup (hash s.prev) s = s.prev → step s = .next t → lookup (hash t.prev) t = t.prev

/-- R99, R100: a delta is the difference modulo 256 read as a signed 8-bit number; adding any delta to a channel gives the
sum modulo 256; adding to q the delta of c from q gives c. -/
def Obligations.ChannelDeltaRoundTrip : Prop :=
  ∀ c q : Byte,
    (-128 ≤ d8 c q ∧ d8 c q ≤ 127 ∧ (d8 c q - ((c.toNat : Int) - q.toNat)) % 256 = 0) ∧
    (∀ d : Int, ((addDelta q d).toNat : Int) = ((q.toNat : Int) + d) % 256) ∧
    addDelta q (d8 c q) = c

/-! ### Loads and stores -/

/-- R171: `store_pixel(i, p)` writes 3 bytes at 3i when REQCH = 3, else 4 bytes at 4i, the fourth being the pixel's alpha when
CHANNELS = 4 and the constant 255 when CHANNELS = 3; every other byte of PIXBUF and everything else is as before. -/
def Obligations.StorePixelWritesTheRequestedLayout : Prop :=
  ∀ (i : Nat) (p : Pixel) (s : State),
    (s.reqch = 3 → HoldsAt (storePixel i p s).pixbuf (3 * i) [p.r, p.g, p.b] ∧
      SameOutside s.pixbuf (storePixel i p s).pixbuf (3 * i) 3) ∧
    (s.reqch = 4 → s.channels = 4 → HoldsAt (storePixel i p s).pixbuf (4 * i) [p.r, p.g, p.b, p.a] ∧
      SameOutside s.pixbuf (storePixel i p s).pixbuf (4 * i) 4) ∧
    (s.reqch = 4 → s.channels = 3 → HoldsAt (storePixel i p s).pixbuf (4 * i) [p.r, p.g, p.b, 255] ∧
      SameOutside s.pixbuf (storePixel i p s).pixbuf (4 * i) 4) ∧
    { storePixel i p s with pixbuf := s.pixbuf } = s

/-- R170: `load_pixel(i)` reads 4 bytes at 4i when CHANNELS = 4, else 3 bytes at 3i with alpha 255. -/
def Obligations.LoadPixelReadsTheSourceLayout : Prop :=
  ∀ (i : Nat) (r g b a : Byte) (s : State),
    (s.channels = 4 → HoldsAt s.pixbuf (4 * i) [r, g, b, a] → loadPixel i s = .pixel ⟨r, g, b, a⟩) ∧
    (s.channels = 3 → HoldsAt s.pixbuf (3 * i) [r, g, b] → loadPixel i s = .pixel ⟨r, g, b, 255⟩)

/-! ### The decoder's chunks: results -/

/-- R116: RGB resolves to its payload with PREV's alpha, and the pixel is committed. -/
def Obligations.DecodeRgbKeepsPreviousAlpha : Prop :=
  ∀ (r g b : Byte) (s : State), DecodingChunk s →
    ∃ t, exec (.rgb r g b) s = .next t ∧ PixelCommitted ⟨r, g, b, s.prev.a⟩ 4 s t

/-- R117: RGBA resolves to its payload, and the pixel is committed. -/
def Obligations.DecodeRgbaTakesAllFourChannels : Prop :=
  ∀ (r g b a : Byte) (s : State), DecodingChunk s →
    ∃ t, exec (.rgba r g b a) s = .next t ∧ PixelCommitted ⟨r, g, b, a⟩ 5 s t

/-- R118: INDEX resolves to the pixel its slot holds before the commit, and the pixel is committed to the slot of its own
hash. -/
def Obligations.DecodeIndexReadsTheSlot : Prop :=
  ∀ (i : Index) (s : State), DecodingChunk s →
    ∃ t, exec (.index i) s = .next t ∧ PixelCommitted s.cache[i] 1 s t

/-- R119: DIFF resolves to PREV with the three deltas added modulo 256 and alpha kept, and the pixel is committed. -/
def Obligations.DecodeDiffAddsDeltas : Prop :=
  ∀ (dr dg db : Int) (s : State), DecodingChunk s →
    ∃ t p, exec (.diff dr dg db) s = .next t ∧ PixelCommitted p 1 s t ∧
      (p.r.toNat : Int) = (s.prev.r.toNat + dr) % 256 ∧ (p.g.toNat : Int) = (s.prev.g.toNat + dg) % 256 ∧
      (p.b.toNat : Int) = (s.prev.b.toNat + db) % 256 ∧ p.a = s.prev.a

/-- R120: LUMA resolves to PREV with dg + dr_dg, dg and dg + db_dg added modulo 256 and alpha kept, and the pixel is
committed. -/
def Obligations.DecodeLumaAddsGreenRelativeDeltas : Prop :=
  ∀ (dg drdg dbdg : Int) (s : State), DecodingChunk s →
    ∃ t p, exec (.luma dg drdg dbdg) s = .next t ∧ PixelCommitted p 2 s t ∧
      (p.r.toNat : Int) = (s.prev.r.toNat + dg + drdg) % 256 ∧ (p.g.toNat : Int) = (s.prev.g.toNat + dg) % 256 ∧
      (p.b.toNat : Int) = (s.prev.b.toNat + dg + dbdg) % 256 ∧ p.a = s.prev.a

/-- R121: a RUN of N pixels that fits performs N commits of PREV: N pixels stored, PXI + N, IPOS + 1; PREV is as before and
CACHE is as after one update by PREV. -/
def Obligations.DecodeRunRepeatsPreviousPixel : Prop :=
  ∀ (n : Nat) (s : State), DecodingChunk s → 1 ≤ n → n ≤ s.pxcount - s.pxi →
    ∃ t, exec (.run n) s = .next t ∧ t.prev = s.prev ∧ t.cur = s.prev ∧ CacheUpdated s.prev s.cache t.cache ∧
      t.pxi = s.pxi + n ∧ t.ipos = s.ipos + 1 ∧ t.phase = phaseAfter (s.pxi + n) s.pxcount ∧
      ∀ k, k < n → HoldsAt t.pixbuf (storeOffset (s.pxi + k) s) (storedBytes s.prev s)

/-- R121: a RUN longer than the pixels still to be produced raises FormatError(RUN_OVERRUN), ERR = 2 and SUB = 2, at the
offset of the RUN byte, with nothing of the chunk applied. -/
def Obligations.DecodeRunOverrunRaises : Prop :=
  ∀ (n : Nat) (s : State), DecodingChunk s → s.pxcount - s.pxi < n →
    ∃ t, exec (.run n) s = .next t ∧ ErrorTaken .runOverrun s.ipos s t ∧ t.err = 2 ∧ t.sub = 2 ∧ SameDescriptor s t

/-! ### The decoder's chunks: frames -/

/-- R22, R41, R181: RGB, RGBA, INDEX, DIFF and LUMA in a decode change PREV, CUR, CACHE, PXI, IPOS, PHASE and the stored
pixel's bytes of PIXBUF; the descriptor, the status, RUN, PXCOUNT, OPOS, every byte of STREAM and every other byte of PIXBUF
are as before. -/
def Obligations.DecodeOnePixelChunkFrame : Prop :=
  ∀ (i : Instr) (s t : State), i.onePixel = true → s.op = .decode → exec i s = .next t →
    SameDescriptor s t ∧ SameStatus s t ∧ t.run = s.run ∧ t.pxcount = s.pxcount ∧ t.opos = s.opos ∧ t.cmd = s.cmd ∧
    SameBytes s.stream t.stream ∧ SameOutside s.pixbuf t.pixbuf (storeOffset s.pxi s) (storedWidth s)

/-- R22, R41, R181: a RUN of N pixels in a decode that raises nothing changes CUR, CACHE, PXI, IPOS, PHASE and the bytes of
its N pixels in PIXBUF; PREV, the descriptor, the status, RUN, PXCOUNT, OPOS, every byte of STREAM and every other byte of
PIXBUF are as before. -/
def Obligations.DecodeRunFrame : Prop :=
  ∀ (n : Nat) (s t : State), s.op = .decode → n ≤ s.pxcount - s.pxi → exec (.run n) s = .next t →
    SameDescriptor s t ∧ SameStatus s t ∧ t.prev = s.prev ∧ t.run = s.run ∧ t.pxcount = s.pxcount ∧ t.opos = s.opos ∧
    t.cmd = s.cmd ∧ SameBytes s.stream t.stream ∧
    SameOutside s.pixbuf t.pixbuf (storeOffset s.pxi s) (n * storedWidth s)

/-- R97 (a), which the spec marks as derived: where PREV sits in its slot, a RUN in a decode leaves CACHE and PREV as they are. -/
def Obligations.DecodeRunLeavesCache : Prop :=
  ∀ (n : Nat) (s t : State), s.op = .decode → lookup (hash s.prev) s = s.prev → exec (.run n) s = .next t →
    t.cache = s.cache ∧ t.prev = s.prev

/-! ### Header and end marker in a decode -/

/-- R111 steps 4 to 8: a header whose fields are legal fills WIDTH, HEIGHT, CHANNELS, COLORSPACE, sets IPOS to 14 and PXCOUNT to
the product, and begins the chunk phase; COLORSPACE is not checked. -/
def Obligations.DecodeHeaderBeginsChunks : Prop :=
  ∀ (w h : Word32) (c cs : Byte) (s : State), s.op = .decode → s.phase = .header →
    w ≠ 0 → h ≠ 0 → (c = 3 ∨ c = 4) → w.toNat * h.toNat * c.toNat ≤ 2 ^ 32 - 1 →
    w.toNat * h.toNat * s.reqch.toNat ≤ 2 ^ 32 - 1 →
    ∃ t, exec (.header w h c cs) s = .next t ∧ t.width = w ∧ t.height = h ∧ t.channels = c ∧ t.colorspace = cs ∧
      t.ipos = 14 ∧ t.pxcount = w.toNat * h.toNat ∧ t.phase = .chunks

/-- R22: HEADER in a decode that begins the chunk phase changes the four header registers, IPOS, PXCOUNT and PHASE only. -/
def Obligations.DecodeHeaderFrame : Prop :=
  ∀ (w h : Word32) (c cs : Byte) (s t : State), s.op = .decode → exec (.header w h c cs) s = .next t →
    t.phase ≠ .error →
    t.magic = s.magic ∧ t.op = s.op ∧ t.reqch = s.reqch ∧ t.inLen = s.inLen ∧ SameStatus s t ∧ SamePixelState s t ∧
    t.cur = s.cur ∧ t.run = s.run ∧ t.opos = s.opos ∧ t.cmd = s.cmd ∧
    SameBytes s.stream t.stream ∧ SameBytes s.pixbuf t.pixbuf

/-- R111 steps 5 to 7, R192, R198: an illegal header raises ValidationError at position 14, in the order ZERO_DIMENSION (SUB 3),
BAD_CHANNELS (SUB 2), SIZE_OVERFLOW (SUB 4); the four registers hold the header's values. -/
def Obligations.DecodeHeaderValidationOrder : Prop :=
  ∀ (w h : Word32) (c cs : Byte) (s : State), s.op = .decode → s.phase = .header →
    ¬ (w ≠ 0 ∧ h ≠ 0 ∧ (c = 3 ∨ c = 4) ∧ w.toNat * h.toNat * c.toNat ≤ 2 ^ 32 - 1 ∧
      w.toNat * h.toNat * s.reqch.toNat ≤ 2 ^ 32 - 1) →
    ∃ t, exec (.header w h c cs) s = .next t ∧ t.phase = .error ∧ t.err = 1 ∧ t.errpos = 14 ∧ t.outvalid = false ∧
      t.warnTrailing = false ∧
      t.sub = (if w = 0 ∨ h = 0 then 3 else if ¬ (c = 3 ∨ c = 4) then 2 else 4) ∧
      t.width = w ∧ t.height = h ∧ t.channels = c ∧ t.colorspace = cs ∧ SamePixelState s t ∧
      SameBytes s.stream t.stream ∧ SameBytes s.pixbuf t.pixbuf

/-- R122 to R124: a matched end marker ends the decode in DONE: IPOS + 8, ERR and SUB 0, OUTVALID 1, OUT_LEN = PXCOUNT * REQCH, and
WARN_TRAILING tells whether bytes remain. -/
def Obligations.DecodeEndCompletes : Prop :=
  ∀ s : State, s.op = .decode → s.phase = .endMarker →
    ∃ t, exec .endMarker s = .next t ∧ t.phase = .done ∧ t.ipos = s.ipos + 8 ∧ t.err = 0 ∧ t.sub = 0 ∧
      t.outvalid = true ∧ t.outLen = s.pxcount * s.reqch.toNat ∧ (t.warnTrailing = true ↔ s.ipos + 8 < s.inLen)

/-- R22, R123, R124: END in either operation leaves the descriptor, PREV, CACHE, PXI, RUN and PXCOUNT as they are; in a decode
OPOS and every byte of both spaces too; in an encode IPOS, every byte of PIXBUF, and every byte of STREAM but the eight at OPOS
too. -/
def Obligations.EndFrame : Prop :=
  ∀ s t : State, exec .endMarker s = .next t →
    SameDescriptor s t ∧ SamePixelState s t ∧ t.run = s.run ∧ t.pxcount = s.pxcount ∧ t.cmd = s.cmd ∧
    SameBytes s.pixbuf t.pixbuf ∧
    (s.op = .decode → t.opos = s.opos ∧ SameBytes s.stream t.stream) ∧
    (s.op = .encode → t.ipos = s.ipos ∧ SameOutside s.stream t.stream s.opos 8)

/-! ### The encoder's emissions -/

/-- R145, R146, R148 to R150: INDEX, DIFF, LUMA, RGB and RGBA in an encode put exactly the bytes of the item at OPOS and move
OPOS past them; nothing else of the state changes. -/
def Obligations.EncodeChunkEmitsItsBytes : Prop :=
  ∀ (i : Instr) (s : State), i.onePixel = true → EncodingChunk s →
    ∃ t, exec i s = .next t ∧ t.opos = s.opos + i.length ∧ HoldsAt t.stream s.opos (encode s.magic i) ∧
      SameOutside s.stream t.stream s.opos i.length ∧ { t with stream := s.stream, opos := s.opos } = s

/-- R144: RUN in an encode puts the byte 0xC0 + (N - 1) at OPOS and closes the run: RUN <- 0; nothing else of the state changes. -/
def Obligations.EncodeRunFlushes : Prop :=
  ∀ (n : Nat) (s : State), EncodingChunk s → 1 ≤ n → n ≤ 62 →
    ∃ t b, exec (.run n) s = .next t ∧ b.toNat = 0xC0 + (n - 1) ∧ t.opos = s.opos + 1 ∧ t.run = 0 ∧
      HoldsAt t.stream s.opos [b] ∧ SameOutside s.stream t.stream s.opos 1 ∧
      { t with stream := s.stream, opos := s.opos, run := s.run } = s

/-- R142, R61: HEADER in an encode puts the 14 header bytes at OPOS, the words most significant byte first, and begins the chunk
phase; nothing else of the state changes. -/
def Obligations.EncodeHeaderEmitsFourteenBytes : Prop :=
  ∀ (w h : Word32) (c cs : Byte) (s : State), s.op = .encode → s.phase = .header →
    ∃ t w3 w2 w1 w0 h3 h2 h1 h0, exec (.header w h c cs) s = .next t ∧
      HoldsAt t.stream s.opos
        [s.magic.m0, s.magic.m1, s.magic.m2, s.magic.m3, w3, w2, w1, w0, h3, h2, h1, h0, c, cs] ∧
      w.toNat = ((w3.toNat * 256 + w2.toNat) * 256 + w1.toNat) * 256 + w0.toNat ∧
      h.toNat = ((h3.toNat * 256 + h2.toNat) * 256 + h1.toNat) * 256 + h0.toNat ∧
      t.opos = s.opos + 14 ∧ t.phase = .chunks ∧ SameOutside s.stream t.stream s.opos 14 ∧
      { t with stream := s.stream, opos := s.opos, phase := s.phase } = s

/-- R151, R152: END in an encode puts the eight marker bytes at OPOS and ends in DONE with ERR and SUB 0, no warning, OUTVALID 1
and OUT_LEN = OPOS. -/
def Obligations.EncodeEndCompletes : Prop :=
  ∀ s : State, s.op = .encode → s.phase = .endMarker →
    ∃ t, exec .endMarker s = .next t ∧ HoldsAt t.stream s.opos [0, 0, 0, 0, 0, 0, 0, 1] ∧ t.opos = s.opos + 8 ∧
      t.phase = .done ∧ t.err = 0 ∧ t.sub = 0 ∧ t.warnTrailing = false ∧ t.outvalid = true ∧ t.outLen = t.opos

/-- An item out of its place is refused by name: a chunk unless PHASE = CHUNKS with PXI < PXCOUNT, HEADER unless PHASE = HEADER, END
unless PHASE = END. Items are found by position (R60); the refusal is the model's own (entry 11). -/
def Obligations.ItemOutOfPlaceIsRefused : Prop :=
  ∀ (i : Instr) (s : State),
    (match i.place with
      | .atHeader => s.phase ≠ .header
      | .atChunk => ¬ (s.phase = .chunks ∧ s.pxi < s.pxcount)
      | .atEnd => s.phase ≠ .endMarker) →
    exec i s = .refused .outOfPlace

/-! ### The encoder's choice -/

/-- R146, R148 to R150, R101: for a pixel whose slot does not hit. A pixel that PREV and three deltas in -2..1 give, alpha kept, is
coded as the DIFF of those deltas; one that LUMA's ranges give and DIFF's do not, as the LUMA of those deltas; one with alpha
kept that neither gives, as RGB; one whose alpha changes, as RGBA. A pixel its slot holds is coded as INDEX. -/
def Obligations.EncoderPicksFirstApplicableKind : Prop :=
  ∀ (cur prev : Pixel) (cache : Cache),
    (cache[hash cur] = cur → chooseItem cur prev cache = .index (hash cur)) ∧
    (cache[hash cur] ≠ cur → cur.a ≠ prev.a → chooseItem cur prev cache = .rgba cur.r cur.g cur.b cur.a) ∧
    (∀ dr dg db : Int, cache[hash cur] ≠ cur → (Instr.diff dr dg db).wf = true → cur = diffPixel dr dg db prev →
      chooseItem cur prev cache = .diff dr dg db) ∧
    (∀ dg drdg dbdg : Int, cache[hash cur] ≠ cur → (Instr.luma dg drdg dbdg).wf = true →
      cur = lumaPixel dg drdg dbdg prev → (∀ x y z : Int, (Instr.diff x y z).wf = true → cur ≠ diffPixel x y z prev) →
      chooseItem cur prev cache = .luma dg drdg dbdg) ∧
    (cache[hash cur] ≠ cur → cur.a = prev.a →
      (∀ x y z : Int, (Instr.diff x y z).wf = true → cur ≠ diffPixel x y z prev) →
      (∀ x y z : Int, (Instr.luma x y z).wf = true → cur ≠ lumaPixel x y z prev) →
      chooseItem cur prev cache = .rgb cur.r cur.g cur.b)

/-- R153, which the spec marks as derived: whatever chunk the encoder chooses for a pixel is well formed, and a decoder with the same PREV and CACHE resolves it to
exactly that pixel. -/
def Obligations.ChosenChunkResolvesToItsPixel : Prop :=
  ∀ (p : Pixel) (s : State), DecodingChunk s →
    (chooseItem p s.prev s.cache).wf = true ∧
    ∃ t, exec (chooseItem p s.prev s.cache) s = .next t ∧ t.cur = p ∧ t.prev = p ∧
      CacheUpdated p s.cache t.cache ∧ t.pxi = s.pxi + 1

/-- R143, R144, R147: one pixel step of an encode. With p the pixel loaded: the bytes emitted are those of `pixelBytes` at OPOS,
RUN becomes `runAfter`, p is committed, PXI + 1, and PHASE becomes END after the last pixel; the descriptor, the status, IPOS,
PXCOUNT, PIXBUF and every other byte of STREAM are as before. -/
def Obligations.EncodePixelStep : Prop :=
  ∀ (p : Pixel) (s : State), s.cmd = none → EncodingChunk s → loadPixel s.pxi s = .pixel p →
    ∃ t, step s = .next t ∧ t.cur = p ∧ t.prev = p ∧ CacheUpdated p s.cache t.cache ∧ t.pxi = s.pxi + 1 ∧
      t.phase = phaseAfter (s.pxi + 1) s.pxcount ∧ t.run = runAfter p s ∧
      t.opos = s.opos + (pixelBytes p s).length ∧ HoldsAt t.stream s.opos (pixelBytes p s) ∧
      SameOutside s.stream t.stream s.opos (pixelBytes p s).length ∧
      SameDescriptor s t ∧ SameStatus s t ∧ t.ipos = s.ipos ∧ t.pxcount = s.pxcount ∧ SameBytes s.pixbuf t.pixbuf

/-! ### A step -/

/-- A step of a decode runs the decoded item: where the bytes at the item's place, all below IN_LEN, decode to an item, `step` is
`exec` of it, and nothing is added around it. In an encode the header's step and the marker's step are `exec` of HEADER with the
image registers and of END; the pixel's step is EncodePixelStep. -/
def Obligations.StepRunsTheDecodedItem : Prop :=
  (∀ (s : State) (bs rest : List Byte) (i : Instr), s.cmd = none → s.op = .decode → s.phase = .header →
    HoldsAt s.stream 0 bs → bs.length ≤ s.inLen → decodeAt .atHeader s.magic bs = .item i rest → step s = exec i s) ∧
  (∀ (s : State) (bs rest : List Byte) (i : Instr), s.cmd = none → DecodingChunk s →
    HoldsAt s.stream s.ipos bs → s.ipos + bs.length ≤ s.inLen → decodeAt .atChunk s.magic bs = .item i rest →
    step s = exec i s) ∧
  (∀ (s : State) (bs rest : List Byte) (i : Instr), s.cmd = none → s.op = .decode → s.phase = .endMarker →
    HoldsAt s.stream s.ipos bs → s.ipos + bs.length ≤ s.inLen → decodeAt .atEnd s.magic bs = .item i rest →
    step s = exec i s) ∧
  (∀ s : State, s.cmd = none → s.op = .encode → s.phase = .header →
    step s = exec (.header s.width s.height s.channels s.colorspace) s) ∧
  (∀ s : State, s.cmd = none → s.op = .encode → s.phase = .endMarker → step s = exec .endMarker s)

/-- R112, R113: where the stream ends at a chunk boundary, or inside a chunk whose first byte is there, the step raises
TruncatedStreamError (ERR 3) with IN_CHUNKS (SUB 2) or IN_CHUNK_PAYLOAD (SUB 3) at IN_LEN, and nothing of the chunk is applied. -/
def Obligations.TruncatedChunkRaises : Prop :=
  ∀ s : State, s.cmd = none → DecodingChunk s →
    (s.inLen ≤ s.ipos → ∃ t, step s = .next t ∧ ErrorTaken .inChunks s.inLen s t ∧ t.err = 3 ∧ t.sub = 2) ∧
    (∀ b0 : Byte, s.ipos < s.inLen → s.stream.read s.ipos = some b0 → s.inLen < s.ipos + chunkLen b0 →
      ∃ t, step s = .next t ∧ ErrorTaken .inChunkPayload s.inLen s t ∧ t.err = 3 ∧ t.sub = 3)

/-- R111 steps 2 and 3, R198, R199: with `bs` the bytes of a header shorter than or as long as 14: the first magic byte that is there and
wrong raises FormatError(BAD_MAGIC) at its offset, however short the stream; a stream that ends inside the header with no wrong
magic byte raises TruncatedStreamError(IN_HEADER) at IN_LEN. -/
def Obligations.BadOrShortHeaderRaises : Prop :=
  ∀ (s : State) (bs : List Byte), s.cmd = none → s.op = .decode → s.phase = .header →
    HoldsAt s.stream 0 bs → bs.length = min 14 s.inLen →
    (∀ (k : Nat) (b e : Byte), k < 4 → bs.take k = s.magic.bytes.take k → bs[k]? = some b → s.magic.bytes[k]? = some e →
      b ≠ e → ∃ t, step s = .next t ∧ ErrorTaken .badMagic k s t ∧ t.err = 2 ∧ t.sub = 1) ∧
    (s.inLen < 14 → bs.take 4 = s.magic.bytes.take bs.length →
      ∃ t, step s = .next t ∧ ErrorTaken .inHeader s.inLen s t ∧ t.err = 3 ∧ t.sub = 1)

/-- R122, R195: with `bs` the bytes from IPOS on, at most 8: the first byte that is there and wrong raises MissingEndMarkerError at its
offset and surfaces the pixels, OUTVALID = 1 and OUT_LEN = PXCOUNT * REQCH with PIXBUF and the header registers as they are; a stream
that ends inside the marker with no wrong byte raises TruncatedStreamError(IN_END_MARKER) at IN_LEN. -/
def Obligations.BadOrShortMarkerRaises : Prop :=
  ∀ (s : State) (bs : List Byte), s.cmd = none → s.op = .decode → s.phase = .endMarker →
    HoldsAt s.stream s.ipos bs → bs.length = min 8 (s.inLen - s.ipos) →
    (∀ (k : Nat) (b e : Byte), bs.take k = endMarkerBytes.take k → bs[k]? = some b → endMarkerBytes[k]? = some e → b ≠ e →
      ∃ t, step s = .next t ∧ ErrorTaken .endMismatch (s.ipos + k) s t ∧ t.err = 4 ∧ t.sub = 1 ∧ t.outvalid = true ∧
        t.outLen = s.pxcount * s.reqch.toNat ∧ SameDescriptor s t) ∧
    (bs.length < 8 → bs = endMarkerBytes.take bs.length →
      ∃ t, step s = .next t ∧ ErrorTaken .inEndMarker s.inLen s t ∧ t.err = 3 ∧ t.sub = 4 ∧ t.outvalid = false)

/-! ### Errors -/

/-- R196: `raise` ends the operation at once: PHASE, ERR, SUB, ERRPOS and WARN_TRAILING as said, OUTVALID 0 except for
MissingEndMarkerError, whose output is surfaced; PREV, CACHE, PXI, PIXBUF and STREAM as they are, and the descriptor too. -/
def Obligations.RaiseEndsTheOperation : Prop :=
  ∀ (c : Cause) (pos : Nat) (s : State),
    ErrorTaken c pos s (raise c pos s) ∧ OnlyErrorState s (raise c pos s) ∧
    ((raise c pos s).outvalid = true ↔ c = .endMismatch) ∧
    (c = .endMismatch → (raise c pos s).outLen = s.pxcount * s.reqch.toNat)

/-- R193: no step sets ERR and SUB to FORMAT / UNRECOGNIZED_TAG. -/
def Obligations.UnrecognizedTagIsNeverRaised : Prop :=
  ∀ s t : State, step s = .next t → (t.err = 2 ∧ t.sub = 3) → (s.err = 2 ∧ s.sub = 3)

/-- R205: an encode fails only at START, only with ValidationError and with nothing written to STREAM; once it is under way
no step of it ends in ERROR. -/
def Obligations.EncodeFailsAtStartOnly : Prop :=
  (∀ s t : State, s.cmd = none → s.op = .encode → s.phase ≠ .error → step s = .next t → t.phase ≠ .error) ∧
  (∀ s t : State, s.cmd = some .startEncode → step s = .next t → t.phase = .error →
    t.err = 1 ∧ ∀ a, t.stream.read a = none)

/-! ### START and rest -/

/-- R178, R220, R111 step 1: START_DECODE in a resting phase sets OP, performs the initialisation and empties PIXBUF; with REQCH 3 or
4 the header phase begins; with any other REQCH ValidationError(REQ_CHANNELS) is raised at position 0. REQCH, IN_LEN and STREAM are
as the host left them. -/
def Obligations.StartDecodeInitialises : Prop :=
  ∀ s : State, NoOperationRunning s → s.cmd = some .startDecode →
    ∃ t, step s = .next t ∧ t.op = .decode ∧ t.prev = Pixel.zero ∧ (∀ i : Index, t.cache[i] = Pixel.zero) ∧ t.pxi = 0 ∧
      t.warnTrailing = false ∧ t.outvalid = false ∧ (∀ a, t.pixbuf.read a = none) ∧ t.cmd = none ∧
      t.reqch = s.reqch ∧ t.inLen = s.inLen ∧ t.magic = s.magic ∧ SameBytes s.stream t.stream ∧
      (if s.reqch = 3 ∨ s.reqch = 4 then
        t.phase = .header ∧ t.run = 0 ∧ t.ipos = 0 ∧ t.opos = 0 ∧ t.err = 0 ∧ t.sub = 0
      else t.phase = .error ∧ t.err = 1 ∧ t.sub = 1 ∧ t.errpos = 0)

/-- R179, R220, R141: START_ENCODE in a resting phase sets OP, performs the initialisation and empties STREAM; the first of the four
conditions that holds raises ValidationError, in the order BAD_CHANNELS (SUB 2), ZERO_DIMENSION (3), SIZE_OVERFLOW (4),
BAD_BUFFER_LENGTH (5), with ERRPOS = 0; else PXCOUNT is the product and the header phase begins. The descriptor and PIXBUF are as the
host left them. -/
def Obligations.StartEncodeValidates : Prop :=
  ∀ s : State, NoOperationRunning s → s.cmd = some .startEncode →
    ∃ t, step s = .next t ∧ t.op = .encode ∧ t.prev = Pixel.zero ∧ (∀ i : Index, t.cache[i] = Pixel.zero) ∧ t.pxi = 0 ∧
      t.warnTrailing = false ∧ t.outvalid = false ∧ (∀ a, t.stream.read a = none) ∧ t.cmd = none ∧
      t.width = s.width ∧ t.height = s.height ∧ t.channels = s.channels ∧ t.colorspace = s.colorspace ∧
      t.inLen = s.inLen ∧ t.magic = s.magic ∧ SameBytes s.pixbuf t.pixbuf ∧
      (if ¬ (s.channels = 3 ∨ s.channels = 4) then t.phase = .error ∧ t.err = 1 ∧ t.sub = 2 ∧ t.errpos = 0
      else if s.width = 0 ∨ s.height = 0 then t.phase = .error ∧ t.err = 1 ∧ t.sub = 3 ∧ t.errpos = 0
      else if 2 ^ 32 - 1 < s.width.toNat * s.height.toNat * s.channels.toNat then
        t.phase = .error ∧ t.err = 1 ∧ t.sub = 4 ∧ t.errpos = 0
      else if s.inLen ≠ s.width.toNat * s.height.toNat * s.channels.toNat then
        t.phase = .error ∧ t.err = 1 ∧ t.sub = 5 ∧ t.errpos = 0
      else t.phase = .header ∧ t.run = 0 ∧ t.ipos = 0 ∧ t.opos = 0 ∧ t.err = 0 ∧ t.sub = 0 ∧
        t.pxcount = s.width.toNat * s.height.toNat)

/-- R180: a START while PHASE is HEADER, CHUNKS or END has no step: it is refused. -/
def Obligations.StartWhileRunningIsRefused : Prop :=
  ∀ (c : Command) (s : State), s.cmd = some c → Running s → step s = .refused .startWhileRunning

/-- R201: IDLE, DONE and ERROR are left only by a START: without one the step changes nothing. That the step is a next state, and not
a stop, is the model's choice (entry 5). -/
def Obligations.RestingPhaseIsLeftByStartOnly : Prop :=
  ∀ s : State, NoOperationRunning s → s.cmd = none → step s = .next s

/-! ### What no step does -/

/-- R41: the engine never writes its input space: a step without a START leaves STREAM in a decode and PIXBUF in an encode as they
are. -/
def Obligations.InputSpaceIsNeverWritten : Prop :=
  ∀ s t : State, s.cmd = none → step s = .next t → t.op = s.op ∧ SameBytes (inputSpace s) (inputSpace t)

/-- R18: a register the host wrote is never changed by the engine, and MAGIC never at all: OP, REQCH and IN_LEN stand through every
step without a START; WIDTH, HEIGHT, CHANNELS and COLORSPACE too in an encode, and in a decode outside the header's step. -/
def Obligations.DescriptorStands : Prop :=
  ∀ s t : State, step s = .next t →
    t.magic = s.magic ∧ t.reqch = s.reqch ∧ t.inLen = s.inLen ∧
    (s.cmd = none → t.op = s.op ∧
      (s.op = .encode ∨ s.phase ≠ .header →
        t.width = s.width ∧ t.height = s.height ∧ t.channels = s.channels ∧ t.colorspace = s.colorspace))

/-- R17: within one operation PHASE goes HEADER, CHUNKS, END, DONE in that order, with an exit to ERROR from HEADER, CHUNKS and END of a
decode only. -/
def Obligations.PhaseOrder : Prop :=
  ∀ s t : State, s.cmd = none → step s = .next t →
    (s.phase = .header → t.phase = .chunks ∨ (t.phase = .error ∧ s.op = .decode)) ∧
    (s.phase = .chunks → t.phase = .chunks ∨ t.phase = .endMarker ∨ (t.phase = .error ∧ s.op = .decode)) ∧
    (s.phase = .endMarker → t.phase = .done ∨ (t.phase = .error ∧ s.op = .decode)) ∧
    (NoOperationRunning s → t.phase = s.phase)

/-! ### Invariants -/

/-- The canonical form of both spaces is kept by every step. -/
def Obligations.SpacesStayCanonical : Prop :=
  ∀ s t : State, SpacesCanonical s → step s = .next t → SpacesCanonical t

/-- The invariant of the engine is kept by every step: RUN stays in 0..62 (R14), PREV in its slot (R97), PXI below PXCOUNT in CHUNKS and
equal to it in END (R15, R17), IPOS between 14 and IN_LEN and the output exactly as long as the pixels or bytes produced
(R16, R43, R46), the image registers legal (R56), and no run open at the end of an encode (R14, R144). -/
def Obligations.EngineInvariantIsKept : Prop := ∀ s t : State, EngineInv s → step s = .next t → EngineInv t

/-- R221, and the model's own reset values (entries 2, 3): the state after power-on is IDLE with the status clear, and meets both
invariants. -/
def Obligations.ResetMeetsTheInvariants : Prop :=
  State.reset.phase = .idle ∧ State.reset.err = 0 ∧ State.reset.sub = 0 ∧ State.reset.warnTrailing = false ∧
  State.reset.outvalid = false ∧ SpacesCanonical State.reset ∧ EngineInv State.reset

/-- R47, R127, R155: where the invariant holds and IN_LEN is the length of the input space, a step answers a next state, and the
input length stays true: nothing stops a running operation, nor a START that meets a resting phase. -/
def Obligations.RunningOperationNeverStops : Prop :=
  ∀ s : State, EngineInv s → InputLengthTrue s → s.cmd = none ∨ NoOperationRunning s →
    ∃ t, step s = .next t ∧ InputLengthTrue t

/-! ### The two operations as functions -/

/-- R127: every decode ends in DONE or ERROR, whatever the bytes, REQCH and MAGIC: the outcome is one of R184's. -/
def Obligations.EveryDecodeEnds : Prop :=
  ∀ (m : Magic) (bs : List Byte) (reqch : Byte), decodeOperation m bs reqch ≠ .unfinished

/-- R155, R205, R141: an encode of a valid image ends with a stream; any other ends with ValidationError and the sub-cause of the first
condition that holds. -/
def Obligations.EncodeEndsByValidationOnly : Prop :=
  ∀ (m : Magic) (px : List Byte) (w h : Word32) (c cs : Byte),
    if ¬ (c = 3 ∨ c = 4) then encodeOperation m px w h c cs = .error 1 2
    else if w = 0 ∨ h = 0 then encodeOperation m px w h c cs = .error 1 3
    else if 2 ^ 32 - 1 < w.toNat * h.toNat * c.toNat then encodeOperation m px w h c cs = .error 1 4
    else if px.length ≠ w.toNat * h.toNat * c.toNat then encodeOperation m px w h c cs = .error 1 5
    else ∃ stream, encodeOperation m px w h c cs = .ok stream

/-- R128, which the spec marks as derived: for every valid pixel buffer, decoding what the encoder produces, with the source's own channel count, gives back the buffer,
the image registers and no warning; with 4 requested of a 3-channel source a byte 255 stands after every pixel, with 3 requested of
a 4-channel source every fourth byte is dropped. -/
def Obligations.DecodeOfEncodeIsTheImage : Prop :=
  ∀ (m : Magic) (ps : List Pixel) (w h : Word32) (cs : Byte),
    w ≠ 0 → h ≠ 0 → ps.length = w.toNat * h.toNat →
    (ps.length * 4 ≤ 2 ^ 32 - 1 →
      ∃ stream, encodeOperation m (ps.flatMap fun p => [p.r, p.g, p.b, p.a]) w h 4 cs = .ok stream ∧
        decodeOperation m stream 4 = .ok (ps.flatMap fun p => [p.r, p.g, p.b, p.a]) w h 4 cs false ∧
        decodeOperation m stream 3 = .ok (ps.flatMap fun p => [p.r, p.g, p.b]) w h 4 cs false) ∧
    (ps.length * 3 ≤ 2 ^ 32 - 1 →
      ∃ stream, encodeOperation m (ps.flatMap fun p => [p.r, p.g, p.b]) w h 3 cs = .ok stream ∧
        decodeOperation m stream 3 = .ok (ps.flatMap fun p => [p.r, p.g, p.b]) w h 3 cs false ∧
        (ps.length * 4 ≤ 2 ^ 32 - 1 →
          decodeOperation m stream 4 = .ok (ps.flatMap fun p => [p.r, p.g, p.b, 255]) w h 3 cs false))

/-- R54, which the spec marks as derived: the stream of an encode is at least 23 bytes long and at most 22 + 5 * PXCOUNT; of a 3-channel image at most
22 + 4 * PXCOUNT + 1. -/
def Obligations.EncodedLengthIsBounded : Prop :=
  ∀ (m : Magic) (px stream : List Byte) (w h : Word32) (c cs : Byte),
    encodeOperation m px w h c cs = .ok stream →
    23 ≤ stream.length ∧ stream.length ≤ 22 + 5 * (w.toNat * h.toNat) ∧
    (c = 3 → stream.length ≤ 22 + 4 * (w.toNat * h.toNat) + 1)

/-- R197: bytes after the end marker of a stream change nothing but WARN_TRAILING: the decode ends in success with the same pixels and
registers. The warning is set only by the step of a decode that has produced every pixel and matched the end marker, with IN_LEN
beyond it, and that step ends in DONE with ERR = NONE and OUTVALID = 1; no step of an encode sets it. -/
def Obligations.TrailingBytesOnlyWarn : Prop :=
  (∀ (m : Magic) (bs extra px : List Byte) (reqch : Byte) (w h : Word32) (c cs : Byte), extra ≠ [] →
    decodeOperation m bs reqch = .ok px w h c cs false →
    decodeOperation m (bs ++ extra) reqch = .ok px w h c cs true) ∧
  (∀ s t : State, s.warnTrailing = false → step s = .next t → t.warnTrailing = true →
    s.cmd = none ∧ s.op = .decode ∧ s.phase = .endMarker ∧ HoldsAt s.stream s.ipos endMarkerBytes ∧
    s.ipos + 8 < s.inLen ∧ t.phase = .done ∧ t.err = 0 ∧ t.outvalid = true)

/-- R194, R214: every proper beginning of a valid stream without trailing bytes fails with TruncatedStreamError, at its own length. -/
def Obligations.EveryCutIsTruncation : Prop :=
  ∀ (m : Magic) (bs px : List Byte) (reqch : Byte) (w h : Word32) (c cs : Byte) (k : Nat),
    decodeOperation m bs reqch = .ok px w h c cs false → k < bs.length →
    ∃ sub, decodeOperation m (bs.take k) reqch = .error 3 sub k

/-- R48, R182, R183, U3: between operations the host issues a START exactly with a true IN_LEN: any other is refused, and one that
is taken stands in CMD, all else as before, with the input length true. From START until the operation has ended, and while a START
waits, every move of the host is refused: a write of a register or a space, a second START, and a read of the output. Which name
a refusal has is the model's choice (entries 12, 13, 16). -/
def Obligations.HostActsBetweenOperationsOnly : Prop :=
  (∀ (c : Command) (s : State), NoOperationRunning s → s.cmd = none → Filled (commandInput c s) s.inLen →
    ∃ t, hostStart c s = .next t ∧ t.cmd = some c ∧ { t with cmd := none } = s ∧ InputLengthTrue t) ∧
  (∀ (c : Command) (s : State), NoOperationRunning s → s.cmd = none → ¬ Filled (commandInput c s) s.inLen →
    hostStart c s = .refused .falseInputLength) ∧
  (∀ (c : Command) (f : State → State) (s : State), Running s ∨ s.cmd ≠ none →
    hostMove f s = .refused .hostAccessWhileRunning ∧ hostStart c s = .refused .startWhileRunning ∧
      hostReadOutput s = none)

/-- R48, R182, R200: the host reads an output exactly when the operation ended, in DONE or ERROR, with OUTVALID = 1, and no START
waits; the output is the first OUT_LEN bytes of the output space, PIXBUF after a decode and STREAM after an encode. Without OUTVALID
there is no output, whatever the space holds. -/
def Obligations.OutputIsReadWhenValidOnly : Prop :=
  ∀ (s : State) (bs : List Byte),
    hostReadOutput s = some bs ↔
      (s.phase = .done ∨ s.phase = .error) ∧ s.outvalid = true ∧ s.cmd = none ∧ bs.length = s.outLen ∧
        (s.op = .decode → HoldsAt s.pixbuf 0 bs) ∧ (s.op = .encode → HoldsAt s.stream 0 bs)
end

