-- ==== Sys2Proof/Laws/Decode.lean ====
section
/-! SUPPORT. What the decoder and the encoder of one item can do: which rule a first byte selects, what comparing bytes
answers, and the numeric value of the encoded bytes. -/

namespace Sys2Proof

/-! ### Bit fields -/

theorem bits_lt (b : Byte) (hi lo : Nat) : bits b hi lo < 2 ^ (hi + 1 - lo) := Nat.mod_lt _ (Nat.two_pow_pos _)

theorem bits_7_6 (b : Byte) : bits b 7 6 = b.toNat / 64 := by
  have := b.isLt
  simp only [bits]
  omega

theorem bits_5_0 (b : Byte) : bits b 5 0 = b.toNat % 64 := by simp [bits]

theorem bits_5_4 (b : Byte) : bits b 5 4 = b.toNat / 16 % 4 := by simp [bits]

theorem bits_3_2 (b : Byte) : bits b 3 2 = b.toNat / 4 % 4 := by simp [bits]

theorem bits_1_0 (b : Byte) : bits b 1 0 = b.toNat % 4 := by simp [bits]

theorem bits_7_4 (b : Byte) : bits b 7 4 = b.toNat / 16 := by
  have := b.isLt
  simp only [bits]
  omega

theorem bits_3_0 (b : Byte) : bits b 3 0 = b.toNat % 16 := by simp [bits]

theorem byte_eq_iff (b c : Byte) : b = c ↔ b.toNat = c.toNat := BitVec.toNat_inj.symm

/-- A byte written from an integer in range has that value. -/
theorem toNat_ofInt_byte {x : Int} {n : Nat} (hx : x = n) (hn : n < 256) : (BitVec.ofInt 8 x).toNat = n := by
  subst hx
  simp
  omega

/-! ### Which rule a first byte selects (R70) -/

theorem decodeChunk_rgb (t : List Byte) : decodeChunk (0xFE :: t) = decodeRgb t := by simp [decodeChunk]

theorem decodeChunk_rgba (t : List Byte) : decodeChunk (0xFF :: t) = decodeRgba t := by simp [decodeChunk]

theorem decodeChunk_index {b0 : Byte} (t : List Byte) (h : b0.toNat < 64) :
    decodeChunk (b0 :: t) = decodeIndex b0 t := by
  have h1 : b0 ≠ 0xFE := by rintro rfl; simp at h
  have h2 : b0 ≠ 0xFF := by rintro rfl; simp at h
  rw [decodeChunk, if_neg h1, if_neg h2, bits_7_6, if_pos (by omega)]

theorem decodeChunk_diff {b0 : Byte} (t : List Byte) (h : 64 ≤ b0.toNat ∧ b0.toNat < 128) :
    decodeChunk (b0 :: t) = decodeDiff b0 t := by
  have h1 : b0 ≠ 0xFE := by rintro rfl; simp at h
  have h2 : b0 ≠ 0xFF := by rintro rfl; simp at h
  rw [decodeChunk, if_neg h1, if_neg h2, bits_7_6, if_neg (by omega), if_pos (by omega)]

theorem decodeChunk_luma {b0 : Byte} (t : List Byte) (h : 128 ≤ b0.toNat ∧ b0.toNat < 192) :
    decodeChunk (b0 :: t) = decodeLuma b0 t := by
  have h1 : b0 ≠ 0xFE := by rintro rfl; simp at h
  have h2 : b0 ≠ 0xFF := by rintro rfl; simp at h
  rw [decodeChunk, if_neg h1, if_neg h2, bits_7_6, if_neg (by omega), if_neg (by omega), if_pos (by omega)]

theorem decodeChunk_run {b0 : Byte} (t : List Byte) (h : 192 ≤ b0.toNat ∧ b0.toNat ≤ 253) :
    decodeChunk (b0 :: t) = decodeRun b0 t := by
  have h1 : b0 ≠ 0xFE := by rintro rfl; simp at h
  have h2 : b0 ≠ 0xFF := by rintro rfl; simp at h
  rw [decodeChunk, if_neg h1, if_neg h2, bits_7_6, if_neg (by omega), if_neg (by omega), if_neg (by omega)]

/-- The six sets of first bytes cover every byte. -/
theorem firstByte_cases (b0 : Byte) :
    b0 = 0xFE ∨ b0 = 0xFF ∨ b0.toNat < 64 ∨ (64 ≤ b0.toNat ∧ b0.toNat < 128) ∨
      (128 ≤ b0.toNat ∧ b0.toNat < 192) ∨ (192 ≤ b0.toNat ∧ b0.toNat ≤ 253) := by
  have := b0.isLt
  by_cases h1 : b0 = 0xFE
  · exact .inl h1
  by_cases h2 : b0 = 0xFF
  · exact .inr (.inl h2)
  have h1' : b0.toNat ≠ 254 := fun h => h1 (BitVec.eq_of_toNat_eq h)
  have h2' : b0.toNat ≠ 255 := fun h => h2 (BitVec.eq_of_toNat_eq h)
  omega

theorem chunkLen_rgb : chunkLen 0xFE = 4 := by simp [chunkLen]

theorem chunkLen_rgba : chunkLen 0xFF = 5 := by simp [chunkLen]

theorem chunkLen_luma {b0 : Byte} (h : 128 ≤ b0.toNat ∧ b0.toNat < 192) : chunkLen b0 = 2 := by
  have h1 : b0 ≠ 0xFE := by rintro rfl; simp at h
  have h2 : b0 ≠ 0xFF := by rintro rfl; simp at h
  rw [chunkLen, if_neg h1, if_neg h2, bits_7_6, if_pos (by omega)]

theorem chunkLen_one {b0 : Byte} (h : b0.toNat < 128 ∨ (192 ≤ b0.toNat ∧ b0.toNat ≤ 253)) : chunkLen b0 = 1 := by
  have h1 : b0 ≠ 0xFE := by rintro rfl; simp at h
  have h2 : b0 ≠ 0xFF := by rintro rfl; simp at h
  rw [chunkLen, if_neg h1, if_neg h2, bits_7_6, if_neg (by omega)]

theorem chunkLen_pos (b0 : Byte) : 1 ≤ chunkLen b0 ∧ chunkLen b0 ≤ 5 := by
  unfold chunkLen
  split
  · simp
  · split
    · simp
    · split <;> simp

theorem Instr.length_pos (i : Instr) : 1 ≤ i.length := by cases i <;> simp [Instr.length]

/-- What is decoded as a chunk stands at a chunk's place and is as long as its first byte says. -/
theorem decodeChunk_spec {b0 : Byte} {t rest : List Byte} {i : Instr} (h : decodeChunk (b0 :: t) = .item i rest) :
    i.place = .atChunk ∧ i.length = chunkLen b0 := by
  rcases firstByte_cases b0 with h0 | h0 | h0 | h0 | h0 | h0
  · subst h0
    rw [decodeChunk_rgb] at h
    unfold decodeRgb at h
    split at h
    · cases h
      exact ⟨rfl, chunkLen_rgb.symm⟩
    · cases h
  · subst h0
    rw [decodeChunk_rgba] at h
    unfold decodeRgba at h
    split at h
    · cases h
      exact ⟨rfl, chunkLen_rgba.symm⟩
    · cases h
  · rw [decodeChunk_index t h0] at h
    cases h
    exact ⟨rfl, (chunkLen_one (.inl (by omega))).symm⟩
  · rw [decodeChunk_diff t h0] at h
    cases h
    exact ⟨rfl, (chunkLen_one (.inl h0.2)).symm⟩
  · rw [decodeChunk_luma t h0] at h
    unfold decodeLuma at h
    split at h
    · cases h
      exact ⟨rfl, (chunkLen_luma h0).symm⟩
    · cases h
  · rw [decodeChunk_run t h0] at h
    cases h
    exact ⟨rfl, (chunkLen_one (.inr h0)).symm⟩

/-! ### The numeric value of the encoded bytes (R75) -/

theorem encodeDiffByte_toNat {dr dg db : Int} {x y z : Nat} (hr : dr = x - 2) (hg : dg = y - 2) (hb : db = z - 2)
    (hx : x < 4) (hy : y < 4) (hz : z < 4) : (encodeDiffByte dr dg db).toNat = 64 + x * 16 + y * 4 + z :=
  toNat_ofInt_byte (by simp only [diffBias]; omega) (by omega)

theorem encodeRunByte_toNat {n : Nat} (h1 : 1 ≤ n) (h2 : n ≤ 62) : (encodeRunByte n).toNat = 191 + n :=
  toNat_ofInt_byte (by omega) (by omega)

theorem wordByte_toNat (w : Word32) (k : Nat) : (wordByte w k).toNat = w.toNat / 2 ^ (8 * k) % 256 := by
  simp [wordByte]

theorem be32_toNat (b0 b1 b2 b3 : Byte) :
    (be32 b0 b1 b2 b3).toNat = b0.toNat * 2 ^ 24 + b1.toNat * 2 ^ 16 + b2.toNat * 2 ^ 8 + b3.toNat := by
  have := b0.isLt
  have := b1.isLt
  have := b2.isLt
  have := b3.isLt
  simp only [be32, BitVec.toNat_ofNat]
  omega

theorem be32_bytesOfWord (w : Word32) : be32 (wordByte w 3) (wordByte w 2) (wordByte w 1) (wordByte w 0) = w := by
  have := w.isLt
  apply BitVec.eq_of_toNat_eq
  simp only [be32_toNat, wordByte_toNat]
  omega

theorem bytesOfWord_be32 (b0 b1 b2 b3 : Byte) : bytesOfWord (be32 b0 b1 b2 b3) = [b0, b1, b2, b3] := by
  have := b0.isLt
  have := b1.isLt
  have := b2.isLt
  have := b3.isLt
  simp only [bytesOfWord, List.cons.injEq, and_true]
  refine ⟨?_, ?_, ?_, ?_⟩ <;> (apply BitVec.eq_of_toNat_eq; simp only [wordByte_toNat, be32_toNat]; omega)

/-! ### Comparing bytes (R111 step 2, R122) -/

/-- The bytes expected come first: nothing differs. -/
theorem compareBytes_append (k : Nat) (es rest : List Byte) : compareBytes k es (es ++ rest) = .same rest := by
  induction es generalizing k with
  | nil => rfl
  | cons e es ih => simp [compareBytes, ih]

/-- `compareBytes` answers `same` only where the bytes expected come first. -/
theorem compareBytes_same {k : Nat} {es bs rest : List Byte} (h : compareBytes k es bs = .same rest) :
    bs = es ++ rest := by
  induction es generalizing k bs with
  | nil => simpa [compareBytes] using h
  | cons e es ih =>
    cases bs with
    | nil => simp [compareBytes] at h
    | cons b bs =>
      simp only [compareBytes] at h
      split at h
      · subst_vars
        rw [ih h, List.cons_append]
      · cases h

/-- `compareBytes` answers `short` exactly where the bytes are a proper beginning of those expected. -/
theorem compareBytes_short_iff (k : Nat) (es bs : List Byte) :
    compareBytes k es bs = .short ↔ bs.length < es.length ∧ bs = es.take bs.length := by
  induction es generalizing k bs with
  | nil => simp [compareBytes]
  | cons e es ih =>
    cases bs with
    | nil => simp [compareBytes]
    | cons b bs =>
      simp only [compareBytes]
      split
      · subst_vars
        simp [ih]
      · rename_i h
        simp [h]

/-- `compareBytes` answers the first place where a byte that is present is wrong. -/
theorem compareBytes_differs_iff (k j : Nat) (es bs : List Byte) :
    compareBytes k es bs = .differs j ↔
      ∃ i, j = k + i ∧ bs.take i = es.take i ∧ ∃ b e, bs[i]? = some b ∧ es[i]? = some e ∧ b ≠ e := by
  induction es generalizing k bs with
  | nil => simp [compareBytes]
  | cons e es ih =>
    cases bs with
    | nil => simp [compareBytes]
    | cons b bs =>
      simp only [compareBytes]
      split
      · subst_vars
        rw [ih]
        constructor
        · rintro ⟨i, rfl, h1, h2⟩
          exact ⟨i + 1, by omega, by simp [h1], by simpa using h2⟩
        · rintro ⟨i, rfl, h1, b', e', h2, h3, h4⟩
          cases i with
          | zero =>
            simp only [List.getElem?_cons_zero, Option.some.injEq] at h2 h3
            exact absurd (h2.symm.trans h3) h4
          | succ i => exact ⟨i, by omega, by simpa using h1, b', e', by simpa using h2, by simpa using h3, h4⟩
      · rename_i hne
        simp only [Compared.differs.injEq]
        constructor
        · rintro rfl
          exact ⟨0, by simp, by simp, b, e, by simp, by simp, hne⟩
        · rintro ⟨i, rfl, h1, _⟩
          cases i with
          | zero => rfl
          | succ i =>
            simp only [List.take_succ_cons, List.cons.injEq] at h1
            exact absurd h1.1 hne

/-! ### The framing items -/

/-- What is decoded as a header is a HEADER, and took fourteen bytes. -/
theorem decodeHeader_spec {m : Magic} {bs rest : List Byte} {i : Instr} (h : decodeHeader m bs = .item i rest) :
    (∃ w v c cs, i = .header w v c cs) ∧ bs.length = 14 + rest.length := by
  unfold decodeHeader at h
  split at h
  · rename_i fields hc
    rw [compareBytes_same hc]
    unfold decodeHeaderFields at h
    split at h
    · cases h
      exact ⟨⟨_, _, _, _, rfl⟩, by simp [Magic.bytes]; omega⟩
    · cases h
  · cases h
  · cases h

theorem decodeEnd_spec {bs rest : List Byte} {i : Instr} (h : decodeEnd bs = .item i rest) : i = .endMarker := by
  unfold decodeEnd at h
  split at h <;> cases h
  rfl

end Sys2Proof
end

