-- ==== Sys2Proof/Laws/Memory.lean ====
section
/-! SUPPORT. The laws of a byte space: a read after a write, the canonical form, and runs of consecutive bytes. -/

namespace Sys2Proof.Machine

/-! ### One byte -/

@[simp] theorem Memory.read_nil (a : Nat) : Memory.read [] a = none := rfl

theorem Memory.read_write (m : Memory) (a x : Nat) (b : Byte) :
    (m.write a b).read x = if x = a then some b else m.read x := by
  induction m with
  | nil => simp [Memory.write, Memory.read]
  | cons c rest ih =>
    obtain ⟨y, v⟩ := c
    simp only [Memory.write]
    split
    · simp [Memory.read]
    · split
      · subst_vars
        by_cases h : x = y <;> simp [Memory.read, h]
      · simp only [Memory.read, ih]
        by_cases h : x = y
        · subst h
          rw [if_pos rfl, if_neg (by omega), if_pos rfl]
        · simp [h]

theorem Memory.mem_of_read {m : Memory} {a : Nat} {b : Byte} (h : m.read a = some b) : (a, b) ∈ m := by
  induction m with
  | nil => cases h
  | cons c rest ih =>
    obtain ⟨x, y⟩ := c
    simp only [Memory.read] at h
    split at h
    · cases h
      subst_vars
      exact List.mem_cons_self
    · exact List.mem_cons_of_mem _ (ih h)

theorem Memory.read_isSome_of_mem {m : Memory} {cell : Host.Cell} (h : cell ∈ m) : (m.read cell.1).isSome = true := by
  induction m with
  | nil => cases h
  | cons c rest ih =>
    obtain ⟨x, y⟩ := c
    simp only [Memory.read]
    split
    · rfl
    · rcases List.mem_cons.mp h with rfl | h
      · contradiction
      · exact ih h

theorem Memory.read_write_same (m : Memory) (a : Nat) (b : Byte) : (m.write a b).read a = some b := by
  simp [Memory.read_write]

theorem Memory.read_write_other (m : Memory) {a x : Nat} (b : Byte) (h : x ≠ a) :
    (m.write a b).read x = m.read x := by
  simp [Memory.read_write, h]

/-! ### The canonical form -/

theorem Memory.wf_nil : Memory.wf [] := List.Pairwise.nil

theorem Memory.mem_write {m : Memory} {a : Nat} {b : Byte} {c : Host.Cell} (h : c ∈ m.write a b) :
    c = (a, b) ∨ c ∈ m := by
  induction m with
  | nil => simpa [Memory.write] using h
  | cons d rest ih =>
    obtain ⟨y, v⟩ := d
    simp only [Memory.write] at h
    split at h
    · simpa using h
    · split at h
      · rcases List.mem_cons.mp h with h | h
        · exact .inl h
        · exact .inr (List.mem_cons_of_mem _ h)
      · rcases List.mem_cons.mp h with h | h
        · exact .inr (h ▸ List.mem_cons_self)
        · exact (ih h).imp_right (List.mem_cons_of_mem _)

theorem Memory.wf_write {m : Memory} (a : Nat) (b : Byte) (h : m.wf) : (m.write a b).wf := by
  induction m with
  | nil => simp [Memory.write]
  | cons c rest ih =>
    obtain ⟨y, v⟩ := c
    obtain ⟨hy, hr⟩ := List.pairwise_cons.mp h
    simp only [Memory.write]
    split
    · refine List.pairwise_cons.mpr ⟨fun c hc => ?_, h⟩
      rcases List.mem_cons.mp hc with rfl | hc
      · assumption
      · exact Nat.lt_trans ‹_› (hy c hc)
    · split
      · subst_vars
        exact List.pairwise_cons.mpr ⟨hy, hr⟩
      · refine List.pairwise_cons.mpr ⟨fun c hc => ?_, ih hr⟩
        rcases Memory.mem_write hc with rfl | hc
        · simp only; omega
        · exact hy c hc

theorem Memory.wf_writeBytes {m : Memory} (a : Nat) (bs : List Byte) (h : m.wf) : (m.writeBytes a bs).wf := by
  induction bs generalizing m a with
  | nil => exact h
  | cons b bs ih => exact ih _ (Memory.wf_write a b h)

theorem Memory.wf_ofBytes (bs : List Byte) : (Memory.ofBytes bs).wf := Memory.wf_writeBytes 0 bs Memory.wf_nil

theorem Memory.read_eq_none_of_lt {m : Memory} {a : Nat} (h : ∀ c ∈ m, a < c.1) : m.read a = none := by
  induction m with
  | nil => rfl
  | cons c rest ih =>
    obtain ⟨x, y⟩ := c
    have hx : a < x := h (x, y) List.mem_cons_self
    rw [Memory.read, if_neg (by omega)]
    exact ih fun c hc => h c (List.mem_cons_of_mem _ hc)

/-- Canonical: two spaces in canonical form that read alike are equal data. -/
theorem Memory.eq_of_read_eq {m n : Memory} (hm : m.wf) (hn : n.wf) (h : ∀ a, m.read a = n.read a) : m = n := by
  induction m generalizing n with
  | nil =>
    cases n with
    | nil => rfl
    | cons d n =>
      have := h d.1
      simp [Memory.read] at this
  | cons c m ih =>
    obtain ⟨x, y⟩ := c
    obtain ⟨hx, hm⟩ := List.pairwise_cons.mp hm
    cases n with
    | nil =>
      have := h x
      simp [Memory.read] at this
    | cons d n =>
      obtain ⟨u, v⟩ := d
      obtain ⟨hu, hn'⟩ := List.pairwise_cons.mp hn
      have hxu : x = u := by
        rcases Nat.lt_trichotomy x u with hlt | heq | hlt
        · have := h x
          rw [Memory.read_eq_none_of_lt (m := (u, v) :: n)] at this
          · simp [Memory.read] at this
          · intro c hc
            rcases List.mem_cons.mp hc with rfl | hc
            · exact hlt
            · exact Nat.lt_trans hlt (hu c hc)
        · exact heq
        · have := h u
          rw [Memory.read_eq_none_of_lt (m := (x, y) :: m)] at this
          · simp [Memory.read] at this
          · intro c hc
            rcases List.mem_cons.mp hc with rfl | hc
            · exact hlt
            · exact Nat.lt_trans hlt (hx c hc)
      subst hxu
      have hyv : y = v := by
        have := h x
        simpa [Memory.read] using this
      subst hyv
      have hmn : m = n := by
        refine ih hm hn' fun a => ?_
        by_cases ha : a = x
        · subst ha
          rw [Memory.read_eq_none_of_lt fun c hc => hx c hc, Memory.read_eq_none_of_lt fun c hc => hu c hc]
        · have := h a
          simpa [Memory.read, ha] using this
      rw [hmn]

/-! ### Runs of bytes -/

/-- Everything `writeBytes` does: the bytes written stand at their offsets, every other offset reads as before. -/
theorem Memory.read_writeBytes (m : Memory) (a : Nat) (bs : List Byte) (x : Nat) :
    (m.writeBytes a bs).read x = if a ≤ x ∧ x < a + bs.length then bs[x - a]? else m.read x := by
  induction bs generalizing m a with
  | nil =>
    have : ¬ (a ≤ x ∧ x < a + ([] : List Byte).length) := by simp
    rw [if_neg this]
    rfl
  | cons b bs ih =>
    rw [Memory.writeBytes, ih]
    by_cases h1 : a + 1 ≤ x ∧ x < a + 1 + bs.length
    · obtain ⟨k, hk⟩ : ∃ k, x = a + 1 + k := ⟨x - (a + 1), by omega⟩
      subst hk
      rw [if_pos h1, if_pos (by simp; omega), show a + 1 + k - a = (a + 1 + k - (a + 1)) + 1 by omega,
        List.getElem?_cons_succ]
    · rw [if_neg h1, Memory.read_write]
      by_cases h2 : x = a
      · subst h2
        rw [if_pos rfl, if_pos (by simp)]
        simp
      · rw [if_neg h2, if_neg (by simp; omega)]

theorem Memory.read_writeBytes_outside (m : Memory) {a : Nat} {bs : List Byte} {x : Nat}
    (h : x < a ∨ a + bs.length ≤ x) : (m.writeBytes a bs).read x = m.read x := by
  rw [Memory.read_writeBytes, if_neg (by omega)]

theorem Memory.read_ofBytes (bs : List Byte) (x : Nat) : (Memory.ofBytes bs).read x = bs[x]? := by
  rw [Memory.ofBytes, Memory.read_writeBytes]
  by_cases h : x < bs.length
  · simp [h]
  · simp [h]

theorem Memory.writeBytes_append (m : Memory) (a : Nat) (bs cs : List Byte) :
    m.writeBytes a (bs ++ cs) = (m.writeBytes a bs).writeBytes (a + bs.length) cs := by
  induction bs generalizing m a with
  | nil => rfl
  | cons b bs ih =>
    simp only [List.cons_append, Memory.writeBytes, List.length_cons, ih]
    congr 1
    omega

/-- Everything `readBytes` does when it answers bytes: as many as asked, each the byte at its offset. -/
theorem Memory.readBytes_eq_bytes_iff (m : Memory) (a n : Nat) (bs : List Byte) :
    m.readBytes a n = .bytes bs ↔ bs.length = n ∧ ∀ k, k < n → m.read (a + k) = bs[k]? := by
  induction n generalizing a bs with
  | zero =>
    cases bs <;> simp [Memory.readBytes]
  | succ n ih =>
    rw [Memory.readBytes]
    cases hr : m.read a with
    | none =>
      simp only [reduceCtorEq, false_iff, not_and]
      intro hl h
      have := h 0 (by omega)
      rw [Nat.add_zero, hr] at this
      cases bs with
      | nil => simp at hl
      | cons b bs => simp at this
    | some b =>
      cases hs : m.readBytes (a + 1) n with
      | absent o =>
        simp only [reduceCtorEq, false_iff, not_and]
        intro hl h
        cases bs with
        | nil => simp at hl
        | cons c cs =>
          have : m.readBytes (a + 1) n = .bytes cs := by
            refine (ih (a + 1) cs).mpr ⟨by simpa using hl, fun k hk => ?_⟩
            have := h (k + 1) (by omega)
            rwa [List.getElem?_cons_succ, show a + (k + 1) = a + 1 + k by omega] at this
          rw [hs] at this
          cases this
      | bytes cs =>
        obtain ⟨hcl, hc⟩ := (ih (a + 1) cs).mp hs
        simp only [ReadResult.bytes.injEq]
        constructor
        · rintro rfl
          refine ⟨by simp [hcl], fun k hk => ?_⟩
          cases k with
          | zero => simpa using hr
          | succ k =>
            rw [List.getElem?_cons_succ, ← hc k (by omega)]
            congr 1
            omega
        · rintro ⟨hl, h⟩
          cases bs with
          | nil => simp at hl
          | cons d ds =>
            have h0 := h 0 (by omega)
            rw [Nat.add_zero, hr] at h0
            have : cs = ds := by
              apply List.ext_getElem? fun k => ?_
              by_cases hk : k < n
              · rw [← hc k hk]
                have := h (k + 1) (by omega)
                rw [List.getElem?_cons_succ] at this
                rw [← this]
                congr 1
                omega
              · rw [List.getElem?_eq_none (by omega), List.getElem?_eq_none (by simp at hl; omega)]
            simp_all

/-- When every offset asked for holds a byte, `readBytes` answers the bytes. -/
theorem Memory.readBytes_total (m : Memory) (a n : Nat) (h : ∀ k, k < n → (m.read (a + k)).isSome = true) :
    ∃ bs, m.readBytes a n = .bytes bs := by
  induction n generalizing a with
  | zero => exact ⟨[], rfl⟩
  | succ n ih =>
    obtain ⟨b, hb⟩ := Option.isSome_iff_exists.mp (h 0 (by omega))
    obtain ⟨bs, hbs⟩ := ih (a + 1) fun k hk => by
      have := h (k + 1) (by omega)
      rwa [show a + (k + 1) = a + 1 + k by omega] at this
    exact ⟨b :: bs, by rw [Memory.readBytes]; rw [Nat.add_zero] at hb; rw [hb, hbs]⟩

/-- An offset that `readBytes` reports as absent is in the range asked for and holds no byte. -/
theorem Memory.readBytes_absent {m : Memory} {a n o : Nat} (h : m.readBytes a n = .absent o) :
    a ≤ o ∧ o < a + n ∧ m.read o = none := by
  induction n generalizing a with
  | zero => simp [Memory.readBytes] at h
  | succ n ih =>
    rw [Memory.readBytes] at h
    cases hr : m.read a with
    | none =>
      rw [hr] at h
      cases h
      exact ⟨Nat.le_refl _, by omega, hr⟩
    | some b =>
      rw [hr] at h
      cases hs : m.readBytes (a + 1) n with
      | bytes cs => simp [hs] at h
      | absent o' =>
        simp only [hs, ReadResult.absent.injEq] at h
        subst h
        obtain ⟨h1, h2, h3⟩ := ih hs
        exact ⟨by omega, by omega, h3⟩

theorem Memory.readBytes_ofBytes (bs : List Byte) : (Memory.ofBytes bs).readBytes 0 bs.length = .bytes bs :=
  (Memory.readBytes_eq_bytes_iff _ _ _ _).mpr ⟨rfl, fun k _ => by rw [Nat.zero_add, Memory.read_ofBytes]⟩

end Sys2Proof.Machine
end

