-- ==== Sys2Proof/Laws/State.lean ====
section
/-! SUPPORT. One lemma per field per update: what each named operation leaves in each register. -/

namespace Sys2Proof.Machine

/-! ### storePixel -/

@[simp] theorem storePixel_magic (i : Nat) (p : Pixel) (s : State) : (storePixel i p s).magic = s.magic := rfl
@[simp] theorem storePixel_op (i : Nat) (p : Pixel) (s : State) : (storePixel i p s).op = s.op := rfl
@[simp] theorem storePixel_width (i : Nat) (p : Pixel) (s : State) : (storePixel i p s).width = s.width := rfl
@[simp] theorem storePixel_height (i : Nat) (p : Pixel) (s : State) : (storePixel i p s).height = s.height := rfl
@[simp] theorem storePixel_channels (i : Nat) (p : Pixel) (s : State) : (storePixel i p s).channels = s.channels := rfl
@[simp] theorem storePixel_colorspace (i : Nat) (p : Pixel) (s : State) : (storePixel i p s).colorspace = s.colorspace := rfl
@[simp] theorem storePixel_reqch (i : Nat) (p : Pixel) (s : State) : (storePixel i p s).reqch = s.reqch := rfl
@[simp] theorem storePixel_inLen (i : Nat) (p : Pixel) (s : State) : (storePixel i p s).inLen = s.inLen := rfl
@[simp] theorem storePixel_prev (i : Nat) (p : Pixel) (s : State) : (storePixel i p s).prev = s.prev := rfl
@[simp] theorem storePixel_cur (i : Nat) (p : Pixel) (s : State) : (storePixel i p s).cur = s.cur := rfl
@[simp] theorem storePixel_cache (i : Nat) (p : Pixel) (s : State) : (storePixel i p s).cache = s.cache := rfl
@[simp] theorem storePixel_run (i : Nat) (p : Pixel) (s : State) : (storePixel i p s).run = s.run := rfl
@[simp] theorem storePixel_pxcount (i : Nat) (p : Pixel) (s : State) : (storePixel i p s).pxcount = s.pxcount := rfl
@[simp] theorem storePixel_pxi (i : Nat) (p : Pixel) (s : State) : (storePixel i p s).pxi = s.pxi := rfl
@[simp] theorem storePixel_ipos (i : Nat) (p : Pixel) (s : State) : (storePixel i p s).ipos = s.ipos := rfl
@[simp] theorem storePixel_opos (i : Nat) (p : Pixel) (s : State) : (storePixel i p s).opos = s.opos := rfl
@[simp] theorem storePixel_phase (i : Nat) (p : Pixel) (s : State) : (storePixel i p s).phase = s.phase := rfl
@[simp] theorem storePixel_err (i : Nat) (p : Pixel) (s : State) : (storePixel i p s).err = s.err := rfl
@[simp] theorem storePixel_sub (i : Nat) (p : Pixel) (s : State) : (storePixel i p s).sub = s.sub := rfl
@[simp] theorem storePixel_errpos (i : Nat) (p : Pixel) (s : State) : (storePixel i p s).errpos = s.errpos := rfl
@[simp] theorem storePixel_warnTrailing (i : Nat) (p : Pixel) (s : State) : (storePixel i p s).warnTrailing = s.warnTrailing := rfl
@[simp] theorem storePixel_outvalid (i : Nat) (p : Pixel) (s : State) : (storePixel i p s).outvalid = s.outvalid := rfl
@[simp] theorem storePixel_outLen (i : Nat) (p : Pixel) (s : State) : (storePixel i p s).outLen = s.outLen := rfl
@[simp] theorem storePixel_stream (i : Nat) (p : Pixel) (s : State) : (storePixel i p s).stream = s.stream := rfl
@[simp] theorem storePixel_pixbuf (i : Nat) (p : Pixel) (s : State) : (storePixel i p s).pixbuf = s.pixbuf.writeBytes (storeOffset i s) (storedBytes p s) := rfl
@[simp] theorem storePixel_cmd (i : Nat) (p : Pixel) (s : State) : (storePixel i p s).cmd = s.cmd := rfl
@[simp] theorem storePixel_fresh (i : Nat) (p : Pixel) (s : State) : (storePixel i p s).fresh = s.fresh := rfl

/-! ### update -/

@[simp] theorem update_magic (p : Pixel) (s : State) : (update p s).magic = s.magic := rfl
@[simp] theorem update_op (p : Pixel) (s : State) : (update p s).op = s.op := rfl
@[simp] theorem update_width (p : Pixel) (s : State) : (update p s).width = s.width := rfl
@[simp] theorem update_height (p : Pixel) (s : State) : (update p s).height = s.height := rfl
@[simp] theorem update_channels (p : Pixel) (s : State) : (update p s).channels = s.channels := rfl
@[simp] theorem update_colorspace (p : Pixel) (s : State) : (update p s).colorspace = s.colorspace := rfl
@[simp] theorem update_reqch (p : Pixel) (s : State) : (update p s).reqch = s.reqch := rfl
@[simp] theorem update_inLen (p : Pixel) (s : State) : (update p s).inLen = s.inLen := rfl
@[simp] theorem update_prev (p : Pixel) (s : State) : (update p s).prev = s.prev := rfl
@[simp] theorem update_cur (p : Pixel) (s : State) : (update p s).cur = s.cur := rfl
@[simp] theorem update_cache (p : Pixel) (s : State) : (update p s).cache = s.cache.set (hash p) p := rfl
@[simp] theorem update_run (p : Pixel) (s : State) : (update p s).run = s.run := rfl
@[simp] theorem update_pxcount (p : Pixel) (s : State) : (update p s).pxcount = s.pxcount := rfl
@[simp] theorem update_pxi (p : Pixel) (s : State) : (update p s).pxi = s.pxi := rfl
@[simp] theorem update_ipos (p : Pixel) (s : State) : (update p s).ipos = s.ipos := rfl
@[simp] theorem update_opos (p : Pixel) (s : State) : (update p s).opos = s.opos := rfl
@[simp] theorem update_phase (p : Pixel) (s : State) : (update p s).phase = s.phase := rfl
@[simp] theorem update_err (p : Pixel) (s : State) : (update p s).err = s.err := rfl
@[simp] theorem update_sub (p : Pixel) (s : State) : (update p s).sub = s.sub := rfl
@[simp] theorem update_errpos (p : Pixel) (s : State) : (update p s).errpos = s.errpos := rfl
@[simp] theorem update_warnTrailing (p : Pixel) (s : State) : (update p s).warnTrailing = s.warnTrailing := rfl
@[simp] theorem update_outvalid (p : Pixel) (s : State) : (update p s).outvalid = s.outvalid := rfl
@[simp] theorem update_outLen (p : Pixel) (s : State) : (update p s).outLen = s.outLen := rfl
@[simp] theorem update_stream (p : Pixel) (s : State) : (update p s).stream = s.stream := rfl
@[simp] theorem update_pixbuf (p : Pixel) (s : State) : (update p s).pixbuf = s.pixbuf := rfl
@[simp] theorem update_cmd (p : Pixel) (s : State) : (update p s).cmd = s.cmd := rfl
@[simp] theorem update_fresh (p : Pixel) (s : State) : (update p s).fresh = s.fresh := rfl

/-! ### advance -/

@[simp] theorem advance_magic (p : Pixel) (s : State) : (advance p s).magic = s.magic := rfl
@[simp] theorem advance_op (p : Pixel) (s : State) : (advance p s).op = s.op := rfl
@[simp] theorem advance_width (p : Pixel) (s : State) : (advance p s).width = s.width := rfl
@[simp] theorem advance_height (p : Pixel) (s : State) : (advance p s).height = s.height := rfl
@[simp] theorem advance_channels (p : Pixel) (s : State) : (advance p s).channels = s.channels := rfl
@[simp] theorem advance_colorspace (p : Pixel) (s : State) : (advance p s).colorspace = s.colorspace := rfl
@[simp] theorem advance_reqch (p : Pixel) (s : State) : (advance p s).reqch = s.reqch := rfl
@[simp] theorem advance_inLen (p : Pixel) (s : State) : (advance p s).inLen = s.inLen := rfl
@[simp] theorem advance_prev (p : Pixel) (s : State) : (advance p s).prev = p := rfl
@[simp] theorem advance_cur (p : Pixel) (s : State) : (advance p s).cur = s.cur := rfl
@[simp] theorem advance_cache (p : Pixel) (s : State) : (advance p s).cache = s.cache := rfl
@[simp] theorem advance_run (p : Pixel) (s : State) : (advance p s).run = s.run := rfl
@[simp] theorem advance_pxcount (p : Pixel) (s : State) : (advance p s).pxcount = s.pxcount := rfl
@[simp] theorem advance_pxi (p : Pixel) (s : State) : (advance p s).pxi = s.pxi := rfl
@[simp] theorem advance_ipos (p : Pixel) (s : State) : (advance p s).ipos = s.ipos := rfl
@[simp] theorem advance_opos (p : Pixel) (s : State) : (advance p s).opos = s.opos := rfl
@[simp] theorem advance_phase (p : Pixel) (s : State) : (advance p s).phase = s.phase := rfl
@[simp] theorem advance_err (p : Pixel) (s : State) : (advance p s).err = s.err := rfl
@[simp] theorem advance_sub (p : Pixel) (s : State) : (advance p s).sub = s.sub := rfl
@[simp] theorem advance_errpos (p : Pixel) (s : State) : (advance p s).errpos = s.errpos := rfl
@[simp] theorem advance_warnTrailing (p : Pixel) (s : State) : (advance p s).warnTrailing = s.warnTrailing := rfl
@[simp] theorem advance_outvalid (p : Pixel) (s : State) : (advance p s).outvalid = s.outvalid := rfl
@[simp] theorem advance_outLen (p : Pixel) (s : State) : (advance p s).outLen = s.outLen := rfl
@[simp] theorem advance_stream (p : Pixel) (s : State) : (advance p s).stream = s.stream := rfl
@[simp] theorem advance_pixbuf (p : Pixel) (s : State) : (advance p s).pixbuf = s.pixbuf := rfl
@[simp] theorem advance_cmd (p : Pixel) (s : State) : (advance p s).cmd = s.cmd := rfl
@[simp] theorem advance_fresh (p : Pixel) (s : State) : (advance p s).fresh = s.fresh := rfl

/-! ### commit -/

@[simp] theorem commit_magic (p : Pixel) (s : State) : (commit p s).magic = s.magic := by
  dsimp only [commit, advance, update, storePixel]
@[simp] theorem commit_op (p : Pixel) (s : State) : (commit p s).op = s.op := by
  dsimp only [commit, advance, update, storePixel]
@[simp] theorem commit_width (p : Pixel) (s : State) : (commit p s).width = s.width := by
  dsimp only [commit, advance, update, storePixel]
@[simp] theorem commit_height (p : Pixel) (s : State) : (commit p s).height = s.height := by
  dsimp only [commit, advance, update, storePixel]
@[simp] theorem commit_channels (p : Pixel) (s : State) : (commit p s).channels = s.channels := by
  dsimp only [commit, advance, update, storePixel]
@[simp] theorem commit_colorspace (p : Pixel) (s : State) : (commit p s).colorspace = s.colorspace := by
  dsimp only [commit, advance, update, storePixel]
@[simp] theorem commit_reqch (p : Pixel) (s : State) : (commit p s).reqch = s.reqch := by
  dsimp only [commit, advance, update, storePixel]
@[simp] theorem commit_inLen (p : Pixel) (s : State) : (commit p s).inLen = s.inLen := by
  dsimp only [commit, advance, update, storePixel]
@[simp] theorem commit_prev (p : Pixel) (s : State) : (commit p s).prev = p := by
  dsimp only [commit, advance, update, storePixel]
@[simp] theorem commit_cur (p : Pixel) (s : State) : (commit p s).cur = s.cur := by
  dsimp only [commit, advance, update, storePixel]
@[simp] theorem commit_cache (p : Pixel) (s : State) : (commit p s).cache = s.cache.set (hash p) p := by
  dsimp only [commit, advance, update, storePixel]
@[simp] theorem commit_run (p : Pixel) (s : State) : (commit p s).run = s.run := by
  dsimp only [commit, advance, update, storePixel]
@[simp] theorem commit_pxcount (p : Pixel) (s : State) : (commit p s).pxcount = s.pxcount := by
  dsimp only [commit, advance, update, storePixel]
@[simp] theorem commit_pxi (p : Pixel) (s : State) : (commit p s).pxi = s.pxi + 1 := by
  dsimp only [commit, advance, update, storePixel]
@[simp] theorem commit_ipos (p : Pixel) (s : State) : (commit p s).ipos = s.ipos := by
  dsimp only [commit, advance, update, storePixel]
@[simp] theorem commit_opos (p : Pixel) (s : State) : (commit p s).opos = s.opos := by
  dsimp only [commit, advance, update, storePixel]
@[simp] theorem commit_phase (p : Pixel) (s : State) : (commit p s).phase = s.phase := by
  dsimp only [commit, advance, update, storePixel]
@[simp] theorem commit_err (p : Pixel) (s : State) : (commit p s).err = s.err := by
  dsimp only [commit, advance, update, storePixel]
@[simp] theorem commit_sub (p : Pixel) (s : State) : (commit p s).sub = s.sub := by
  dsimp only [commit, advance, update, storePixel]
@[simp] theorem commit_errpos (p : Pixel) (s : State) : (commit p s).errpos = s.errpos := by
  dsimp only [commit, advance, update, storePixel]
@[simp] theorem commit_warnTrailing (p : Pixel) (s : State) : (commit p s).warnTrailing = s.warnTrailing := by
  dsimp only [commit, advance, update, storePixel]
@[simp] theorem commit_outvalid (p : Pixel) (s : State) : (commit p s).outvalid = s.outvalid := by
  dsimp only [commit, advance, update, storePixel]
@[simp] theorem commit_outLen (p : Pixel) (s : State) : (commit p s).outLen = s.outLen := by
  dsimp only [commit, advance, update, storePixel]
@[simp] theorem commit_stream (p : Pixel) (s : State) : (commit p s).stream = s.stream := by
  dsimp only [commit, advance, update, storePixel]
@[simp] theorem commit_pixbuf (p : Pixel) (s : State) : (commit p s).pixbuf = s.pixbuf.writeBytes (storeOffset s.pxi s) (storedBytes p s) := by
  dsimp only [commit, advance, update, storePixel]
@[simp] theorem commit_cmd (p : Pixel) (s : State) : (commit p s).cmd = s.cmd := by
  dsimp only [commit, advance, update, storePixel]
@[simp] theorem commit_fresh (p : Pixel) (s : State) : (commit p s).fresh = s.fresh := by
  dsimp only [commit, advance, update, storePixel]

/-! ### resolve -/

@[simp] theorem resolve_magic (p : Pixel) (s : State) : (resolve p s).magic = s.magic := by
  dsimp only [resolve, commit, advance, update, storePixel]
@[simp] theorem resolve_op (p : Pixel) (s : State) : (resolve p s).op = s.op := by
  dsimp only [resolve, commit, advance, update, storePixel]
@[simp] theorem resolve_width (p : Pixel) (s : State) : (resolve p s).width = s.width := by
  dsimp only [resolve, commit, advance, update, storePixel]
@[simp] theorem resolve_height (p : Pixel) (s : State) : (resolve p s).height = s.height := by
  dsimp only [resolve, commit, advance, update, storePixel]
@[simp] theorem resolve_channels (p : Pixel) (s : State) : (resolve p s).channels = s.channels := by
  dsimp only [resolve, commit, advance, update, storePixel]
@[simp] theorem resolve_colorspace (p : Pixel) (s : State) : (resolve p s).colorspace = s.colorspace := by
  dsimp only [resolve, commit, advance, update, storePixel]
@[simp] theorem resolve_reqch (p : Pixel) (s : State) : (resolve p s).reqch = s.reqch := by
  dsimp only [resolve, commit, advance, update, storePixel]
@[simp] theorem resolve_inLen (p : Pixel) (s : State) : (resolve p s).inLen = s.inLen := by
  dsimp only [resolve, commit, advance, update, storePixel]
@[simp] theorem resolve_prev (p : Pixel) (s : State) : (resolve p s).prev = p := by
  dsimp only [resolve, commit, advance, update, storePixel]
@[simp] theorem resolve_cur (p : Pixel) (s : State) : (resolve p s).cur = p := by
  dsimp only [resolve, commit, advance, update, storePixel]
@[simp] theorem resolve_cache (p : Pixel) (s : State) : (resolve p s).cache = s.cache.set (hash p) p := by
  dsimp only [resolve, commit, advance, update, storePixel]
@[simp] theorem resolve_run (p : Pixel) (s : State) : (resolve p s).run = s.run := by
  dsimp only [resolve, commit, advance, update, storePixel]
@[simp] theorem resolve_pxcount (p : Pixel) (s : State) : (resolve p s).pxcount = s.pxcount := by
  dsimp only [resolve, commit, advance, update, storePixel]
@[simp] theorem resolve_pxi (p : Pixel) (s : State) : (resolve p s).pxi = s.pxi + 1 := by
  dsimp only [resolve, commit, advance, update, storePixel]
@[simp] theorem resolve_ipos (p : Pixel) (s : State) : (resolve p s).ipos = s.ipos := by
  dsimp only [resolve, commit, advance, update, storePixel]
@[simp] theorem resolve_opos (p : Pixel) (s : State) : (resolve p s).opos = s.opos := by
  dsimp only [resolve, commit, advance, update, storePixel]
@[simp] theorem resolve_phase (p : Pixel) (s : State) : (resolve p s).phase = s.phase := by
  dsimp only [resolve, commit, advance, update, storePixel]
@[simp] theorem resolve_err (p : Pixel) (s : State) : (resolve p s).err = s.err := by
  dsimp only [resolve, commit, advance, update, storePixel]
@[simp] theorem resolve_sub (p : Pixel) (s : State) : (resolve p s).sub = s.sub := by
  dsimp only [resolve, commit, advance, update, storePixel]
@[simp] theorem resolve_errpos (p : Pixel) (s : State) : (resolve p s).errpos = s.errpos := by
  dsimp only [resolve, commit, advance, update, storePixel]
@[simp] theorem resolve_warnTrailing (p : Pixel) (s : State) : (resolve p s).warnTrailing = s.warnTrailing := by
  dsimp only [resolve, commit, advance, update, storePixel]
@[simp] theorem resolve_outvalid (p : Pixel) (s : State) : (resolve p s).outvalid = s.outvalid := by
  dsimp only [resolve, commit, advance, update, storePixel]
@[simp] theorem resolve_outLen (p : Pixel) (s : State) : (resolve p s).outLen = s.outLen := by
  dsimp only [resolve, commit, advance, update, storePixel]
@[simp] theorem resolve_stream (p : Pixel) (s : State) : (resolve p s).stream = s.stream := by
  dsimp only [resolve, commit, advance, update, storePixel]
@[simp] theorem resolve_pixbuf (p : Pixel) (s : State) : (resolve p s).pixbuf = s.pixbuf.writeBytes (storeOffset s.pxi s) (storedBytes p s) := by
  dsimp only [resolve, commit, advance, update, storePixel]
  rfl
@[simp] theorem resolve_cmd (p : Pixel) (s : State) : (resolve p s).cmd = s.cmd := by
  dsimp only [resolve, commit, advance, update, storePixel]
@[simp] theorem resolve_fresh (p : Pixel) (s : State) : (resolve p s).fresh = s.fresh := by
  dsimp only [resolve, commit, advance, update, storePixel]

/-! ### commitEncode -/

@[simp] theorem commitEncode_magic (p : Pixel) (s : State) : (commitEncode p s).magic = s.magic := by
  dsimp only [commitEncode, advance, update]
@[simp] theorem commitEncode_op (p : Pixel) (s : State) : (commitEncode p s).op = s.op := by
  dsimp only [commitEncode, advance, update]
@[simp] theorem commitEncode_width (p : Pixel) (s : State) : (commitEncode p s).width = s.width := by
  dsimp only [commitEncode, advance, update]
@[simp] theorem commitEncode_height (p : Pixel) (s : State) : (commitEncode p s).height = s.height := by
  dsimp only [commitEncode, advance, update]
@[simp] theorem commitEncode_channels (p : Pixel) (s : State) : (commitEncode p s).channels = s.channels := by
  dsimp only [commitEncode, advance, update]
@[simp] theorem commitEncode_colorspace (p : Pixel) (s : State) : (commitEncode p s).colorspace = s.colorspace := by
  dsimp only [commitEncode, advance, update]
@[simp] theorem commitEncode_reqch (p : Pixel) (s : State) : (commitEncode p s).reqch = s.reqch := by
  dsimp only [commitEncode, advance, update]
@[simp] theorem commitEncode_inLen (p : Pixel) (s : State) : (commitEncode p s).inLen = s.inLen := by
  dsimp only [commitEncode, advance, update]
@[simp] theorem commitEncode_prev (p : Pixel) (s : State) : (commitEncode p s).prev = p := by
  dsimp only [commitEncode, advance, update]
@[simp] theorem commitEncode_cur (p : Pixel) (s : State) : (commitEncode p s).cur = s.cur := by
  dsimp only [commitEncode, advance, update]
@[simp] theorem commitEncode_cache (p : Pixel) (s : State) : (commitEncode p s).cache = s.cache.set (hash p) p := by
  dsimp only [commitEncode, advance, update]
@[simp] theorem commitEncode_run (p : Pixel) (s : State) : (commitEncode p s).run = s.run := by
  dsimp only [commitEncode, advance, update]
@[simp] theorem commitEncode_pxcount (p : Pixel) (s : State) : (commitEncode p s).pxcount = s.pxcount := by
  dsimp only [commitEncode, advance, update]
@[simp] theorem commitEncode_pxi (p : Pixel) (s : State) : (commitEncode p s).pxi = s.pxi := by
  dsimp only [commitEncode, advance, update]
@[simp] theorem commitEncode_ipos (p : Pixel) (s : State) : (commitEncode p s).ipos = s.ipos := by
  dsimp only [commitEncode, advance, update]
@[simp] theorem commitEncode_opos (p : Pixel) (s : State) : (commitEncode p s).opos = s.opos := by
  dsimp only [commitEncode, advance, update]
@[simp] theorem commitEncode_phase (p : Pixel) (s : State) : (commitEncode p s).phase = s.phase := by
  dsimp only [commitEncode, advance, update]
@[simp] theorem commitEncode_err (p : Pixel) (s : State) : (commitEncode p s).err = s.err := by
  dsimp only [commitEncode, advance, update]
@[simp] theorem commitEncode_sub (p : Pixel) (s : State) : (commitEncode p s).sub = s.sub := by
  dsimp only [commitEncode, advance, update]
@[simp] theorem commitEncode_errpos (p : Pixel) (s : State) : (commitEncode p s).errpos = s.errpos := by
  dsimp only [commitEncode, advance, update]
@[simp] theorem commitEncode_warnTrailing (p : Pixel) (s : State) : (commitEncode p s).warnTrailing = s.warnTrailing := by
  dsimp only [commitEncode, advance, update]
@[simp] theorem commitEncode_outvalid (p : Pixel) (s : State) : (commitEncode p s).outvalid = s.outvalid := by
  dsimp only [commitEncode, advance, update]
@[simp] theorem commitEncode_outLen (p : Pixel) (s : State) : (commitEncode p s).outLen = s.outLen := by
  dsimp only [commitEncode, advance, update]
@[simp] theorem commitEncode_stream (p : Pixel) (s : State) : (commitEncode p s).stream = s.stream := by
  dsimp only [commitEncode, advance, update]
@[simp] theorem commitEncode_pixbuf (p : Pixel) (s : State) : (commitEncode p s).pixbuf = s.pixbuf := by
  dsimp only [commitEncode, advance, update]
@[simp] theorem commitEncode_cmd (p : Pixel) (s : State) : (commitEncode p s).cmd = s.cmd := by
  dsimp only [commitEncode, advance, update]
@[simp] theorem commitEncode_fresh (p : Pixel) (s : State) : (commitEncode p s).fresh = s.fresh := by
  dsimp only [commitEncode, advance, update]

/-! ### emit -/

@[simp] theorem emit_magic (bs : List Byte) (s : State) : (emit bs s).magic = s.magic := rfl
@[simp] theorem emit_op (bs : List Byte) (s : State) : (emit bs s).op = s.op := rfl
@[simp] theorem emit_width (bs : List Byte) (s : State) : (emit bs s).width = s.width := rfl
@[simp] theorem emit_height (bs : List Byte) (s : State) : (emit bs s).height = s.height := rfl
@[simp] theorem emit_channels (bs : List Byte) (s : State) : (emit bs s).channels = s.channels := rfl
@[simp] theorem emit_colorspace (bs : List Byte) (s : State) : (emit bs s).colorspace = s.colorspace := rfl
@[simp] theorem emit_reqch (bs : List Byte) (s : State) : (emit bs s).reqch = s.reqch := rfl
@[simp] theorem emit_inLen (bs : List Byte) (s : State) : (emit bs s).inLen = s.inLen := rfl
@[simp] theorem emit_prev (bs : List Byte) (s : State) : (emit bs s).prev = s.prev := rfl
@[simp] theorem emit_cur (bs : List Byte) (s : State) : (emit bs s).cur = s.cur := rfl
@[simp] theorem emit_cache (bs : List Byte) (s : State) : (emit bs s).cache = s.cache := rfl
@[simp] theorem emit_run (bs : List Byte) (s : State) : (emit bs s).run = s.run := rfl
@[simp] theorem emit_pxcount (bs : List Byte) (s : State) : (emit bs s).pxcount = s.pxcount := rfl
@[simp] theorem emit_pxi (bs : List Byte) (s : State) : (emit bs s).pxi = s.pxi := rfl
@[simp] theorem emit_ipos (bs : List Byte) (s : State) : (emit bs s).ipos = s.ipos := rfl
@[simp] theorem emit_opos (bs : List Byte) (s : State) : (emit bs s).opos = s.opos + bs.length := rfl
@[simp] theorem emit_phase (bs : List Byte) (s : State) : (emit bs s).phase = s.phase := rfl
@[simp] theorem emit_err (bs : List Byte) (s : State) : (emit bs s).err = s.err := rfl
@[simp] theorem emit_sub (bs : List Byte) (s : State) : (emit bs s).sub = s.sub := rfl
@[simp] theorem emit_errpos (bs : List Byte) (s : State) : (emit bs s).errpos = s.errpos := rfl
@[simp] theorem emit_warnTrailing (bs : List Byte) (s : State) : (emit bs s).warnTrailing = s.warnTrailing := rfl
@[simp] theorem emit_outvalid (bs : List Byte) (s : State) : (emit bs s).outvalid = s.outvalid := rfl
@[simp] theorem emit_outLen (bs : List Byte) (s : State) : (emit bs s).outLen = s.outLen := rfl
@[simp] theorem emit_stream (bs : List Byte) (s : State) : (emit bs s).stream = s.stream.writeBytes s.opos bs := rfl
@[simp] theorem emit_pixbuf (bs : List Byte) (s : State) : (emit bs s).pixbuf = s.pixbuf := rfl
@[simp] theorem emit_cmd (bs : List Byte) (s : State) : (emit bs s).cmd = s.cmd := rfl
@[simp] theorem emit_fresh (bs : List Byte) (s : State) : (emit bs s).fresh = s.fresh := rfl

/-! ### raise -/

@[simp] theorem raise_magic (c : Cause) (pos : Nat) (s : State) : (raise c pos s).magic = s.magic := rfl
@[simp] theorem raise_op (c : Cause) (pos : Nat) (s : State) : (raise c pos s).op = s.op := rfl
@[simp] theorem raise_width (c : Cause) (pos : Nat) (s : State) : (raise c pos s).width = s.width := rfl
@[simp] theorem raise_height (c : Cause) (pos : Nat) (s : State) : (raise c pos s).height = s.height := rfl
@[simp] theorem raise_channels (c : Cause) (pos : Nat) (s : State) : (raise c pos s).channels = s.channels := rfl
@[simp] theorem raise_colorspace (c : Cause) (pos : Nat) (s : State) : (raise c pos s).colorspace = s.colorspace := rfl
@[simp] theorem raise_reqch (c : Cause) (pos : Nat) (s : State) : (raise c pos s).reqch = s.reqch := rfl
@[simp] theorem raise_inLen (c : Cause) (pos : Nat) (s : State) : (raise c pos s).inLen = s.inLen := rfl
@[simp] theorem raise_prev (c : Cause) (pos : Nat) (s : State) : (raise c pos s).prev = s.prev := rfl
@[simp] theorem raise_cur (c : Cause) (pos : Nat) (s : State) : (raise c pos s).cur = Config.freePixel s.fresh := rfl
@[simp] theorem raise_cache (c : Cause) (pos : Nat) (s : State) : (raise c pos s).cache = s.cache := rfl
@[simp] theorem raise_run (c : Cause) (pos : Nat) (s : State) : (raise c pos s).run = (Config.freeRun s.fresh).val := rfl
@[simp] theorem raise_pxcount (c : Cause) (pos : Nat) (s : State) : (raise c pos s).pxcount = Config.freeNat (s.fresh + 1) := rfl
@[simp] theorem raise_pxi (c : Cause) (pos : Nat) (s : State) : (raise c pos s).pxi = s.pxi := rfl
@[simp] theorem raise_ipos (c : Cause) (pos : Nat) (s : State) : (raise c pos s).ipos = Config.freeNat (s.fresh + 2) := rfl
@[simp] theorem raise_opos (c : Cause) (pos : Nat) (s : State) : (raise c pos s).opos = Config.freeNat (s.fresh + 3) := rfl
@[simp] theorem raise_phase (c : Cause) (pos : Nat) (s : State) : (raise c pos s).phase = .error := rfl
@[simp] theorem raise_err (c : Cause) (pos : Nat) (s : State) : (raise c pos s).err = c.err := rfl
@[simp] theorem raise_sub (c : Cause) (pos : Nat) (s : State) : (raise c pos s).sub = c.sub := rfl
@[simp] theorem raise_errpos (c : Cause) (pos : Nat) (s : State) : (raise c pos s).errpos = pos := rfl
@[simp] theorem raise_warnTrailing (c : Cause) (pos : Nat) (s : State) : (raise c pos s).warnTrailing = false := rfl
@[simp] theorem raise_outvalid (c : Cause) (pos : Nat) (s : State) : (raise c pos s).outvalid = c.surfaces := rfl
@[simp] theorem raise_outLen (c : Cause) (pos : Nat) (s : State) : (raise c pos s).outLen = if c.surfaces then decodedLen s else Config.freeNat s.fresh := rfl
@[simp] theorem raise_stream (c : Cause) (pos : Nat) (s : State) : (raise c pos s).stream = s.stream := rfl
@[simp] theorem raise_pixbuf (c : Cause) (pos : Nat) (s : State) : (raise c pos s).pixbuf = s.pixbuf := rfl
@[simp] theorem raise_cmd (c : Cause) (pos : Nat) (s : State) : (raise c pos s).cmd = s.cmd := rfl
@[simp] theorem raise_fresh (c : Cause) (pos : Nat) (s : State) : (raise c pos s).fresh = s.fresh + 4 := rfl

/-! ### finish -/

@[simp] theorem finish_magic (len : Nat) (warn : Bool) (s : State) : (finish len warn s).magic = s.magic := rfl
@[simp] theorem finish_op (len : Nat) (warn : Bool) (s : State) : (finish len warn s).op = s.op := rfl
@[simp] theorem finish_width (len : Nat) (warn : Bool) (s : State) : (finish len warn s).width = s.width := rfl
@[simp] theorem finish_height (len : Nat) (warn : Bool) (s : State) : (finish len warn s).height = s.height := rfl
@[simp] theorem finish_channels (len : Nat) (warn : Bool) (s : State) : (finish len warn s).channels = s.channels := rfl
@[simp] theorem finish_colorspace (len : Nat) (warn : Bool) (s : State) : (finish len warn s).colorspace = s.colorspace := rfl
@[simp] theorem finish_reqch (len : Nat) (warn : Bool) (s : State) : (finish len warn s).reqch = s.reqch := rfl
@[simp] theorem finish_inLen (len : Nat) (warn : Bool) (s : State) : (finish len warn s).inLen = s.inLen := rfl
@[simp] theorem finish_prev (len : Nat) (warn : Bool) (s : State) : (finish len warn s).prev = s.prev := rfl
@[simp] theorem finish_cur (len : Nat) (warn : Bool) (s : State) : (finish len warn s).cur = Config.freePixel s.fresh := rfl
@[simp] theorem finish_cache (len : Nat) (warn : Bool) (s : State) : (finish len warn s).cache = s.cache := rfl
@[simp] theorem finish_run (len : Nat) (warn : Bool) (s : State) : (finish len warn s).run = s.run := rfl
@[simp] theorem finish_pxcount (len : Nat) (warn : Bool) (s : State) : (finish len warn s).pxcount = s.pxcount := rfl
@[simp] theorem finish_pxi (len : Nat) (warn : Bool) (s : State) : (finish len warn s).pxi = s.pxi := rfl
@[simp] theorem finish_ipos (len : Nat) (warn : Bool) (s : State) : (finish len warn s).ipos = s.ipos := rfl
@[simp] theorem finish_opos (len : Nat) (warn : Bool) (s : State) : (finish len warn s).opos = s.opos := rfl
@[simp] theorem finish_phase (len : Nat) (warn : Bool) (s : State) : (finish len warn s).phase = .done := rfl
@[simp] theorem finish_err (len : Nat) (warn : Bool) (s : State) : (finish len warn s).err = 0 := rfl
@[simp] theorem finish_sub (len : Nat) (warn : Bool) (s : State) : (finish len warn s).sub = 0 := rfl
@[simp] theorem finish_errpos (len : Nat) (warn : Bool) (s : State) : (finish len warn s).errpos = Config.freeNat s.fresh := rfl
@[simp] theorem finish_warnTrailing (len : Nat) (warn : Bool) (s : State) : (finish len warn s).warnTrailing = warn := rfl
@[simp] theorem finish_outvalid (len : Nat) (warn : Bool) (s : State) : (finish len warn s).outvalid = true := rfl
@[simp] theorem finish_outLen (len : Nat) (warn : Bool) (s : State) : (finish len warn s).outLen = len := rfl
@[simp] theorem finish_stream (len : Nat) (warn : Bool) (s : State) : (finish len warn s).stream = s.stream := rfl
@[simp] theorem finish_pixbuf (len : Nat) (warn : Bool) (s : State) : (finish len warn s).pixbuf = s.pixbuf := rfl
@[simp] theorem finish_cmd (len : Nat) (warn : Bool) (s : State) : (finish len warn s).cmd = s.cmd := rfl
@[simp] theorem finish_fresh (len : Nat) (warn : Bool) (s : State) : (finish len warn s).fresh = s.fresh + 1 := rfl

/-! ### initOperation -/

@[simp] theorem initOperation_magic (s : State) : (initOperation s).magic = s.magic := rfl
@[simp] theorem initOperation_op (s : State) : (initOperation s).op = s.op := rfl
@[simp] theorem initOperation_width (s : State) : (initOperation s).width = s.width := rfl
@[simp] theorem initOperation_height (s : State) : (initOperation s).height = s.height := rfl
@[simp] theorem initOperation_channels (s : State) : (initOperation s).channels = s.channels := rfl
@[simp] theorem initOperation_colorspace (s : State) : (initOperation s).colorspace = s.colorspace := rfl
@[simp] theorem initOperation_reqch (s : State) : (initOperation s).reqch = s.reqch := rfl
@[simp] theorem initOperation_inLen (s : State) : (initOperation s).inLen = s.inLen := rfl
@[simp] theorem initOperation_prev (s : State) : (initOperation s).prev = Pixel.zero := rfl
@[simp] theorem initOperation_cur (s : State) : (initOperation s).cur = Config.freePixel s.fresh := rfl
@[simp] theorem initOperation_cache (s : State) : (initOperation s).cache = Vector.replicate 64 Pixel.zero := rfl
@[simp] theorem initOperation_run (s : State) : (initOperation s).run = 0 := rfl
@[simp] theorem initOperation_pxcount (s : State) : (initOperation s).pxcount = Config.freeNat s.fresh := rfl
@[simp] theorem initOperation_pxi (s : State) : (initOperation s).pxi = 0 := rfl
@[simp] theorem initOperation_ipos (s : State) : (initOperation s).ipos = 0 := rfl
@[simp] theorem initOperation_opos (s : State) : (initOperation s).opos = 0 := rfl
@[simp] theorem initOperation_phase (s : State) : (initOperation s).phase = .header := rfl
@[simp] theorem initOperation_err (s : State) : (initOperation s).err = 0 := rfl
@[simp] theorem initOperation_sub (s : State) : (initOperation s).sub = 0 := rfl
@[simp] theorem initOperation_errpos (s : State) : (initOperation s).errpos = Config.freeNat (s.fresh + 1) := rfl
@[simp] theorem initOperation_warnTrailing (s : State) : (initOperation s).warnTrailing = false := rfl
@[simp] theorem initOperation_outvalid (s : State) : (initOperation s).outvalid = false := rfl
@[simp] theorem initOperation_outLen (s : State) : (initOperation s).outLen = Config.freeNat (s.fresh + 2) := rfl
@[simp] theorem initOperation_stream (s : State) : (initOperation s).stream = s.stream := rfl
@[simp] theorem initOperation_pixbuf (s : State) : (initOperation s).pixbuf = s.pixbuf := rfl
@[simp] theorem initOperation_cmd (s : State) : (initOperation s).cmd = none := rfl
@[simp] theorem initOperation_fresh (s : State) : (initOperation s).fresh = s.fresh + 3 := rfl

/-! ### clearHeaderRegisters -/

@[simp] theorem clearHeaderRegisters_magic (s : State) : (clearHeaderRegisters s).magic = s.magic := rfl
@[simp] theorem clearHeaderRegisters_op (s : State) : (clearHeaderRegisters s).op = s.op := rfl
@[simp] theorem clearHeaderRegisters_width (s : State) : (clearHeaderRegisters s).width = Config.freeWord s.fresh := rfl
@[simp] theorem clearHeaderRegisters_height (s : State) : (clearHeaderRegisters s).height = Config.freeWord (s.fresh + 1) := rfl
@[simp] theorem clearHeaderRegisters_channels (s : State) : (clearHeaderRegisters s).channels = Config.freeByte s.fresh := rfl
@[simp] theorem clearHeaderRegisters_colorspace (s : State) : (clearHeaderRegisters s).colorspace = Config.freeByte (s.fresh + 1) := rfl
@[simp] theorem clearHeaderRegisters_reqch (s : State) : (clearHeaderRegisters s).reqch = s.reqch := rfl
@[simp] theorem clearHeaderRegisters_inLen (s : State) : (clearHeaderRegisters s).inLen = s.inLen := rfl
@[simp] theorem clearHeaderRegisters_prev (s : State) : (clearHeaderRegisters s).prev = s.prev := rfl
@[simp] theorem clearHeaderRegisters_cur (s : State) : (clearHeaderRegisters s).cur = s.cur := rfl
@[simp] theorem clearHeaderRegisters_cache (s : State) : (clearHeaderRegisters s).cache = s.cache := rfl
@[simp] theorem clearHeaderRegisters_run (s : State) : (clearHeaderRegisters s).run = s.run := rfl
@[simp] theorem clearHeaderRegisters_pxcount (s : State) : (clearHeaderRegisters s).pxcount = s.pxcount := rfl
@[simp] theorem clearHeaderRegisters_pxi (s : State) : (clearHeaderRegisters s).pxi = s.pxi := rfl
@[simp] theorem clearHeaderRegisters_ipos (s : State) : (clearHeaderRegisters s).ipos = s.ipos := rfl
@[simp] theorem clearHeaderRegisters_opos (s : State) : (clearHeaderRegisters s).opos = s.opos := rfl
@[simp] theorem clearHeaderRegisters_phase (s : State) : (clearHeaderRegisters s).phase = s.phase := rfl
@[simp] theorem clearHeaderRegisters_err (s : State) : (clearHeaderRegisters s).err = s.err := rfl
@[simp] theorem clearHeaderRegisters_sub (s : State) : (clearHeaderRegisters s).sub = s.sub := rfl
@[simp] theorem clearHeaderRegisters_errpos (s : State) : (clearHeaderRegisters s).errpos = s.errpos := rfl
@[simp] theorem clearHeaderRegisters_warnTrailing (s : State) : (clearHeaderRegisters s).warnTrailing = s.warnTrailing := rfl
@[simp] theorem clearHeaderRegisters_outvalid (s : State) : (clearHeaderRegisters s).outvalid = s.outvalid := rfl
@[simp] theorem clearHeaderRegisters_outLen (s : State) : (clearHeaderRegisters s).outLen = s.outLen := rfl
@[simp] theorem clearHeaderRegisters_stream (s : State) : (clearHeaderRegisters s).stream = s.stream := rfl
@[simp] theorem clearHeaderRegisters_pixbuf (s : State) : (clearHeaderRegisters s).pixbuf = s.pixbuf := rfl
@[simp] theorem clearHeaderRegisters_cmd (s : State) : (clearHeaderRegisters s).cmd = s.cmd := rfl
@[simp] theorem clearHeaderRegisters_fresh (s : State) : (clearHeaderRegisters s).fresh = s.fresh + 2 := rfl

/-! ### closeChunks -/

@[simp] theorem closeChunks_magic (s : State) : (closeChunks s).magic = s.magic := rfl
@[simp] theorem closeChunks_op (s : State) : (closeChunks s).op = s.op := rfl
@[simp] theorem closeChunks_width (s : State) : (closeChunks s).width = s.width := rfl
@[simp] theorem closeChunks_height (s : State) : (closeChunks s).height = s.height := rfl
@[simp] theorem closeChunks_channels (s : State) : (closeChunks s).channels = s.channels := rfl
@[simp] theorem closeChunks_colorspace (s : State) : (closeChunks s).colorspace = s.colorspace := rfl
@[simp] theorem closeChunks_reqch (s : State) : (closeChunks s).reqch = s.reqch := rfl
@[simp] theorem closeChunks_inLen (s : State) : (closeChunks s).inLen = s.inLen := rfl
@[simp] theorem closeChunks_prev (s : State) : (closeChunks s).prev = s.prev := rfl
@[simp] theorem closeChunks_cur (s : State) : (closeChunks s).cur = s.cur := rfl
@[simp] theorem closeChunks_cache (s : State) : (closeChunks s).cache = s.cache := rfl
@[simp] theorem closeChunks_run (s : State) : (closeChunks s).run = s.run := rfl
@[simp] theorem closeChunks_pxcount (s : State) : (closeChunks s).pxcount = s.pxcount := rfl
@[simp] theorem closeChunks_pxi (s : State) : (closeChunks s).pxi = s.pxi := rfl
@[simp] theorem closeChunks_ipos (s : State) : (closeChunks s).ipos = s.ipos := rfl
@[simp] theorem closeChunks_opos (s : State) : (closeChunks s).opos = s.opos := rfl
@[simp] theorem closeChunks_phase (s : State) :
    (closeChunks s).phase = if s.pxi < s.pxcount then s.phase else .endMarker := rfl
@[simp] theorem closeChunks_err (s : State) : (closeChunks s).err = s.err := rfl
@[simp] theorem closeChunks_sub (s : State) : (closeChunks s).sub = s.sub := rfl
@[simp] theorem closeChunks_errpos (s : State) : (closeChunks s).errpos = s.errpos := rfl
@[simp] theorem closeChunks_warnTrailing (s : State) : (closeChunks s).warnTrailing = s.warnTrailing := rfl
@[simp] theorem closeChunks_outvalid (s : State) : (closeChunks s).outvalid = s.outvalid := rfl
@[simp] theorem closeChunks_outLen (s : State) : (closeChunks s).outLen = s.outLen := rfl
@[simp] theorem closeChunks_stream (s : State) : (closeChunks s).stream = s.stream := rfl
@[simp] theorem closeChunks_pixbuf (s : State) : (closeChunks s).pixbuf = s.pixbuf := rfl
@[simp] theorem closeChunks_cmd (s : State) : (closeChunks s).cmd = s.cmd := rfl
@[simp] theorem closeChunks_fresh (s : State) : (closeChunks s).fresh = s.fresh := rfl

/-! ### nextChunk -/

@[simp] theorem nextChunk_magic (len : Nat) (s : State) : (nextChunk len s).magic = s.magic := by
  dsimp only [nextChunk, closeChunks]
@[simp] theorem nextChunk_op (len : Nat) (s : State) : (nextChunk len s).op = s.op := by
  dsimp only [nextChunk, closeChunks]
@[simp] theorem nextChunk_width (len : Nat) (s : State) : (nextChunk len s).width = s.width := by
  dsimp only [nextChunk, closeChunks]
@[simp] theorem nextChunk_height (len : Nat) (s : State) : (nextChunk len s).height = s.height := by
  dsimp only [nextChunk, closeChunks]
@[simp] theorem nextChunk_channels (len : Nat) (s : State) : (nextChunk len s).channels = s.channels := by
  dsimp only [nextChunk, closeChunks]
@[simp] theorem nextChunk_colorspace (len : Nat) (s : State) : (nextChunk len s).colorspace = s.colorspace := by
  dsimp only [nextChunk, closeChunks]
@[simp] theorem nextChunk_reqch (len : Nat) (s : State) : (nextChunk len s).reqch = s.reqch := by
  dsimp only [nextChunk, closeChunks]
@[simp] theorem nextChunk_inLen (len : Nat) (s : State) : (nextChunk len s).inLen = s.inLen := by
  dsimp only [nextChunk, closeChunks]
@[simp] theorem nextChunk_prev (len : Nat) (s : State) : (nextChunk len s).prev = s.prev := by
  dsimp only [nextChunk, closeChunks]
@[simp] theorem nextChunk_cur (len : Nat) (s : State) : (nextChunk len s).cur = s.cur := by
  dsimp only [nextChunk, closeChunks]
@[simp] theorem nextChunk_cache (len : Nat) (s : State) : (nextChunk len s).cache = s.cache := by
  dsimp only [nextChunk, closeChunks]
@[simp] theorem nextChunk_run (len : Nat) (s : State) : (nextChunk len s).run = s.run := by
  dsimp only [nextChunk, closeChunks]
@[simp] theorem nextChunk_pxcount (len : Nat) (s : State) : (nextChunk len s).pxcount = s.pxcount := by
  dsimp only [nextChunk, closeChunks]
@[simp] theorem nextChunk_pxi (len : Nat) (s : State) : (nextChunk len s).pxi = s.pxi := by
  dsimp only [nextChunk, closeChunks]
@[simp] theorem nextChunk_ipos (len : Nat) (s : State) : (nextChunk len s).ipos = s.ipos + len := by
  dsimp only [nextChunk, closeChunks]
@[simp] theorem nextChunk_opos (len : Nat) (s : State) : (nextChunk len s).opos = s.opos := by
  dsimp only [nextChunk, closeChunks]
@[simp] theorem nextChunk_phase (len : Nat) (s : State) :
    (nextChunk len s).phase = if s.pxi < s.pxcount then s.phase else .endMarker := by
  dsimp only [nextChunk, closeChunks]
@[simp] theorem nextChunk_err (len : Nat) (s : State) : (nextChunk len s).err = s.err := by
  dsimp only [nextChunk, closeChunks]
@[simp] theorem nextChunk_sub (len : Nat) (s : State) : (nextChunk len s).sub = s.sub := by
  dsimp only [nextChunk, closeChunks]
@[simp] theorem nextChunk_errpos (len : Nat) (s : State) : (nextChunk len s).errpos = s.errpos := by
  dsimp only [nextChunk, closeChunks]
@[simp] theorem nextChunk_warnTrailing (len : Nat) (s : State) : (nextChunk len s).warnTrailing = s.warnTrailing := by
  dsimp only [nextChunk, closeChunks]
@[simp] theorem nextChunk_outvalid (len : Nat) (s : State) : (nextChunk len s).outvalid = s.outvalid := by
  dsimp only [nextChunk, closeChunks]
@[simp] theorem nextChunk_outLen (len : Nat) (s : State) : (nextChunk len s).outLen = s.outLen := by
  dsimp only [nextChunk, closeChunks]
@[simp] theorem nextChunk_stream (len : Nat) (s : State) : (nextChunk len s).stream = s.stream := by
  dsimp only [nextChunk, closeChunks]
@[simp] theorem nextChunk_pixbuf (len : Nat) (s : State) : (nextChunk len s).pixbuf = s.pixbuf := by
  dsimp only [nextChunk, closeChunks]
@[simp] theorem nextChunk_cmd (len : Nat) (s : State) : (nextChunk len s).cmd = s.cmd := by
  dsimp only [nextChunk, closeChunks]
@[simp] theorem nextChunk_fresh (len : Nat) (s : State) : (nextChunk len s).fresh = s.fresh := by
  dsimp only [nextChunk, closeChunks]

/-! ### repeatPrev -/

/-- Everything `repeatPrev` leaves: only CUR, CACHE, PXI and PIXBUF change, PXI by the number of commits. -/
theorem repeatPrev_form (n : Nat) (s : State) : ∃ (p : Pixel) (slots : Cache) (m : Memory),
    repeatPrev n s = { s with cur := p, cache := slots, pixbuf := m, pxi := s.pxi + n } := by
  induction n generalizing s with
  | zero => exact ⟨_, _, _, rfl⟩
  | succ n ih =>
    obtain ⟨p, slots, m, h⟩ := ih (resolve s.prev s)
    refine ⟨p, slots, m, ?_⟩
    rw [repeatPrev, h, Nat.add_comm n 1, ← Nat.add_assoc]
    rfl

@[simp] theorem repeatPrev_magic (n : Nat) (s : State) : (repeatPrev n s).magic = s.magic := by
  obtain ⟨_, _, _, h⟩ := repeatPrev_form n s
  rw [h]
@[simp] theorem repeatPrev_op (n : Nat) (s : State) : (repeatPrev n s).op = s.op := by
  obtain ⟨_, _, _, h⟩ := repeatPrev_form n s
  rw [h]
@[simp] theorem repeatPrev_width (n : Nat) (s : State) : (repeatPrev n s).width = s.width := by
  obtain ⟨_, _, _, h⟩ := repeatPrev_form n s
  rw [h]
@[simp] theorem repeatPrev_height (n : Nat) (s : State) : (repeatPrev n s).height = s.height := by
  obtain ⟨_, _, _, h⟩ := repeatPrev_form n s
  rw [h]
@[simp] theorem repeatPrev_channels (n : Nat) (s : State) : (repeatPrev n s).channels = s.channels := by
  obtain ⟨_, _, _, h⟩ := repeatPrev_form n s
  rw [h]
@[simp] theorem repeatPrev_colorspace (n : Nat) (s : State) : (repeatPrev n s).colorspace = s.colorspace := by
  obtain ⟨_, _, _, h⟩ := repeatPrev_form n s
  rw [h]
@[simp] theorem repeatPrev_reqch (n : Nat) (s : State) : (repeatPrev n s).reqch = s.reqch := by
  obtain ⟨_, _, _, h⟩ := repeatPrev_form n s
  rw [h]
@[simp] theorem repeatPrev_inLen (n : Nat) (s : State) : (repeatPrev n s).inLen = s.inLen := by
  obtain ⟨_, _, _, h⟩ := repeatPrev_form n s
  rw [h]
@[simp] theorem repeatPrev_prev (n : Nat) (s : State) : (repeatPrev n s).prev = s.prev := by
  obtain ⟨_, _, _, h⟩ := repeatPrev_form n s
  rw [h]
@[simp] theorem repeatPrev_run (n : Nat) (s : State) : (repeatPrev n s).run = s.run := by
  obtain ⟨_, _, _, h⟩ := repeatPrev_form n s
  rw [h]
@[simp] theorem repeatPrev_pxcount (n : Nat) (s : State) : (repeatPrev n s).pxcount = s.pxcount := by
  obtain ⟨_, _, _, h⟩ := repeatPrev_form n s
  rw [h]
@[simp] theorem repeatPrev_pxi (n : Nat) (s : State) : (repeatPrev n s).pxi = s.pxi + n := by
  obtain ⟨_, _, _, h⟩ := repeatPrev_form n s
  rw [h]
@[simp] theorem repeatPrev_ipos (n : Nat) (s : State) : (repeatPrev n s).ipos = s.ipos := by
  obtain ⟨_, _, _, h⟩ := repeatPrev_form n s
  rw [h]
@[simp] theorem repeatPrev_opos (n : Nat) (s : State) : (repeatPrev n s).opos = s.opos := by
  obtain ⟨_, _, _, h⟩ := repeatPrev_form n s
  rw [h]
@[simp] theorem repeatPrev_phase (n : Nat) (s : State) : (repeatPrev n s).phase = s.phase := by
  obtain ⟨_, _, _, h⟩ := repeatPrev_form n s
  rw [h]
@[simp] theorem repeatPrev_err (n : Nat) (s : State) : (repeatPrev n s).err = s.err := by
  obtain ⟨_, _, _, h⟩ := repeatPrev_form n s
  rw [h]
@[simp] theorem repeatPrev_sub (n : Nat) (s : State) : (repeatPrev n s).sub = s.sub := by
  obtain ⟨_, _, _, h⟩ := repeatPrev_form n s
  rw [h]
@[simp] theorem repeatPrev_errpos (n : Nat) (s : State) : (repeatPrev n s).errpos = s.errpos := by
  obtain ⟨_, _, _, h⟩ := repeatPrev_form n s
  rw [h]
@[simp] theorem repeatPrev_warnTrailing (n : Nat) (s : State) : (repeatPrev n s).warnTrailing = s.warnTrailing := by
  obtain ⟨_, _, _, h⟩ := repeatPrev_form n s
  rw [h]
@[simp] theorem repeatPrev_outvalid (n : Nat) (s : State) : (repeatPrev n s).outvalid = s.outvalid := by
  obtain ⟨_, _, _, h⟩ := repeatPrev_form n s
  rw [h]
@[simp] theorem repeatPrev_outLen (n : Nat) (s : State) : (repeatPrev n s).outLen = s.outLen := by
  obtain ⟨_, _, _, h⟩ := repeatPrev_form n s
  rw [h]
@[simp] theorem repeatPrev_stream (n : Nat) (s : State) : (repeatPrev n s).stream = s.stream := by
  obtain ⟨_, _, _, h⟩ := repeatPrev_form n s
  rw [h]
@[simp] theorem repeatPrev_cmd (n : Nat) (s : State) : (repeatPrev n s).cmd = s.cmd := by
  obtain ⟨_, _, _, h⟩ := repeatPrev_form n s
  rw [h]
@[simp] theorem repeatPrev_fresh (n : Nat) (s : State) : (repeatPrev n s).fresh = s.fresh := by
  obtain ⟨_, _, _, h⟩ := repeatPrev_form n s
  rw [h]

/-! ### takeHeader -/

@[simp] theorem takeHeader_magic (w h : Word32) (c cs : Byte) (s : State) : (takeHeader w h c cs s).magic = s.magic := rfl
@[simp] theorem takeHeader_op (w h : Word32) (c cs : Byte) (s : State) : (takeHeader w h c cs s).op = s.op := rfl
@[simp] theorem takeHeader_width (w h : Word32) (c cs : Byte) (s : State) : (takeHeader w h c cs s).width = w := rfl
@[simp] theorem takeHeader_height (w h : Word32) (c cs : Byte) (s : State) : (takeHeader w h c cs s).height = h := rfl
@[simp] theorem takeHeader_channels (w h : Word32) (c cs : Byte) (s : State) : (takeHeader w h c cs s).channels = c := rfl
@[simp] theorem takeHeader_colorspace (w h : Word32) (c cs : Byte) (s : State) : (takeHeader w h c cs s).colorspace = cs := rfl
@[simp] theorem takeHeader_reqch (w h : Word32) (c cs : Byte) (s : State) : (takeHeader w h c cs s).reqch = s.reqch := rfl
@[simp] theorem takeHeader_inLen (w h : Word32) (c cs : Byte) (s : State) : (takeHeader w h c cs s).inLen = s.inLen := rfl
@[simp] theorem takeHeader_prev (w h : Word32) (c cs : Byte) (s : State) : (takeHeader w h c cs s).prev = s.prev := rfl
@[simp] theorem takeHeader_cur (w h : Word32) (c cs : Byte) (s : State) : (takeHeader w h c cs s).cur = s.cur := rfl
@[simp] theorem takeHeader_cache (w h : Word32) (c cs : Byte) (s : State) : (takeHeader w h c cs s).cache = s.cache := rfl
@[simp] theorem takeHeader_run (w h : Word32) (c cs : Byte) (s : State) : (takeHeader w h c cs s).run = s.run := rfl
@[simp] theorem takeHeader_pxcount (w h : Word32) (c cs : Byte) (s : State) : (takeHeader w h c cs s).pxcount = s.pxcount := rfl
@[simp] theorem takeHeader_pxi (w h : Word32) (c cs : Byte) (s : State) : (takeHeader w h c cs s).pxi = s.pxi := rfl
@[simp] theorem takeHeader_ipos (w h : Word32) (c cs : Byte) (s : State) : (takeHeader w h c cs s).ipos = 14 := rfl
@[simp] theorem takeHeader_opos (w h : Word32) (c cs : Byte) (s : State) : (takeHeader w h c cs s).opos = s.opos := rfl
@[simp] theorem takeHeader_phase (w h : Word32) (c cs : Byte) (s : State) : (takeHeader w h c cs s).phase = s.phase := rfl
@[simp] theorem takeHeader_err (w h : Word32) (c cs : Byte) (s : State) : (takeHeader w h c cs s).err = s.err := rfl
@[simp] theorem takeHeader_sub (w h : Word32) (c cs : Byte) (s : State) : (takeHeader w h c cs s).sub = s.sub := rfl
@[simp] theorem takeHeader_errpos (w h : Word32) (c cs : Byte) (s : State) : (takeHeader w h c cs s).errpos = s.errpos := rfl
@[simp] theorem takeHeader_warnTrailing (w h : Word32) (c cs : Byte) (s : State) : (takeHeader w h c cs s).warnTrailing = s.warnTrailing := rfl
@[simp] theorem takeHeader_outvalid (w h : Word32) (c cs : Byte) (s : State) : (takeHeader w h c cs s).outvalid = s.outvalid := rfl
@[simp] theorem takeHeader_outLen (w h : Word32) (c cs : Byte) (s : State) : (takeHeader w h c cs s).outLen = s.outLen := rfl
@[simp] theorem takeHeader_stream (w h : Word32) (c cs : Byte) (s : State) : (takeHeader w h c cs s).stream = s.stream := rfl
@[simp] theorem takeHeader_pixbuf (w h : Word32) (c cs : Byte) (s : State) : (takeHeader w h c cs s).pixbuf = s.pixbuf := rfl
@[simp] theorem takeHeader_cmd (w h : Word32) (c cs : Byte) (s : State) : (takeHeader w h c cs s).cmd = s.cmd := rfl
@[simp] theorem takeHeader_fresh (w h : Word32) (c cs : Byte) (s : State) : (takeHeader w h c cs s).fresh = s.fresh := rfl

/-! ### endPixel -/

@[simp] theorem endPixel_magic (s : State) : (endPixel s).magic = s.magic := by
  dsimp only [endPixel, closeChunks, commitEncode, advance, update]
@[simp] theorem endPixel_op (s : State) : (endPixel s).op = s.op := by
  dsimp only [endPixel, closeChunks, commitEncode, advance, update]
@[simp] theorem endPixel_width (s : State) : (endPixel s).width = s.width := by
  dsimp only [endPixel, closeChunks, commitEncode, advance, update]
@[simp] theorem endPixel_height (s : State) : (endPixel s).height = s.height := by
  dsimp only [endPixel, closeChunks, commitEncode, advance, update]
@[simp] theorem endPixel_channels (s : State) : (endPixel s).channels = s.channels := by
  dsimp only [endPixel, closeChunks, commitEncode, advance, update]
@[simp] theorem endPixel_colorspace (s : State) : (endPixel s).colorspace = s.colorspace := by
  dsimp only [endPixel, closeChunks, commitEncode, advance, update]
@[simp] theorem endPixel_reqch (s : State) : (endPixel s).reqch = s.reqch := by
  dsimp only [endPixel, closeChunks, commitEncode, advance, update]
@[simp] theorem endPixel_inLen (s : State) : (endPixel s).inLen = s.inLen := by
  dsimp only [endPixel, closeChunks, commitEncode, advance, update]
@[simp] theorem endPixel_prev (s : State) : (endPixel s).prev = s.cur := by
  dsimp only [endPixel, closeChunks, commitEncode, advance, update]
@[simp] theorem endPixel_cur (s : State) : (endPixel s).cur = s.cur := by
  dsimp only [endPixel, closeChunks, commitEncode, advance, update]
@[simp] theorem endPixel_cache (s : State) : (endPixel s).cache = s.cache.set (hash s.cur) s.cur := by
  dsimp only [endPixel, closeChunks, commitEncode, advance, update]
@[simp] theorem endPixel_run (s : State) : (endPixel s).run = s.run := by
  dsimp only [endPixel, closeChunks, commitEncode, advance, update]
@[simp] theorem endPixel_pxcount (s : State) : (endPixel s).pxcount = s.pxcount := by
  dsimp only [endPixel, closeChunks, commitEncode, advance, update]
@[simp] theorem endPixel_pxi (s : State) : (endPixel s).pxi = s.pxi + 1 := by
  dsimp only [endPixel, closeChunks, commitEncode, advance, update]
@[simp] theorem endPixel_ipos (s : State) : (endPixel s).ipos = s.ipos := by
  dsimp only [endPixel, closeChunks, commitEncode, advance, update]
@[simp] theorem endPixel_opos (s : State) : (endPixel s).opos = s.opos := by
  dsimp only [endPixel, closeChunks, commitEncode, advance, update]
@[simp] theorem endPixel_phase (s : State) :
    (endPixel s).phase = if s.pxi + 1 < s.pxcount then s.phase else .endMarker := by
  dsimp only [endPixel, closeChunks, commitEncode, advance, update]
  rfl
@[simp] theorem endPixel_err (s : State) : (endPixel s).err = s.err := by
  dsimp only [endPixel, closeChunks, commitEncode, advance, update]
@[simp] theorem endPixel_sub (s : State) : (endPixel s).sub = s.sub := by
  dsimp only [endPixel, closeChunks, commitEncode, advance, update]
@[simp] theorem endPixel_errpos (s : State) : (endPixel s).errpos = s.errpos := by
  dsimp only [endPixel, closeChunks, commitEncode, advance, update]
@[simp] theorem endPixel_warnTrailing (s : State) : (endPixel s).warnTrailing = s.warnTrailing := by
  dsimp only [endPixel, closeChunks, commitEncode, advance, update]
@[simp] theorem endPixel_outvalid (s : State) : (endPixel s).outvalid = s.outvalid := by
  dsimp only [endPixel, closeChunks, commitEncode, advance, update]
@[simp] theorem endPixel_outLen (s : State) : (endPixel s).outLen = s.outLen := by
  dsimp only [endPixel, closeChunks, commitEncode, advance, update]
@[simp] theorem endPixel_stream (s : State) : (endPixel s).stream = s.stream := by
  dsimp only [endPixel, closeChunks, commitEncode, advance, update]
@[simp] theorem endPixel_pixbuf (s : State) : (endPixel s).pixbuf = s.pixbuf := by
  dsimp only [endPixel, closeChunks, commitEncode, advance, update]
@[simp] theorem endPixel_cmd (s : State) : (endPixel s).cmd = s.cmd := by
  dsimp only [endPixel, closeChunks, commitEncode, advance, update]
@[simp] theorem endPixel_fresh (s : State) : (endPixel s).fresh = s.fresh := by
  dsimp only [endPixel, closeChunks, commitEncode, advance, update]

end Sys2Proof.Machine
end

