-- ==== Sys2Proof/Laws/Ops.lean ====
section
/-! SUPPORT. One lemma for each shared operation that says everything it can do; the proofs about instructions cite these. -/

namespace Sys2Proof.Machine

/-! ### Sequencing -/

@[simp] theorem andThen_next (s : State) (f : State → Result) : andThen (.next s) f = f s := rfl

@[simp] theorem andThen_fault (x : Fault) (f : State → Result) : andThen (.fault x) f = .fault x := rfl

@[simp] theorem andThen_refused (x : Refusal) (f : State → Result) : andThen (.refused x) f = .refused x := rfl

/-- A sequence answers a next state exactly when both parts do. -/
theorem andThen_eq_next_iff (o : Result) (f : State → Result) (t : State) :
    andThen o f = .next t ↔ ∃ s, o = .next s ∧ f s = .next t := by
  cases o <;> simp [andThen]

/-! ### Pixels -/

theorem storedBytes_length (p : Pixel) (s : State) : (storedBytes p s).length = storedWidth s := by
  unfold storedBytes storedWidth
  split
  · rfl
  · split <;> rfl

theorem storeOffset_eq (i : Nat) (s : State) : storeOffset i s = i * storedWidth s := by
  unfold storeOffset storedWidth
  split <;> omega

theorem storedBytes_congr {s t : State} (p : Pixel) (hr : t.reqch = s.reqch) (hc : t.channels = s.channels) :
    storedBytes p t = storedBytes p s := by
  simp [storedBytes, hr, hc]

theorem storedWidth_congr {s t : State} (hr : t.reqch = s.reqch) : storedWidth t = storedWidth s := by
  simp [storedWidth, hr]

theorem storeOffset_congr {s t : State} (i : Nat) (hr : t.reqch = s.reqch) : storeOffset i t = storeOffset i s := by
  simp [storeOffset, hr]

theorem storedWidth_of_legal {s : State} (h : legalChannels s.reqch) : storedWidth s = s.reqch.toNat := by
  rcases h with h | h <;> simp [storedWidth, h]

/-! ### Byte spaces -/

/-- What is written stands where it was written. -/
theorem holdsAt_writeBytes (m : Memory) (a : Nat) (bs : List Byte) : HoldsAt (m.writeBytes a bs) a bs := by
  intro k b hk
  have hlt : k < bs.length := (List.getElem?_eq_some_iff.mp hk).1
  rw [Memory.read_writeBytes, if_pos (by omega), ← hk]
  congr 1
  omega

theorem sameOutside_writeBytes (m : Memory) (a : Nat) (bs : List Byte) :
    SameOutside m (m.writeBytes a bs) a bs.length :=
  fun _ h => Memory.read_writeBytes_outside m h

theorem sameBytes_refl (m : Memory) : SameBytes m m := fun _ => rfl

/-- Bytes that stand in a space are the bytes read. -/
theorem readBytes_of_holdsAt {m : Memory} {a : Nat} {bs : List Byte} (h : HoldsAt m a bs) :
    m.readBytes a bs.length = .bytes bs := by
  refine (Memory.readBytes_eq_bytes_iff _ _ _ _).mpr ⟨rfl, fun k hk => ?_⟩
  rw [List.getElem?_eq_getElem hk]
  exact h k _ (List.getElem?_eq_getElem hk)

theorem holdsAt_of_readBytes {m : Memory} {a n : Nat} {bs : List Byte} (h : m.readBytes a n = .bytes bs) :
    HoldsAt m a bs ∧ bs.length = n := by
  obtain ⟨hl, hr⟩ := (Memory.readBytes_eq_bytes_iff _ _ _ _).mp h
  refine ⟨fun k b hk => ?_, hl⟩
  rw [hr k (by have := (List.getElem?_eq_some_iff.mp hk).1; omega), hk]

theorem holdsAt_append {m : Memory} {a : Nat} {bs cs : List Byte} :
    HoldsAt m a (bs ++ cs) ↔ HoldsAt m a bs ∧ HoldsAt m (a + bs.length) cs := by
  constructor
  · intro h
    refine ⟨fun k b hk => h k b ?_, fun k b hk => ?_⟩
    · rw [List.getElem?_append_left (List.getElem?_eq_some_iff.mp hk).1]
      exact hk
    · have := h (bs.length + k) b (by rw [List.getElem?_append_right (by omega)]; simpa using hk)
      rwa [show a + (bs.length + k) = a + bs.length + k by omega] at this
  · rintro ⟨h1, h2⟩ k b hk
    by_cases hlt : k < bs.length
    · exact h1 k b (by rwa [List.getElem?_append_left hlt] at hk)
    · have := h2 (k - bs.length) b (by rwa [List.getElem?_append_right (by omega)] at hk)
      rwa [show a + bs.length + (k - bs.length) = a + k by omega] at this

theorem filled_nil : Filled [] 0 := by simp [Filled]

/-- Writing right after the last byte lengthens the space. -/
theorem filled_writeBytes {m : Memory} {n : Nat} (bs : List Byte) (h : Filled m n) :
    Filled (m.writeBytes n bs) (n + bs.length) := by
  intro x
  rw [Memory.read_writeBytes]
  split
  · rename_i hx
    simp only [hx.2, iff_true]
    rw [List.getElem?_eq_getElem (by omega)]
    rfl
  · rename_i hx
    rw [h x]
    omega

theorem filled_ofBytes (bs : List Byte) : Filled (Memory.ofBytes bs) bs.length := by
  have := filled_writeBytes bs filled_nil
  rwa [Nat.zero_add] at this

/-- Everything the test of a space's length says. -/
theorem holdsExactly_iff (m : Memory) (n : Nat) : m.holdsExactly n = true ↔ Filled m n := by
  simp only [Memory.holdsExactly, Bool.and_eq_true, List.all_eq_true, decide_eq_true_eq, List.mem_range]
  constructor
  · rintro ⟨h1, h2⟩ a
    refine ⟨fun h => ?_, h2 a⟩
    obtain ⟨b, hb⟩ := Option.isSome_iff_exists.mp h
    exact h1 _ (Memory.mem_of_read hb)
  · exact fun h => ⟨fun cell hc => (h cell.1).mp (Memory.read_isSome_of_mem hc), fun a ha => (h a).mpr ha⟩

/-! ### The input space -/

theorem inputSpace_start {s : State} {c : Command} (hc : s.cmd = some c) : inputSpace s = commandInput c s := by
  rw [inputSpace, hc]

theorem inputSpace_decode {s : State} (hc : s.cmd = none) (ho : s.op = .decode) : inputSpace s = s.stream := by
  rw [inputSpace, hc, ho]

theorem inputSpace_encode {s : State} (hc : s.cmd = none) (ho : s.op = .encode) : inputSpace s = s.pixbuf := by
  rw [inputSpace, hc, ho]

/-! ### The pixel cache -/

/-- Everything `update` does to the cache. -/
theorem cacheUpdated_set (p : Pixel) (slots : Cache) : CacheUpdated p slots (slots.set (hash p) p) := by
  intro i
  by_cases h : i = hash p
  · subst h
    simp
  · have h' : (hash p : Nat) ≠ (i : Nat) := fun e => h (Fin.ext e.symm)
    simp [h, h']

theorem cache_ext {c d : Cache} (h : ∀ i : Index, c.get i = d.get i) : c = d := by
  apply Vector.ext
  intro i hi
  exact h ⟨i, hi⟩

/-- Writing a slot with the pixel it holds changes nothing. -/
theorem cache_set_self {p : Pixel} {slots : Cache} (h : slots[hash p] = p) : slots.set (hash p) p = slots := by
  apply Vector.ext
  intro i hi
  rw [Vector.getElem_set]
  split
  · subst_vars
    exact h.symm
  · rfl

/-- The slot of PREV's hash, read through what PREV and CACHE are. -/
theorem lookup_prev {s : State} {p : Pixel} {slots : Cache} (hp : s.prev = p) (hc : s.cache = slots) :
    lookup (hash s.prev) s = slots[hash p] := by
  subst hp hc
  rfl

/-! ### The decoder's commits -/

/-- `closeChunks` after a chunk: PHASE as R15 has it. -/
theorem closeChunks_phaseAfter {s : State} (h : s.phase = .chunks) :
    (closeChunks s).phase = phaseAfter s.pxi s.pxcount := by
  simp [phaseAfter, h]

/-- A chunk of the decoder that resolves to one pixel answers a next state exactly at a chunk's place. -/
theorem resolveChunk_eq_next_iff (len : Nat) (p : Pixel) (s t : State) :
    resolveChunk len p s = .next t ↔ atChunk s ∧ t = nextChunk len (resolve p s) := by
  unfold resolveChunk
  by_cases h : atChunk s
  · rw [if_pos h]
    exact ⟨fun e => by cases e; exact ⟨h, rfl⟩, fun e => by rw [e.2]⟩
  · rw [if_neg h]
    exact ⟨nofun, fun e => absurd e.1 h⟩

/-- Everything one committed pixel does. -/
theorem pixelCommitted_resolve (len : Nat) (p : Pixel) {s : State} (h : s.phase = .chunks) :
    PixelCommitted p len s (nextChunk len (resolve p s)) where
  cur := by simp
  prev := by simp
  cache := by simpa using cacheUpdated_set p s.cache
  pxi := by simp
  ipos := by simp
  phase := by simp [phaseAfter, h]
  pixels := by simpa using holdsAt_writeBytes s.pixbuf (storeOffset s.pxi s) (storedBytes p s)

/-- What `repeatPrev` does to CACHE: one update by PREV. -/
theorem repeatPrev_cache_succ (n : Nat) (s : State) :
    (repeatPrev (n + 1) s).cache = s.cache.set (hash s.prev) s.prev := by
  induction n generalizing s with
  | zero => simp [repeatPrev]
  | succ n ih =>
    rw [repeatPrev, ih]
    simp

theorem repeatPrev_cur_succ (n : Nat) (s : State) : (repeatPrev (n + 1) s).cur = s.prev := by
  induction n generalizing s with
  | zero => simp [repeatPrev]
  | succ n ih =>
    rw [repeatPrev, ih]
    simp

/-- What `repeatPrev` does to PIXBUF: the same bytes, N times in a row. -/
theorem repeatPrev_pixbuf (n : Nat) (s : State) :
    (repeatPrev n s).pixbuf =
      s.pixbuf.writeBytes (s.pxi * storedWidth s) (List.replicate n (storedBytes s.prev s)).flatten := by
  induction n generalizing s with
  | zero => rfl
  | succ n ih =>
    rw [repeatPrev, ih, List.replicate_succ, List.flatten_cons, Memory.writeBytes_append]
    have hb : storedBytes (resolve s.prev s).prev (resolve s.prev s) = storedBytes s.prev s := by
      rw [resolve_prev]
      exact storedBytes_congr _ (by simp) (by simp)
    have hw : storedWidth (resolve s.prev s) = storedWidth s := storedWidth_congr (by simp)
    rw [hb, hw, resolve_pixbuf, resolve_pxi, storeOffset_eq, storedBytes_length]
    congr 1
    rw [Nat.add_mul, Nat.one_mul]

/-- RUN in a decode: refused out of its place, an overrun raised, or N commits of PREV. -/
theorem repeatChunk_eq_next_iff (n : Nat) (s t : State) :
    repeatChunk n s = .next t ↔ atChunk s ∧
      ((s.pxcount - s.pxi < n ∧ t = raise .runOverrun s.ipos s) ∨
        (n ≤ s.pxcount - s.pxi ∧ t = nextChunk 1 (repeatPrev n s))) := by
  unfold repeatChunk
  by_cases h : atChunk s
  · rw [if_pos h]
    by_cases hn : s.pxcount - s.pxi < n
    · rw [if_pos hn]
      exact ⟨fun e => by cases e; exact ⟨h, .inl ⟨hn, rfl⟩⟩, fun e => by
        rcases e.2 with e | e
        · rw [e.2]
        · omega⟩
    · rw [if_neg hn]
      exact ⟨fun e => by cases e; exact ⟨h, .inr ⟨by omega, rfl⟩⟩, fun e => by
        rcases e.2 with e | e
        · omega
        · rw [e.2]⟩
  · rw [if_neg h]
    exact ⟨nofun, fun e => absurd e.1 h⟩

/-! ### The encoder's emissions -/

/-- A chunk of the encoder answers a next state exactly at a chunk's place. -/
theorem emitChunk_eq_next_iff (i : Instr) (s t : State) :
    emitChunk i s = .next t ↔ atChunk s ∧ t = emit (encode s.magic i) s := by
  unfold emitChunk
  by_cases h : atChunk s
  · rw [if_pos h]
    exact ⟨fun e => by cases e; exact ⟨h, rfl⟩, fun e => by rw [e.2]⟩
  · rw [if_neg h]
    exact ⟨nofun, fun e => absurd e.1 h⟩

theorem flushRun_eq_next_iff (n : Nat) (s t : State) :
    flushRun n s = .next t ↔ atChunk s ∧ t = { emit (encode s.magic (.run n)) s with run := 0 } := by
  unfold flushRun
  rw [andThen_eq_next_iff]
  constructor
  · rintro ⟨u, hu, ht⟩
    obtain ⟨ha, rfl⟩ := (emitChunk_eq_next_iff _ _ _).mp hu
    cases ht
    exact ⟨ha, rfl⟩
  · rintro ⟨ha, rfl⟩
    exact ⟨_, (emitChunk_eq_next_iff _ _ _).mpr ⟨ha, rfl⟩, rfl⟩

theorem encode_length (m : Magic) (i : Instr) : (encode m i).length = i.length := by cases i <;> rfl

/-! ### Errors -/

/-- Everything `raise` does that the spec states. -/
theorem errorTaken_raise (c : Cause) (pos : Nat) (s : State) : ErrorTaken c pos s (raise c pos s) where
  phase := rfl
  err := rfl
  sub := rfl
  errpos := rfl
  warnTrailing := rfl
  outvalid := rfl
  pixelState := ⟨rfl, rfl, rfl⟩
  stream := sameBytes_refl _
  pixbuf := sameBytes_refl _

theorem sameDescriptor_raise (c : Cause) (pos : Nat) (s : State) : SameDescriptor s (raise c pos s) :=
  ⟨rfl, rfl, rfl, rfl, rfl, rfl, rfl, rfl⟩

theorem sameDescriptor_refl (s : State) : SameDescriptor s s := ⟨rfl, rfl, rfl, rfl, rfl, rfl, rfl, rfl⟩

theorem sameStatus_refl (s : State) : SameStatus s s := ⟨rfl, rfl, rfl, rfl, rfl, rfl⟩

end Sys2Proof.Machine
end

