-- ==== Sys2Proof/Laws/Operations.lean ====
section
/-! SUPPORT. The two operations from their launch: the state the host leaves, and steps in a row. -/

namespace Sys2Proof.Machine

/-! ### The moves of the host -/

/-- Everything a move of the host can do when it is taken. -/
theorem hostMove_eq_next_iff (f : State → State) (s t : State) :
    hostMove f s = .next t ↔ betweenOperations s ∧ t = f s := by
  rw [hostMove]
  by_cases hb : betweenOperations s
  · rw [if_pos hb]
    exact ⟨fun h => ⟨hb, (Host.Outcome.next.inj h).symm⟩, fun h => by rw [h.2]⟩
  · rw [if_neg hb]
    exact ⟨nofun, fun h => absurd h.1 hb⟩

/-- Everything a START of the host can do when it is taken. -/
theorem hostStart_eq_next_iff (c : Command) (s t : State) :
    hostStart c s = .next t ↔
      betweenOperations s ∧ Filled (commandInput c s) s.inLen ∧ t = { s with cmd := some c } := by
  rw [← holdsExactly_iff, hostStart]
  by_cases hb : betweenOperations s
  · rw [if_neg (not_not.mpr hb)]
    by_cases hl : (commandInput c s).holdsExactly s.inLen = true
    · rw [if_pos hl]
      exact ⟨fun h => ⟨hb, hl, (Host.Outcome.next.inj h).symm⟩, fun h => by rw [h.2.2]⟩
    · rw [if_neg hl]
      exact ⟨nofun, fun h => absurd h.2.1 hl⟩
  · rw [if_pos hb]
    exact ⟨nofun, fun h => absurd h.1 hb⟩

/-- What the host leaves before a decode. -/
theorem launchDecode_engine (m : Magic) (bs : List Byte) (reqch : Byte) :
    launchDecode bs reqch (engine m) =
      .next { engine m with
        stream := Memory.ofBytes bs, inLen := bs.length, reqch := reqch, cmd := some .startDecode } :=
  (hostStart_eq_next_iff .startDecode { engine m with stream := Memory.ofBytes bs, inLen := bs.length, reqch := reqch } _).mpr
    ⟨⟨rfl, rfl⟩, filled_ofBytes bs, rfl⟩

/-- What the host leaves before an encode. -/
theorem launchEncode_engine (m : Magic) (bs : List Byte) (w h : Word32) (c cs : Byte) :
    launchEncode bs w h c cs (engine m) =
      .next { engine m with
        pixbuf := Memory.ofBytes bs, inLen := bs.length, width := w, height := h, channels := c, colorspace := cs
        cmd := some .startEncode } :=
  (hostStart_eq_next_iff .startEncode { engine m with
    pixbuf := Memory.ofBytes bs, inLen := bs.length, width := w, height := h, channels := c, colorspace := cs } _).mpr
    ⟨⟨rfl, rfl⟩, filled_ofBytes bs, rfl⟩

/-! ### Steps in a row -/

@[simp] theorem stepsFrom_zero (s : State) : stepsFrom 0 s = .next s := rfl

theorem stepsFrom_succ (n : Nat) (s : State) : stepsFrom (n + 1) s = andThen (step s) (stepsFrom n) := rfl

/-- Steps in a row. -/
theorem stepsFrom_add (m n : Nat) (s : State) : stepsFrom (m + n) s = andThen (stepsFrom m s) (stepsFrom n) := by
  induction m generalizing s with
  | zero => rw [Nat.zero_add, stepsFrom_zero, andThen_next]
  | succ m ih =>
    rw [Nat.add_right_comm, stepsFrom_succ, stepsFrom_succ]
    cases step s with
    | next t => rw [andThen_next, andThen_next, ih]
    | fault x => rfl
    | refused x => rfl

end Sys2Proof.Machine
end

