-- ==== Sys2Proof/Laws/PerInstr.lean ====
section
/-! SUPPORT. Statements made once per item: the encoded length of each (spec/30_encoding.md R60, R71). -/

/-- The bytes of an item are as many as its kind has. -/
def Sys2Proof.Laws.EncodedLength.Statement (i : Sys2Proof.Instr) : Prop :=
  ∀ m : Sys2Proof.Magic, (Sys2Proof.encode m i).length = i.length

theorem Sys2Proof.Laws.EncodedLength.rgb (r g b : Sys2Proof.Byte) :
    Sys2Proof.Laws.EncodedLength.Statement (.rgb r g b) := fun _ => rfl

theorem Sys2Proof.Laws.EncodedLength.rgba (r g b a : Sys2Proof.Byte) :
    Sys2Proof.Laws.EncodedLength.Statement (.rgba r g b a) := fun _ => rfl

theorem Sys2Proof.Laws.EncodedLength.index (i : Sys2Proof.Index) :
    Sys2Proof.Laws.EncodedLength.Statement (.index i) := fun _ => rfl

theorem Sys2Proof.Laws.EncodedLength.diff (dr dg db : Int) :
    Sys2Proof.Laws.EncodedLength.Statement (.diff dr dg db) := fun _ => rfl

theorem Sys2Proof.Laws.EncodedLength.luma (dg drdg dbdg : Int) :
    Sys2Proof.Laws.EncodedLength.Statement (.luma dg drdg dbdg) := fun _ => rfl

theorem Sys2Proof.Laws.EncodedLength.run (n : Nat) :
    Sys2Proof.Laws.EncodedLength.Statement (.run n) := fun _ => rfl

theorem Sys2Proof.Laws.EncodedLength.header (w h : Sys2Proof.Word32) (c cs : Sys2Proof.Byte) :
    Sys2Proof.Laws.EncodedLength.Statement (.header w h c cs) := fun _ => rfl

theorem Sys2Proof.Laws.EncodedLength.endMarker : Sys2Proof.Laws.EncodedLength.Statement .endMarker := fun _ => rfl
end

