-- ==== Sys2Proof/Laws/Sequence.lean ====
section
/-! SUPPORT. What fetching can answer, what a pixel step of the encoder comes to, and everything one step can do. -/

namespace Sys2Proof.Machine

/-! ### Fetching -/

/-- Bytes that stand in STREAM are the bytes decoded. -/
theorem fetchBytes_of_holdsAt (p : Place) {base : Nat} {s : State} {bs : List Byte} (h : HoldsAt s.stream base bs) :
    fetchBytes p base bs.length s =
      match decodeAt p s.magic bs with
      | .item i _ => .item i
      | .rejected r => rejection r base s := by
  cases hd : decodeAt p s.magic bs <;> simp [fetchBytes, readBytes_of_holdsAt h, hd]

/-- An item fetched was decoded from bytes that stand in STREAM. -/
theorem fetchBytes_item {p : Place} {base n : Nat} {s : State} {i : Instr} (h : fetchBytes p base n s = .item i) :
    ∃ bs rest, HoldsAt s.stream base bs ∧ bs.length = n ∧ decodeAt p s.magic bs = .item i rest := by
  unfold fetchBytes at h
  split at h
  · cases h
  · rename_i bs hr
    obtain ⟨hb, hl⟩ := holdsAt_of_readBytes hr
    split at h
    · rename_i j rest hd
      cases h
      exact ⟨bs, rest, hb, hl, hd⟩
    · unfold rejection at h
      split at h <;> cases h

/-- The item fetched in the chunk phase is a chunk, and lies below IN_LEN. -/
theorem fetchChunk_item {s : State} {i : Instr} (h : fetchChunk s = .item i) :
    i.place = .atChunk ∧ s.ipos + i.length ≤ s.inLen := by
  unfold fetchChunk at h
  split at h
  · cases h
  · split at h
    · cases h
    · rename_i b0 hr
      split at h
      · cases h
      · rename_i hl
        obtain ⟨bs, rest, hb, hn, hd⟩ := fetchBytes_item h
        cases bs with
        | nil =>
          have := (chunkLen_pos b0).1
          simp only [List.length_nil] at hn
          omega
        | cons b t =>
          have hbb : b = b0 := by
            have := hb 0 b rfl
            rw [Nat.add_zero, hr] at this
            exact (Option.some.inj this).symm
          subst hbb
          obtain ⟨h1, h2⟩ := decodeChunk_spec (show decodeChunk (b :: t) = .item i rest from hd)
          exact ⟨h1, by omega⟩

/-- The item fetched in the header phase is a header, all of it below IN_LEN. -/
theorem fetchHeader_item {s : State} {i : Instr} (h : fetchHeader s = .item i) :
    (∃ w v c cs, i = .header w v c cs) ∧ 14 ≤ s.inLen := by
  obtain ⟨bs, rest, _, hn, hd⟩ := fetchBytes_item h
  obtain ⟨h1, h2⟩ := decodeHeader_spec hd
  rw [headerLen] at hn
  exact ⟨h1, by omega⟩

theorem fetchEnd_item {s : State} {i : Instr} (h : fetchEnd s = .item i) : i = .endMarker := by
  obtain ⟨_, _, _, _, hd⟩ := fetchBytes_item h
  exact decodeEnd_spec hd

/-! ### Items by operation -/

/-- A decode executes a chunk of one pixel by resolving it. -/
theorem exec_onePixel_decode {i : Instr} {s : State} (hi : i.onePixel = true) (ho : s.op = .decode) :
    ∃ p, exec i s = resolveChunk i.length p s := by
  cases i with
  | rgb r g b => exact ⟨rgbPixel r g b s.prev, by simp only [exec, execRgb, ho]; rfl⟩
  | rgba r g b a => exact ⟨⟨r, g, b, a⟩, by simp only [exec, execRgba, ho]; rfl⟩
  | index k => exact ⟨lookup k s, by simp only [exec, execIndex, ho]; rfl⟩
  | diff dr dg db => exact ⟨diffPixel dr dg db s.prev, by simp only [exec, execDiff, ho]; rfl⟩
  | luma dg drdg dbdg => exact ⟨lumaPixel dg drdg dbdg s.prev, by simp only [exec, execLuma, ho]; rfl⟩
  | run n => cases hi
  | header w h c cs => cases hi
  | endMarker => cases hi

/-- An encode executes a chunk of one pixel by emitting it. -/
theorem exec_onePixel_encode {i : Instr} {s : State} (hi : i.onePixel = true) (ho : s.op = .encode) :
    exec i s = emitChunk i s := by
  cases i with
  | rgb r g b => simp only [exec, execRgb, ho]
  | rgba r g b a => simp only [exec, execRgba, ho]
  | index k => simp only [exec, execIndex, ho]
  | diff dr dg db => simp only [exec, execDiff, ho]
  | luma dg drdg dbdg => simp only [exec, execLuma, ho]
  | run n => cases hi
  | header w h c cs => cases hi
  | endMarker => cases hi

/-- What the encoder chooses is a chunk of one pixel. -/
theorem chooseItem_onePixel (cur prev : Pixel) (cache : Cache) : (chooseItem cur prev cache).onePixel = true := by
  unfold chooseItem deltaItem
  dsimp only
  repeat' split
  all_goals rfl

/-! ### The encoder's pixel step -/

/-- Two emissions in a row are one. -/
theorem emit_emit (bs cs : List Byte) (s : State) : emit cs (emit bs s) = emit (bs ++ cs) s := by
  unfold emit
  simp only [Memory.writeBytes_append, List.length_append, Nat.add_assoc]

theorem emit_nil (s : State) : emit [] s = s := rfl

theorem flushRun_of_atChunk {n : Nat} {s : State} (h : atChunk s) :
    flushRun n s = .next { emit (encode s.magic (.run n)) s with run := 0 } :=
  (flushRun_eq_next_iff _ _ _).mpr ⟨h, rfl⟩

/-- An encode executes RUN by emitting it and closing the run. -/
theorem exec_run_encode {n : Nat} {s : State} (ho : s.op = .encode) (h : atChunk s) :
    exec (.run n) s = .next { emit (encode s.magic (.run n)) s with run := 0 } := by
  simp only [exec, execRun, ho]
  exact flushRun_of_atChunk h

theorem emitChunk_of_atChunk {i : Instr} {s : State} (h : atChunk s) :
    emitChunk i s = .next (emit (encode s.magic i) s) :=
  (emitChunk_eq_next_iff _ _ _).mpr ⟨h, rfl⟩

/-- Everything the pixel step does with a pixel p: CUR, the bytes emitted, RUN, then the commit. -/
theorem encodePixel_of_pixel {s : State} {p : Pixel} (ho : s.op = .encode) (h : atChunk s)
    (hp : loadPixel s.pxi s = .pixel p) :
    encodePixel s = .next (endPixel { emit (pixelBytes p s) { s with cur := p } with run := runAfter p s }) := by
  simp only [encodePixel, hp]
  by_cases he : p = s.prev
  · rw [if_pos he]
    by_cases hf : s.run + 1 = 62 ∨ s.pxi + 1 = s.pxcount
    · have h1 : pixelBytes p s = encode s.magic (.run (s.run + 1)) := by rw [pixelBytes, if_pos he, if_pos hf]
      have h2 : runAfter p s = 0 := by rw [runAfter, if_neg fun e => e.2 hf]
      have h3 : extendRun { s with cur := p } =
          .next { emit (encode s.magic (.run (s.run + 1))) { s with cur := p, run := s.run + 1 } with run := 0 } := by
        unfold extendRun
        dsimp only
        rw [if_pos hf]
        exact exec_run_encode ho h
      rw [h1, h2, h3]
      rfl
    · have h1 : pixelBytes p s = [] := by rw [pixelBytes, if_pos he, if_neg hf]
      have h2 : runAfter p s = s.run + 1 := by rw [runAfter, if_pos ⟨he, hf⟩]
      have h3 : extendRun { s with cur := p } = .next { s with cur := p, run := s.run + 1 } := by
        unfold extendRun
        dsimp only
        rw [if_neg hf]
      rw [h1, h2, h3]
      rfl
  · rw [if_neg he]
    have h2 : runAfter p s = 0 := by rw [runAfter, if_neg fun e => he e.1]
    have h1 := chooseItem_onePixel p s.prev s.cache
    by_cases hr : 0 < s.run
    · have h3 : emitPixel { s with cur := p } =
          .next (emit (encode s.magic (chooseItem p s.prev s.cache))
            { emit (encode s.magic (.run s.run)) { s with cur := p } with run := 0 }) := by
        unfold emitPixel
        dsimp only
        rw [if_pos hr, exec_run_encode (s := { s with cur := p }) ho h, andThen_next]
        have e := exec_onePixel_encode
          (s := { emit (encode s.magic (.run s.run)) { s with cur := p } with run := 0 }) h1 ho
        exact e.trans (emitChunk_of_atChunk h)
      rw [h2, h3, pixelBytes, if_neg he, if_pos hr, ← emit_emit]
      rfl
    · have h3 : emitPixel { s with cur := p } =
          .next (emit (encode s.magic (chooseItem p s.prev s.cache)) { s with cur := p }) := by
        unfold emitPixel
        dsimp only
        rw [if_neg hr, andThen_next]
        exact (exec_onePixel_encode (s := { s with cur := p }) h1 ho).trans (emitChunk_of_atChunk h)
      have h4 : s.run = 0 := by omega
      rw [h2, h3, pixelBytes, if_neg he, if_neg hr, List.nil_append, ← h4]
      rfl

/-! ### The encoder's choice -/

/-- Everything `chooseItem` can answer, with what each answer needs. -/
theorem chooseItem_cases (cur prev : Pixel) (cache : Cache) :
    (cache[hash cur] = cur ∧ chooseItem cur prev cache = .index (hash cur)) ∨
    (cache[hash cur] ≠ cur ∧ cur.a = prev.a ∧
      ((diffOk (d8 cur.r prev.r) (d8 cur.g prev.g) (d8 cur.b prev.b) ∧
        chooseItem cur prev cache = .diff (d8 cur.r prev.r) (d8 cur.g prev.g) (d8 cur.b prev.b)) ∨
      (¬ diffOk (d8 cur.r prev.r) (d8 cur.g prev.g) (d8 cur.b prev.b) ∧
        lumaOk (d8 cur.g prev.g) (d8 cur.r prev.r - d8 cur.g prev.g) (d8 cur.b prev.b - d8 cur.g prev.g) ∧
        chooseItem cur prev cache =
          .luma (d8 cur.g prev.g) (d8 cur.r prev.r - d8 cur.g prev.g) (d8 cur.b prev.b - d8 cur.g prev.g)) ∨
      (¬ diffOk (d8 cur.r prev.r) (d8 cur.g prev.g) (d8 cur.b prev.b) ∧
        ¬ lumaOk (d8 cur.g prev.g) (d8 cur.r prev.r - d8 cur.g prev.g) (d8 cur.b prev.b - d8 cur.g prev.g) ∧
        chooseItem cur prev cache = .rgb cur.r cur.g cur.b))) ∨
    (cache[hash cur] ≠ cur ∧ cur.a ≠ prev.a ∧ chooseItem cur prev cache = .rgba cur.r cur.g cur.b cur.a) := by
  by_cases hc : cache[hash cur] = cur
  · exact .inl ⟨hc, by rw [chooseItem, if_pos hc]⟩
  · by_cases ha : cur.a = prev.a
    · refine .inr (.inl ⟨hc, ha, ?_⟩)
      rw [chooseItem, if_neg hc, if_pos ha, deltaItem]
      by_cases hd : diffOk (d8 cur.r prev.r) (d8 cur.g prev.g) (d8 cur.b prev.b)
      · exact .inl ⟨hd, if_pos hd⟩
      · rw [if_neg hd]
        by_cases hl : lumaOk (d8 cur.g prev.g) (d8 cur.r prev.r - d8 cur.g prev.g) (d8 cur.b prev.b - d8 cur.g prev.g)
        · exact .inr (.inl ⟨hd, hl, if_pos hl⟩)
        · exact .inr (.inr ⟨hd, hl, if_neg hl⟩)
    · exact .inr (.inr ⟨hc, ha, by rw [chooseItem, if_neg hc, if_neg ha]⟩)

/-! ### The header and START -/

/-- Everything `checkHeader` can do: an error at offset 14, or the chunk phase begins on a legal image. -/
theorem checkHeader_cases (s : State) :
    (∃ c, c ≠ .unrecognizedTag ∧ c.surfaces = false ∧ checkHeader s = raise c headerLen s) ∨
    (s.width ≠ 0 ∧ s.height ≠ 0 ∧ legalChannels s.channels ∧ imageBytes s.width s.height s.channels ≤ sizeLimit ∧
      imageBytes s.width s.height s.reqch ≤ sizeLimit ∧
      checkHeader s = { s with pxcount := s.width.toNat * s.height.toNat, phase := .chunks }) := by
  unfold checkHeader
  by_cases h1 : s.width = 0 ∨ s.height = 0
  · rw [if_pos h1]
    exact .inl ⟨.zeroDimension, nofun, rfl, rfl⟩
  by_cases h2 : legalChannels s.channels
  · by_cases h3 : sizeLimit < imageBytes s.width s.height s.channels ∨ sizeLimit < imageBytes s.width s.height s.reqch
    · rw [if_neg h1, if_neg (not_not.mpr h2), if_pos h3]
      exact .inl ⟨.sizeOverflow, nofun, rfl, rfl⟩
    · rw [if_neg h1, if_neg (not_not.mpr h2), if_neg h3]
      simp only [not_or] at h1 h3
      exact .inr ⟨h1.1, h1.2, h2, by omega, by omega, rfl⟩
  · rw [if_neg h1, if_pos h2]
    exact .inl ⟨.badChannels, nofun, rfl, rfl⟩

/-- Everything `startDecode` can do: the header phase begins, or REQCH is refused. -/
theorem startDecode_cases (s : State) :
    (legalChannels s.reqch ∧
      startDecode s = clearHeaderRegisters { initOperation s with op := .decode, pixbuf := [] }) ∨
    (¬ legalChannels s.reqch ∧
      startDecode s =
        raise .reqChannels 0 (clearHeaderRegisters { initOperation s with op := .decode, pixbuf := [] })) := by
  unfold startDecode
  by_cases h : legalChannels s.reqch
  · exact .inl ⟨h, if_pos h⟩
  · exact .inr ⟨h, if_neg h⟩

/-- Everything `validateEncode` can do: an error, or PXCOUNT of a legal image of the length given. -/
theorem validateEncode_cases (s : State) :
    (∃ c, c ≠ .unrecognizedTag ∧ c.surfaces = false ∧ validateEncode s = raise c 0 s) ∨
    (legalChannels s.channels ∧ s.width ≠ 0 ∧ s.height ≠ 0 ∧ imageBytes s.width s.height s.channels ≤ sizeLimit ∧
      s.inLen = imageBytes s.width s.height s.channels ∧
      validateEncode s = { s with pxcount := s.width.toNat * s.height.toNat }) := by
  unfold validateEncode
  by_cases h1 : legalChannels s.channels
  · rw [if_neg (not_not.mpr h1)]
    by_cases h2 : s.width = 0 ∨ s.height = 0
    · rw [if_pos h2]
      exact .inl ⟨.zeroDimension, nofun, rfl, rfl⟩
    · rw [if_neg h2]
      by_cases h3 : sizeLimit < imageBytes s.width s.height s.channels
      · rw [if_pos h3]
        exact .inl ⟨.sizeOverflow, nofun, rfl, rfl⟩
      · rw [if_neg h3]
        by_cases h4 : s.inLen = imageBytes s.width s.height s.channels
        · rw [if_neg (not_not.mpr h4)]
          simp only [not_or] at h2
          exact .inr ⟨h1, h2.1, h2.2, by omega, h4, rfl⟩
        · rw [if_pos h4]
          exact .inl ⟨.badBufferLength, nofun, rfl, rfl⟩
  · rw [if_pos h1]
    exact .inl ⟨.badChannels, nofun, rfl, rfl⟩

/-- The resting phases are those in which no operation runs. -/
theorem resting_iff (s : State) : s.phase.resting = true ↔ NoOperationRunning s := by
  unfold NoOperationRunning
  cases s.phase <;> simp [Phase.resting]

theorem running_iff (s : State) : Running s ↔ s.phase.resting = false := by
  unfold Running
  cases s.phase <;> simp [Phase.resting]

/-! ### One step -/

/-- Everything one step can do, case by case. -/
inductive Stepped (s t : State) : Prop where
  | startedDecode (hc : s.cmd = some .startDecode) (hr : s.phase.resting = true) (ht : t = startDecode s)
  | startedEncode (hc : s.cmd = some .startEncode) (hr : s.phase.resting = true) (ht : t = startEncode s)
  | rested (hc : s.cmd = none) (hr : s.phase.resting = true) (ht : t = s)
  | raised (c : Cause) (pos : Nat) (hc : s.cmd = none) (ho : s.op = .decode) (hp : Running s)
      (hn : c ≠ .unrecognizedTag) (ht : t = raise c pos s)
  | decodedHeader (w h : Word32) (c cs : Byte) (hc : s.cmd = none) (ho : s.op = .decode) (hp : s.phase = .header)
      (hf : fetchHeader s = .item (.header w h c cs)) (hl : 14 ≤ s.inLen) (ht : t = checkHeader (takeHeader w h c cs s))
  | resolved (len : Nat) (p : Pixel) (hc : s.cmd = none) (ho : s.op = .decode) (ha : atChunk s)
      (hn : 1 ≤ len) (hl : s.ipos + len ≤ s.inLen) (ht : t = nextChunk len (resolve p s))
  | repeated (n : Nat) (hc : s.cmd = none) (ho : s.op = .decode) (ha : atChunk s)
      (hl : s.ipos + 1 ≤ s.inLen) (hn : n ≤ s.pxcount - s.pxi) (ht : t = nextChunk 1 (repeatPrev n s))
  | decodedEnd (hc : s.cmd = none) (ho : s.op = .decode) (hp : s.phase = .endMarker)
      (hf : fetchEnd s = .item .endMarker) (ht : t = endDecode s)
  | chunksOver (hc : s.cmd = none) (hp : s.phase = .chunks) (hx : s.pxcount ≤ s.pxi)
      (ht : t = { s with phase := .endMarker })
  | encodedHeader (hc : s.cmd = none) (ho : s.op = .encode) (hp : s.phase = .header)
      (ht : t = { emit (encodeHeader s.magic s.width s.height s.channels s.colorspace) s with phase := .chunks })
  | encodedPixel (p : Pixel) (hc : s.cmd = none) (ho : s.op = .encode) (ha : atChunk s)
      (hp : loadPixel s.pxi s = .pixel p)
      (ht : t = endPixel { emit (pixelBytes p s) { s with cur := p } with run := runAfter p s })
  | encodedEnd (hc : s.cmd = none) (ho : s.op = .encode) (hp : s.phase = .endMarker) (ht : t = endEncode s)

theorem step_of_cmd {s : State} {c : Command} (h : s.cmd = some c) : step s = acceptStart c s := by
  simp only [step, engineStep, h]

theorem step_of_no_cmd {s : State} (h : s.cmd = none) : step s = phaseStep s := by
  simp only [step, engineStep, h]

/-- No rejection of the decoder stands for the code that no rule raises. -/
theorem rejection_cause {r : Reject} {base pos : Nat} {s : State} {c : Cause} (h : rejection r base s = .raised c pos) :
    c ≠ .unrecognizedTag := by
  unfold rejection at h
  split at h <;> cases h <;> nofun

theorem fetchBytes_cause {p : Place} {base n pos : Nat} {s : State} {c : Cause}
    (h : fetchBytes p base n s = .raised c pos) : c ≠ .unrecognizedTag := by
  unfold fetchBytes at h
  split at h
  · cases h
  · split at h
    · cases h
    · exact rejection_cause h

theorem fetchChunk_cause {s : State} {c : Cause} {pos : Nat} (h : fetchChunk s = .raised c pos) :
    c ≠ .unrecognizedTag := by
  unfold fetchChunk at h
  split at h
  · cases h
    nofun
  · split at h
    · cases h
    · split at h
      · cases h
        nofun
      · exact fetchBytes_cause h

/-- One step of a decode that answers a next state took the error found while fetching, or ran the item fetched. -/
theorem runFetched_eq_next_iff (f : Fetched) (s t : State) :
    runFetched f s = .next t ↔
      (∃ c pos, f = .raised c pos ∧ t = raise c pos s) ∨ ∃ i, f = .item i ∧ exec i s = .next t := by
  cases f <;> simp [runFetched, eq_comm]

/-- Everything one step can do. -/
theorem step_cases {s t : State} (h : step s = .next t) : Stepped s t := by
  cases hc : s.cmd with
  | some c =>
    rw [step_of_cmd hc] at h
    unfold acceptStart at h
    by_cases hr : s.phase.resting = true
    · rw [if_pos hr] at h
      cases c with
      | startDecode => cases h; exact .startedDecode hc hr rfl
      | startEncode => cases h; exact .startedEncode hc hr rfl
    · rw [if_neg hr] at h
      cases h
  | none =>
    rw [step_of_no_cmd hc] at h
    cases hp : s.phase <;> simp only [phaseStep, hp] at h
    case idle => cases h; exact .rested hc (by rw [hp]; rfl) rfl
    case done => cases h; exact .rested hc (by rw [hp]; rfl) rfl
    case error => cases h; exact .rested hc (by rw [hp]; rfl) rfl
    case header =>
      cases ho : s.op <;> simp only [headerStep, ho] at h
      · rcases (runFetched_eq_next_iff _ _ _).mp h with ⟨c, pos, hf, ht⟩ | ⟨i, hf, hi⟩
        · exact .raised c pos hc ho (.inl hp) (fetchBytes_cause hf) ht
        · obtain ⟨⟨w, v, c, cs, rfl⟩, hl⟩ := fetchHeader_item hf
          simp only [exec, execHeader, hp, ho, if_true] at hi
          cases hi
          exact .decodedHeader w v c cs hc ho hp hf hl rfl
      · simp only [exec, execHeader, hp, ho, if_true] at h
        cases h
        exact .encodedHeader hc ho hp rfl
    case chunks =>
      rw [chunkStep] at h
      by_cases hx : s.pxi < s.pxcount
      · rw [if_pos hx] at h
        have ha : atChunk s := ⟨hp, hx⟩
        cases ho : s.op <;> simp only [ho] at h
        · rcases (runFetched_eq_next_iff _ _ _).mp h with ⟨c, pos, hf, ht⟩ | ⟨i, hf, hi⟩
          · exact .raised c pos hc ho (.inr (.inl hp)) (fetchChunk_cause hf) ht
          · obtain ⟨hplace, hl⟩ := fetchChunk_item hf
            by_cases h1 : i.onePixel = true
            · obtain ⟨p, he⟩ := exec_onePixel_decode h1 ho
              rw [he] at hi
              exact .resolved _ p hc ho ha (Instr.length_pos i) hl ((resolveChunk_eq_next_iff _ _ _ _).mp hi).2
            · cases i with
              | run n =>
                simp only [exec, execRun, ho] at hi
                rcases ((repeatChunk_eq_next_iff _ _ _).mp hi).2 with ⟨_, ht⟩ | ⟨hn, ht⟩
                · exact .raised .runOverrun _ hc ho (.inr (.inl hp)) nofun ht
                · exact .repeated n hc ho ha hl hn ht
              | rgb r g b => exact absurd rfl h1
              | rgba r g b a => exact absurd rfl h1
              | index k => exact absurd rfl h1
              | diff dr dg db => exact absurd rfl h1
              | luma dg drdg dbdg => exact absurd rfl h1
              | header w v c cs => cases hplace
              | endMarker => cases hplace
        · cases hl : loadPixel s.pxi s with
          | absent o => simp only [encodePixel, hl, reduceCtorEq] at h
          | pixel p =>
            rw [encodePixel_of_pixel ho ha hl] at h
            cases h
            exact .encodedPixel p hc ho ha hl rfl
      · rw [if_neg hx] at h
        cases h
        exact .chunksOver hc hp (by omega) rfl
    case endMarker =>
      cases ho : s.op <;> simp only [endStep, ho] at h
      · rcases (runFetched_eq_next_iff _ _ _).mp h with ⟨c, pos, hf, ht⟩ | ⟨i, hf, hi⟩
        · exact .raised c pos hc ho (.inr (.inr hp)) (fetchBytes_cause hf) ht
        · obtain rfl := fetchEnd_item hf
          simp only [exec, execEnd, hp, ho, if_true] at hi
          cases hi
          exact .decodedEnd hc ho hp hf rfl
      · simp only [exec, execEnd, hp, ho, if_true] at h
        cases h
        exact .encodedEnd hc ho hp rfl

end Sys2Proof.Machine
end

