-- ==== Sys2Proof/Machine/Assembly.lean ====
section
/-! DEFINITION. The assembly notation of the items and the three directives (spec/30_encoding.md R77, R78). -/

namespace Sys2Proof.Machine

/-- A line of a program: an item (the six chunks, `HEADER` and `END`), or `BYTES`, which places raw bytes (R78). -/
inductive Line where
  | item (i : Instr)
  | rawBytes (bs : List Byte)
  deriving DecidableEq, Repr

/-- The bytes of a line; an operand outside its range has no encoding (R77). -/
def assembleLine (m : Magic) : Line → Option (List Byte)
  | .item i => if i.wf then some (encode m i) else none
  | .rawBytes bs => some bs

/-- The bytes of a program, its lines in order; none where a line has no encoding. -/
def assemble (m : Magic) : List Line → Option (List Byte)
  | [] => some []
  | l :: ls =>
    match assembleLine m l, assemble m ls with
    | some bs, some rest => some (bs ++ rest)
    | _, _ => none

/-- Operands in decimal, separated by commas (R77). -/
def operandText : List Int → String
  | [] => ""
  | [x] => toString x
  | x :: y :: rest => toString x ++ ", " ++ operandText (y :: rest)

/-- The operands of an item, in the order of the notation, un-biased (R77, R78). -/
def Instr.operands : Instr → List Int
  | .rgb r g b => [r.toNat, g.toNat, b.toNat]
  | .rgba r g b a => [r.toNat, g.toNat, b.toNat, a.toNat]
  | .index i => [i.val]
  | .diff dr dg db => [dr, dg, db]
  | .luma dg drdg dbdg => [dg, drdg, dbdg]
  | .run n => [n]
  | .header w h c cs => [w.toNat, h.toNat, c.toNat, cs.toNat]
  | .endMarker => []

/-- The upper-case mnemonic (R77, R78). -/
def Instr.mnemonic : Instr → String
  | .rgb _ _ _ => "RGB"
  | .rgba _ _ _ _ => "RGBA"
  | .index _ => "INDEX"
  | .diff _ _ _ => "DIFF"
  | .luma _ _ _ => "LUMA"
  | .run _ => "RUN"
  | .header _ _ _ _ => "HEADER"
  | .endMarker => "END"

/-- An item in the assembly notation. -/
def Instr.text (i : Instr) : String :=
  match Instr.operands i with
  | [] => Instr.mnemonic i
  | xs => Instr.mnemonic i ++ " " ++ operandText xs

end Sys2Proof.Machine
end

