-- ==== Sys2Proof/Tests/Slice0.lean ====
section
/-! SUPPORT. Tests: ill-formed terms, words written out from the patterns of spec/30_encoding.md, one or two steps per item
with results from the spec's worked examples, and for every statement with hypotheses a state that meets them. -/

namespace Sys2Proof.Tests

open Sys2Proof Machine

/-! ### WellFormed refuses an operand out of range (R77) -/

theorem test_wf_diff : (Instr.diff (-3) 0 0).wf = false ∧ (Instr.diff 2 0 0).wf = false ∧
    (Instr.diff 0 (-3) 0).wf = false ∧ (Instr.diff 0 2 0).wf = false ∧ (Instr.diff 0 0 (-3)).wf = false ∧
    (Instr.diff 0 0 2).wf = false ∧ (Instr.diff (-2) 1 (-2)).wf = true := by decide

theorem test_wf_luma : (Instr.luma (-33) 0 0).wf = false ∧ (Instr.luma 32 0 0).wf = false ∧
    (Instr.luma 0 (-9) 0).wf = false ∧ (Instr.luma 0 8 0).wf = false ∧ (Instr.luma 0 0 (-9)).wf = false ∧
    (Instr.luma 0 0 8).wf = false ∧ (Instr.luma 31 7 (-8)).wf = true := by decide

theorem test_wf_run : (Instr.run 0).wf = false ∧ (Instr.run 63).wf = false ∧ (Instr.run 1).wf = true ∧
    (Instr.run 62).wf = true := by decide

/-! ### Words written out from the patterns of R61 to R68 -/

theorem test_word_rgb : decodeChunk [0b11111110, 1, 2, 3, 9] = .item (.rgb 1 2 3) [9] := by decide

theorem test_word_rgba : decodeChunk [0b11111111, 1, 2, 3, 4, 9] = .item (.rgba 1 2 3 4) [9] := by decide

/-- `00iiiiii`. -/
theorem test_word_index : decodeChunk [0b00100101, 9] = .item (.index 37) [9] := by decide

/-- `01rrggbb`: rr = 11, gg = 00, bb = 11 (R119's example, byte 73). -/
theorem test_word_diff : decodeChunk [0b01110011] = .item (.diff 1 (-2) 1) [] := by decide

/-- `10gggggg rrrrbbbb` (R120's example, bytes BF F0). -/
theorem test_word_luma : decodeChunk [0b10111111, 0b11110000] = .item (.luma 31 7 (-8)) [] := by decide

/-- `11nnnnnn` (R68): the field is the length less one. -/
theorem test_word_run : decodeChunk [0b11000000] = .item (.run 1) [] ∧ decodeChunk [0b11111101] = .item (.run 62) [] := by
  decide

/-- R111's example. -/
theorem test_word_header : decodeHeader Config.defaultMagic [0x71, 0x6F, 0x69, 0x66, 0, 0, 0, 2, 0, 0, 0, 1, 3, 0] =
    .item (.header 2 1 3 0) [] := by decide

/-- Big-endian: the first byte is the most significant (R61). -/
theorem test_word_header_order : decodeHeader Config.defaultMagic [0x71, 0x6F, 0x69, 0x66, 1, 2, 3, 4, 5, 6, 7, 8, 4, 255] =
    .item (.header 0x01020304 0x05060708 4 255) [] := by decide

theorem test_word_end : decodeEnd [0, 0, 0, 0, 0, 0, 0, 1, 9] = .item .endMarker [9] ∧
    decodeEnd [0, 0, 0, 0, 0, 0, 0, 0] = .rejected (.markerMismatch 7) := by decide

/-- The opcode table's numbering: the first byte is the least significant. -/
theorem test_table_word : decodeTableWord 32 0x030201FE = some (.rgb 1 2 3) ∧ decodeTableWord 16 0xF0BF = some (.luma 31 7 (-8)) ∧
    decodeTableWord 64 0x0100000000000000 = some .endMarker := by decide

theorem test_encode : encode Config.defaultMagic (.diff 1 (-2) 1) = [0x73] ∧
    encode Config.defaultMagic (.luma 31 7 (-8)) = [0xBF, 0xF0] ∧ encode Config.defaultMagic (.run 62) = [0xFD] := by decide

/-! ### The assembly notation (R77, R78) -/

theorem test_assemble : assemble Config.defaultMagic
    [.item (.header 2 1 3 0), .item (.rgba 10 10 10 255), .item (.run 1), .rawBytes [0xAB], .item .endMarker] =
      some ([0x71, 0x6F, 0x69, 0x66, 0, 0, 0, 2, 0, 0, 0, 1, 3, 0, 0xFF, 10, 10, 10, 255, 0xC0, 0xAB] ++
        [0, 0, 0, 0, 0, 0, 0, 1]) ∧ assemble Config.defaultMagic [.item (.run 63)] = none := by decide

theorem test_text : Machine.Instr.text (.diff 1 (-2) 1) = "DIFF 1, -2, 1" ∧ Machine.Instr.text .endMarker = "END" := by decide

/-! ### Small states -/

/-- A decode before a chunk, `bytes` at IPOS = 14. -/
def decoding (prev : Pixel) (pxcount : Nat) (bytes : List Byte) : State :=
  { State.reset with
    op := .decode, phase := .chunks, channels := 4, reqch := 4, prev := prev, pxcount := pxcount, ipos := 14
    inLen := 14 + bytes.length, stream := Memory.writeBytes [] 14 bytes }

/-- An encode of 4-channel pixels in the chunk phase. -/
def encoding (prev : Pixel) (run pxcount : Nat) (bytes : List Byte) : State :=
  { State.reset with
    op := .encode, phase := .chunks, channels := 4, prev := prev, run := run, pxcount := pxcount, opos := 14
    inLen := bytes.length, pixbuf := Memory.ofBytes bytes }

/-- What a step leaves in some registers. -/
def after {α : Type} (o : Host.Outcome State Fault Refusal) (f : State → α) : Option α :=
  match o with
  | .next t => some (f t)
  | .fault _ => none
  | .refused _ => none

/-! ### One step per item: the decoder's worked examples -/

/-- R116's example. -/
theorem test_step_rgb :
    after (step (decoding ⟨1, 2, 3, 255⟩ 2 [0xFE, 0x64, 0xC8, 7])) (fun t => (t.cur, lookup 58 t, t.pxi, t.ipos)) =
      some (⟨100, 200, 7, 255⟩, ⟨100, 200, 7, 255⟩, 1, 18) := by decide

/-- R117's example. -/
theorem test_step_rgba :
    after (step (decoding Pixel.zero 2 [0xFF, 10, 10, 10, 255])) (fun t => (t.prev, lookup 11 t, t.pxi, t.ipos)) =
      some (⟨10, 10, 10, 255⟩, ⟨10, 10, 10, 255⟩, 1, 19) := by decide

/-- A slot never written holds ZERO, and the commit goes to slot 0 (R118, R102). -/
theorem test_step_index :
    after (step (decoding ⟨1, 2, 3, 255⟩ 1 [0x0B])) (fun t => (t.cur, t.prev, t.phase)) =
      some (Pixel.zero, Pixel.zero, .endMarker) := by decide

/-- R119's example. -/
theorem test_step_diff :
    after (step (decoding ⟨10, 10, 10, 255⟩ 2 [0x73])) (fun t => (t.cur, t.ipos)) = some (⟨11, 8, 11, 255⟩, 15) := by decide

/-- R120's example. -/
theorem test_step_luma :
    after (step (decoding ⟨10, 10, 10, 255⟩ 2 [0xBF, 0xF0])) (fun t => (t.cur, t.ipos)) =
      some (⟨48, 41, 33, 255⟩, 16) := by decide

/-- RUN of 2 in an image of 2 pixels (R121). -/
theorem test_step_run :
    after (step (decoding ⟨10, 20, 30, 40⟩ 2 [0xC1])) (fun t => (t.pxi, t.phase, t.pixbuf.readBytes 0 8)) =
      some (2, .endMarker, .bytes [10, 20, 30, 40, 10, 20, 30, 40]) := by decide

/-- RUN of 3 in an image of 2 pixels (R121, R198). -/
theorem test_step_run_overrun :
    after (step (decoding ⟨10, 20, 30, 40⟩ 2 [0xC2])) (fun t => (t.phase, t.err, t.sub, t.errpos, t.pixbuf.read 0)) =
      some (.error, 2, 2, 14, none) := by decide

/-- A 3-channel image expanded: the stored byte is 255, PREV keeps alpha 0 (R171, D9). -/
theorem test_step_expand :
    after (step { decoding Pixel.zero 2 [0xFE, 1, 2, 3] with channels := 3 })
        (fun t => (t.prev, t.pixbuf.readBytes 0 4)) =
      some (⟨1, 2, 3, 0⟩, .bytes [1, 2, 3, 255]) := by decide

/-- A decode in its header phase. -/
def headerPhase (bytes : List Byte) : State :=
  { State.reset with phase := .header, reqch := 3, inLen := bytes.length, stream := Memory.ofBytes bytes }

/-- R111's example. -/
theorem test_step_header :
    after (step (headerPhase [0x71, 0x6F, 0x69, 0x66, 0, 0, 0, 2, 0, 0, 0, 1, 3, 0]))
        (fun t => (t.width, t.height, t.channels, t.pxcount, t.ipos, t.phase)) =
      some (2, 1, 3, 2, 14, .chunks) := by decide

/-- A wrong magic byte in a stream of two bytes is FormatError, not truncation (R111, R199). -/
theorem test_step_header_magic :
    after (step (headerPhase [0x71, 0x6E])) (fun t => (t.phase, t.err, t.sub, t.errpos)) = some (.error, 2, 1, 1) := by decide

/-- A decode in its end phase, two pixels produced. -/
def endPhase (bytes : List Byte) : State :=
  { decoding Pixel.zero 2 bytes with phase := .endMarker, pxi := 2, reqch := 3 }

/-- R122, R123, R124 with one trailing byte; a step that sets the warning (TrailingBytesOnlyWarn). -/
theorem test_step_end :
    after (step (endPhase [0, 0, 0, 0, 0, 0, 0, 1, 7])) (fun t => (t.phase, t.ipos, t.warnTrailing, t.outvalid, t.outLen)) =
      some (.done, 22, true, true, 6) := by decide

/-- R122's example: the last byte wrong; the pixels are surfaced (R195). -/
theorem test_step_end_mismatch :
    after (step (endPhase [0, 0, 0, 0, 0, 0, 0, 0])) (fun t => (t.phase, t.err, t.errpos, t.outvalid, t.outLen)) =
      some (.error, 4, 21, true, 6) := by decide

/-! ### One step per item: the encoder's worked examples -/

/-- R145's example. -/
theorem test_encode_index :
    after (step { encoding ⟨11, 11, 11, 255⟩ 0 2 [10, 10, 10, 255] with
          cache := (Vector.replicate 64 Pixel.zero).set 11 ⟨10, 10, 10, 255⟩ })
        (fun t => (t.stream, t.opos, t.prev, t.pxi)) =
      some ([(14, 0x0B)], 15, ⟨10, 10, 10, 255⟩, 1) := by decide

/-- A run that the last pixel extends and flushes (R144's example). -/
theorem test_encode_run :
    after (step { encoding ⟨10, 10, 10, 255⟩ 0 2 [0, 0, 0, 0, 10, 10, 10, 255] with pxi := 1 })
        (fun t => (t.stream, t.run, t.phase)) =
      some ([(14, 0xC0)], 0, .endMarker) := by decide

/-- An open run is flushed before the pixel's own chunk; the deltas wrap (R143, R146, D4). -/
theorem test_encode_flush_then_diff :
    after (step { encoding ⟨255, 0, 7, 9⟩ 3 9 (List.replicate 16 (0 : Byte) ++ [0, 255, 7, 9]) with pxi := 4 })
        (fun t => (t.stream, t.run)) =
      some ([(14, 0xC2), (15, 0x76)], 0) := by decide

/-- Alpha changes: RGBA (R150). -/
theorem test_encode_rgba :
    after (step (encoding Pixel.zero 0 2 [10, 10, 10, 255])) (fun t => t.stream) =
      some [(14, 0xFF), (15, 10), (16, 10), (17, 10), (18, 255)] := by decide

/-- R142's example. -/
theorem test_encode_header :
    after (step { encoding Pixel.zero 0 2 [] with phase := .header, width := 2, height := 1, channels := 3, opos := 0 })
        (fun t => (t.stream.readBytes 0 14, t.opos, t.phase)) =
      some (.bytes [0x71, 0x6F, 0x69, 0x66, 0, 0, 0, 2, 0, 0, 0, 1, 3, 0], 14, .chunks) := by decide

/-- R151, R152. -/
theorem test_encode_end :
    after (step { encoding Pixel.zero 0 0 [] with phase := .endMarker }) (fun t => (t.stream.readBytes 14 8, t.outLen, t.phase)) =
      some (.bytes [0, 0, 0, 0, 0, 0, 0, 1], 22, .done) := by decide

/-! ### States that meet the statements' hypotheses -/

theorem test_hyp_items : (∀ i ∈ [Instr.rgb 0 255 1, .rgba 0 255 1 2, .index 0, .index 63, .diff (-2) 1 0, .luma (-32) 7 (-8),
    .luma 31 (-8) 7, .run 1, .run 62, .header 0 1 3 0, .endMarker], i.wf = true) ∧
    decodeAt .atChunk Config.defaultMagic [0xC0, 0xFE] = .item (.run 1) [0xFE] ∧
    decodeAt .atEnd Config.defaultMagic [0, 0, 0, 0, 0, 0, 0, 1] = .item .endMarker [] := by decide

theorem test_hyp_header_item : decodeAt .atHeader Config.defaultMagic
    [0x71, 0x6F, 0x69, 0x66, 0, 0, 0, 0, 0, 0, 0, 1, 5, 0] = .item (.header 0 1 5 0) [] := by decide

/-- First bytes at both ends of each of the six sets of R70. -/
theorem test_hyp_first_bytes :
    [0x00, 0x3F, 0x40, 0x7F, 0x80, 0xBF, 0xC0, 0xFD, 0xFE, 0xFF].map (fun b0 => decodeChunk [b0, 0, 0, 0, 0]) =
      [.item (.index 0) [0, 0, 0, 0], .item (.index 63) [0, 0, 0, 0], .item (.diff (-2) (-2) (-2)) [0, 0, 0, 0],
        .item (.diff 1 1 1) [0, 0, 0, 0], .item (.luma (-32) (-8) (-8)) [0, 0, 0], .item (.luma 31 (-8) (-8)) [0, 0, 0],
        .item (.run 1) [0, 0, 0, 0], .item (.run 62) [0, 0, 0, 0], .item (.rgb 0 0 0) [0], .item (.rgba 0 0 0 0) []] := by
  decide

/-- Bytes one short of a chunk and exactly as many as it has, for each length over 1 (ChunkLengthFromFirstByte). -/
theorem test_hyp_chunk_length :
    ([1, 2] : List Byte).length + 1 < chunkLen 0xFE ∧ ([1, 2, 3] : List Byte).length + 1 < chunkLen 0xFF ∧
    ([] : List Byte).length + 1 < chunkLen 0x80 ∧ ([1, 2, 3] : List Byte).length + 1 = chunkLen 0xFE ∧
    ([1, 2, 3, 4] : List Byte).length + 1 = chunkLen 0xFF ∧ ([1] : List Byte).length + 1 = chunkLen 0xBF ∧
    ([] : List Byte).length + 1 = chunkLen 0xC0 := by decide

/-- A cache of ZERO; a slot that holds the pixel of its hash; PREV in its slot. -/
theorem test_hyp_cache : State.reset.cache = Vector.replicate 64 Pixel.zero ∧
    State.reset.cache[hash Pixel.zero] = Pixel.zero ∧ lookup (hash State.reset.prev) State.reset = State.reset.prev ∧
    step State.reset = .next State.reset := ⟨rfl, by decide, by decide, rfl⟩

/-- The three layouts of a stored pixel (StorePixelWritesTheRequestedLayout). -/
theorem test_hyp_layouts : (headerPhase []).reqch = 3 ∧ (decoding Pixel.zero 1 []).reqch = 4 ∧
    (decoding Pixel.zero 1 []).channels = 4 ∧ ({ decoding Pixel.zero 1 [] with channels := 3 } : State).channels = 3 := by
  decide

/-- The two layouts of a loaded pixel (LoadPixelReadsTheSourceLayout). -/
theorem test_hyp_load :
    ((encoding Pixel.zero 0 1 [1, 2, 3, 4]).channels = 4 ∧ HoldsAt (encoding Pixel.zero 0 1 [1, 2, 3, 4]).pixbuf (4 * 0) [1, 2, 3, 4]) ∧
    (({ encoding Pixel.zero 0 1 [1, 2, 3] with channels := 3 } : State).channels = 3 ∧
      HoldsAt ({ encoding Pixel.zero 0 1 [1, 2, 3] with channels := 3 } : State).pixbuf (3 * 0) [1, 2, 3]) :=
  ⟨⟨rfl, holdsAt_writeBytes [] 0 [1, 2, 3, 4]⟩, rfl, holdsAt_writeBytes [] 0 [1, 2, 3]⟩

/-- A decode before a chunk; a run that fits exactly and one that is one too long (the statements on RUN). -/
theorem test_hyp_decoding : DecodingChunk (decoding Pixel.zero 2 [0xC1]) ∧
    (1 ≤ 2 ∧ 2 ≤ (decoding Pixel.zero 2 []).pxcount - (decoding Pixel.zero 2 []).pxi) ∧
    (decoding Pixel.zero 2 []).pxcount - (decoding Pixel.zero 2 []).pxi < 3 ∧
    lookup (hash (decoding Pixel.zero 2 []).prev) (decoding Pixel.zero 2 []) = (decoding Pixel.zero 2 []).prev := by decide

/-- Each chunk kind answers a next state in a decode (the two frames, DecodeRunLeavesCache). -/
theorem test_hyp_decode_next :
    [Instr.rgb 1 2 3, .rgba 1 2 3 4, .index 5, .diff 1 1 1, .luma 1 1 1, .run 2].all
      (fun i => (after (exec i (decoding Pixel.zero 2 [])) fun t => t.phase == .error) == some false) = true := by decide

/-- A legal header at the size limit: 5 * 286331153 * 3 = 2^32 - 1, and with REQCH = 3 (DecodeHeaderBeginsChunks). -/
theorem test_hyp_header_legal : (headerPhase []).op = .decode ∧ (headerPhase []).phase = .header ∧
    (5 : Word32) ≠ 0 ∧ (286331153 : Word32) ≠ 0 ∧ ((3 : Byte) = 3 ∨ (3 : Byte) = 4) ∧
    (5 : Word32).toNat * (286331153 : Word32).toNat * (3 : Byte).toNat ≤ 2 ^ 32 - 1 ∧
    (5 : Word32).toNat * (286331153 : Word32).toNat * (headerPhase []).reqch.toNat ≤ 2 ^ 32 - 1 := by decide

/-- HEADER begins the chunk phase: a next state that is not ERROR (DecodeHeaderFrame). -/
theorem test_hyp_header_next :
    (after (exec (.header 1 1 4 0) (headerPhase [])) fun t => t.phase) = some .chunks := by decide

/-- Each illegal header: a zero width or height, a wrong channel count, a size one over the limit with the source's channels
and with the requested ones (DecodeHeaderValidationOrder). -/
theorem test_hyp_header_illegal :
    [Instr.header 0 1 3 0, .header 1 0 3 0, .header 1 1 2 0, .header 1 1 5 0, .header 1073741824 1 4 0,
        .header 1431655766 1 3 0].map
      (fun i => after (exec i (headerPhase [])) fun t => (t.err, t.sub, t.errpos)) =
      [some (1, 3, 14), some (1, 3, 14), some (1, 2, 14), some (1, 2, 14), some (1, 4, 14), some (1, 4, 14)] := by decide

theorem test_hyp_header_requested : ¬ ((1073741824 : Word32) ≠ 0 ∧ (1 : Word32) ≠ 0 ∧ ((3 : Byte) = 3 ∨ (3 : Byte) = 4) ∧
    (1073741824 : Word32).toNat * (1 : Word32).toNat * (3 : Byte).toNat ≤ 2 ^ 32 - 1 ∧
    (1073741824 : Word32).toNat * (1 : Word32).toNat * ({ headerPhase [] with reqch := 4 } : State).reqch.toNat ≤ 2 ^ 32 - 1) := by
  decide

/-- Both operations in the end phase (DecodeEndCompletes, EncodeEndCompletes, EndFrame). -/
theorem test_hyp_end : (endPhase []).op = .decode ∧ (endPhase []).phase = .endMarker ∧
    ({ encoding Pixel.zero 0 0 [] with phase := .endMarker } : State).op = .encode ∧
    (after (exec .endMarker (endPhase [])) fun t => t.phase) = some .done ∧
    (after (exec .endMarker { encoding Pixel.zero 0 0 [] with phase := .endMarker }) fun t => t.phase) = some .done := by decide

/-- An encode in a pixel step, and in its header phase (the statements on emissions). -/
theorem test_hyp_encoding : EncodingChunk (encoding Pixel.zero 0 1 []) ∧
    (∀ i ∈ [Instr.rgb 1 2 3, .rgba 1 2 3 4, .index 5, .diff 1 1 1, .luma 1 1 1], i.onePixel = true) ∧
    ({ encoding Pixel.zero 0 1 [] with phase := .header } : State).phase = .header := by decide

/-- The header's and the marker's step of an encode (StepRunsTheDecodedItem), and both ends of a run's range
(EncodeRunFlushes). -/
theorem test_hyp_encode_steps : ({ encoding Pixel.zero 0 1 [] with phase := .header } : State).cmd = none ∧
    ({ encoding Pixel.zero 0 1 [] with phase := .endMarker } : State).cmd = none ∧
    ({ encoding Pixel.zero 0 1 [] with phase := .header } : State).op = .encode ∧
    ({ encoding Pixel.zero 0 1 [] with phase := .endMarker } : State).op = .encode ∧
    (Instr.run 1).wf = true ∧ (Instr.run 62).wf = true := by decide

/-- Each place with an item of another (ItemOutOfPlaceIsRefused). -/
theorem test_hyp_out_of_place : (headerPhase []).phase ≠ .endMarker ∧ State.reset.phase ≠ .header ∧
    ¬ ((decoding Pixel.zero 0 []).phase = .chunks ∧ (decoding Pixel.zero 0 []).pxi < (decoding Pixel.zero 0 []).pxcount) := by
  decide

/-! #### The encoder's choice (EncoderPicksFirstApplicableKind) -/

/-- A cache of ZERO. -/
def emptyCache : Cache := Vector.replicate 64 Pixel.zero

/-- The slot of p's hash does not hold p. -/
abbrev NoHit (p : Pixel) : Prop := emptyCache[Machine.hash p] ≠ p

theorem test_hyp_pick_index : emptyCache[hash Pixel.zero] = Pixel.zero := by decide

theorem test_hyp_pick_rgba : NoHit ⟨0, 0, 0, 255⟩ ∧ (255 : Byte) ≠ Pixel.zero.a := by decide

theorem test_hyp_pick_diff : NoHit ⟨254, 1, 0, 0⟩ ∧ (Instr.diff (-2) 1 0).wf = true ∧
    (⟨254, 1, 0, 0⟩ : Pixel) = diffPixel (-2) 1 0 Pixel.zero := by decide

/-- No DIFF gives a pixel whose green is 31 more than PREV's. -/
theorem test_hyp_no_diff (g : Byte) (hg : g = 31 ∨ g = 100) (r b : Byte) (x y z : Int) (h : (Instr.diff x y z).wf = true) :
    (⟨r, g, b, 0⟩ : Pixel) ≠ diffPixel x y z Pixel.zero := by
  intro e
  have hy : -2 ≤ y ∧ y ≤ 1 := by
    simp only [Instr.wf, inDiffRange, Bool.and_eq_true, decide_eq_true_eq] at h
    exact h.1.2
  have e2 : g = addDelta 0 y := congrArg Pixel.g e
  rcases (by omega : y = -2 ∨ y = -1 ∨ y = 0 ∨ y = 1) with rfl | rfl | rfl | rfl <;> rcases hg with rfl | rfl <;>
    exact absurd e2 (by decide)

theorem test_hyp_pick_luma : NoHit ⟨23, 31, 38, 0⟩ ∧ (Instr.luma 31 (-8) 7).wf = true ∧
    (⟨23, 31, 38, 0⟩ : Pixel) = lumaPixel 31 (-8) 7 Pixel.zero ∧
    (∀ x y z : Int, (Instr.diff x y z).wf = true → (⟨23, 31, 38, 0⟩ : Pixel) ≠ diffPixel x y z Pixel.zero) :=
  ⟨by decide, by decide, by decide, test_hyp_no_diff 31 (.inl rfl) 23 38⟩

/-- No LUMA gives a pixel whose green is 100 more than PREV's. -/
theorem test_hyp_no_luma (x y z : Int) (h : (Instr.luma x y z).wf = true) :
    (⟨0, 100, 0, 0⟩ : Pixel) ≠ lumaPixel x y z Pixel.zero := by
  intro e
  have hx : -32 ≤ x ∧ x ≤ 31 := by
    simp only [Instr.wf, inLumaGreenRange, Bool.and_eq_true, decide_eq_true_eq] at h
    exact h.1.1
  have e2 : (100 : Byte) = addDelta 0 x := congrArg Pixel.g e
  have e3 := congrArg BitVec.toNat e2
  simp [addDelta, BitVec.toNat_ofInt] at e3
  omega

theorem test_hyp_pick_rgb : NoHit ⟨0, 100, 0, 0⟩ ∧ (0 : Byte) = Pixel.zero.a ∧
    (∀ x y z : Int, (Instr.diff x y z).wf = true → (⟨0, 100, 0, 0⟩ : Pixel) ≠ diffPixel x y z Pixel.zero) ∧
    (∀ x y z : Int, (Instr.luma x y z).wf = true → (⟨0, 100, 0, 0⟩ : Pixel) ≠ lumaPixel x y z Pixel.zero) :=
  ⟨by decide, rfl, test_hyp_no_diff 100 (.inr rfl) 0 0, test_hyp_no_luma⟩

/-- A pixel step whose pixel is PREV, and one whose pixel is not (EncodePixelStep). -/
theorem test_hyp_pixel_step : (encoding Pixel.zero 61 9 [0, 0, 0, 0]).cmd = none ∧
    EncodingChunk (encoding Pixel.zero 61 9 [0, 0, 0, 0]) ∧
    loadPixel 0 (encoding Pixel.zero 61 9 [0, 0, 0, 0]) = .pixel Pixel.zero ∧
    loadPixel 0 (encoding Pixel.zero 61 9 [0, 0, 0, 1]) = .pixel ⟨0, 0, 0, 1⟩ := by decide

/-! #### A step -/

/-- The bytes of an item stand at its place (StepRunsTheDecodedItem, the three clauses of a decode). -/
theorem test_hyp_step_chunk (bs : List Byte) : (decoding Pixel.zero 2 bs).cmd = none ∧ DecodingChunk (decoding Pixel.zero 2 bs) ∧
    HoldsAt (decoding Pixel.zero 2 bs).stream (decoding Pixel.zero 2 bs).ipos bs ∧
    (decoding Pixel.zero 2 bs).ipos + bs.length ≤ (decoding Pixel.zero 2 bs).inLen :=
  ⟨rfl, ⟨rfl, rfl, Nat.zero_lt_succ 1⟩, holdsAt_writeBytes [] 14 bs, Nat.le_refl _⟩

theorem test_hyp_step_header (bs : List Byte) : (headerPhase bs).cmd = none ∧ (headerPhase bs).op = .decode ∧
    (headerPhase bs).phase = .header ∧ HoldsAt (headerPhase bs).stream 0 bs ∧ bs.length ≤ (headerPhase bs).inLen ∧
    (headerPhase bs).magic = Config.defaultMagic :=
  ⟨rfl, rfl, rfl, holdsAt_writeBytes [] 0 bs, Nat.le_refl _, rfl⟩

theorem test_hyp_step_end (bs : List Byte) : (endPhase bs).cmd = none ∧ (endPhase bs).op = .decode ∧
    (endPhase bs).phase = .endMarker ∧ HoldsAt (endPhase bs).stream (endPhase bs).ipos bs ∧
    (endPhase bs).ipos + bs.length ≤ (endPhase bs).inLen :=
  ⟨rfl, rfl, rfl, holdsAt_writeBytes [] 14 bs, Nat.le_refl _⟩

/-- The stream ends at a chunk boundary, and inside chunks of 2, 4 and 5 bytes (TruncatedChunkRaises). -/
theorem test_hyp_truncated : (decoding Pixel.zero 2 []).inLen ≤ (decoding Pixel.zero 2 []).ipos ∧
    (∀ b0 ∈ ([0x80, 0xBF, 0xFE, 0xFF] : List Byte), (decoding Pixel.zero 2 [b0]).ipos < (decoding Pixel.zero 2 [b0]).inLen ∧
      (decoding Pixel.zero 2 [b0]).stream.read 14 = some b0 ∧ (decoding Pixel.zero 2 [b0]).inLen < 14 + chunkLen b0) := by
  decide

/-- A wrong first and a wrong last magic byte, in a short stream; a short stream with none (BadOrShortHeaderRaises). -/
theorem test_hyp_bad_header :
    (([0] : List Byte).length = min 14 (headerPhase [0]).inLen ∧
      ([0] : List Byte).take 0 = (headerPhase [0]).magic.bytes.take 0 ∧ (0 : Byte) ≠ 0x71) ∧
    (([0x71, 0x6F, 0x69, 0] : List Byte).length = min 14 (headerPhase [0x71, 0x6F, 0x69, 0]).inLen ∧
      ([0x71, 0x6F, 0x69, 0] : List Byte).take 3 = (headerPhase []).magic.bytes.take 3 ∧ (0 : Byte) ≠ 0x66) ∧
    ((headerPhase [0x71, 0x6F, 0x69, 0x66, 0]).inLen < 14 ∧
      ([0x71, 0x6F, 0x69, 0x66, 0] : List Byte).take 4 = (headerPhase []).magic.bytes.take 5) ∧
    ((headerPhase []).inLen < 14 ∧ ([] : List Byte).take 4 = (headerPhase []).magic.bytes.take 0) := by decide

/-- A wrong first and a wrong last marker byte; a marker that ends before its first and before its last byte
(BadOrShortMarkerRaises). -/
theorem test_hyp_bad_marker :
    (([9] : List Byte).length = min 8 ((endPhase [9]).inLen - (endPhase [9]).ipos) ∧ (9 : Byte) ≠ 0) ∧
    (([0, 0, 0, 0, 0, 0, 0, 0] : List Byte).take 7 = endMarkerBytes.take 7 ∧ (0 : Byte) ≠ 1) ∧
    (([] : List Byte).length < 8 ∧ ([] : List Byte) = endMarkerBytes.take 0) ∧
    (([0, 0, 0, 0, 0, 0, 0] : List Byte).length < 8 ∧ ([0, 0, 0, 0, 0, 0, 0] : List Byte) = endMarkerBytes.take 7) := by decide

/-- A step after which ERR and SUB are FORMAT and UNRECOGNIZED_TAG: they stood so before (UnrecognizedTagIsNeverRaised). -/
theorem test_hyp_unrecognized :
    step { State.reset with err := 2, sub := 3 } = .next { State.reset with err := 2, sub := 3 } := rfl

/-- An encode under way that steps; an encode refused at START (EncodeFailsAtStartOnly). -/
theorem test_hyp_encode_fails :
    ((encoding Pixel.zero 0 1 [0, 0, 0, 0]).cmd = none ∧ (encoding Pixel.zero 0 1 [0, 0, 0, 0]).phase ≠ .error ∧
      (after (step (encoding Pixel.zero 0 1 [0, 0, 0, 0])) fun t => t.phase) = some .endMarker) ∧
    (after (step { State.reset with cmd := some .startEncode }) fun t => t.phase) = some .error := by decide

/-- A START waits in each of the three resting phases; one waits in each of the three running phases
(StartDecodeInitialises, StartEncodeValidates, StartWhileRunningIsRefused, RestingPhaseIsLeftByStartOnly). -/
theorem test_hyp_start : NoOperationRunning { State.reset with cmd := some .startDecode } ∧
    NoOperationRunning { State.reset with phase := .done, cmd := some .startEncode } ∧
    NoOperationRunning { State.reset with phase := .error, cmd := some .startDecode } ∧ State.reset.cmd = none ∧
    Running { headerPhase [] with cmd := some .startDecode } ∧
    Running { decoding Pixel.zero 1 [] with cmd := some .startEncode } ∧
    Running { endPhase [] with cmd := some .startDecode } := by decide

/-- A step in every phase and, in the running phases, to every phase that may follow (InputSpaceIsNeverWritten,
DescriptorStands, PhaseOrder). -/
theorem test_hyp_phases :
    [State.reset, { State.reset with phase := .done }, { State.reset with phase := .error }, headerPhase [],
        headerPhase [0x71, 0x6F, 0x69, 0x66, 0, 0, 0, 1, 0, 0, 0, 1, 3, 0], decoding Pixel.zero 1 [],
        decoding Pixel.zero 1 [0xC0], decoding Pixel.zero 2 [0xC0], endPhase [], endPhase [0, 0, 0, 0, 0, 0, 0, 1]].map
      (fun s => after (step s) fun t => t.phase) =
      [some .idle, some .done, some .error, some .error, some .chunks, some .error, some .endMarker, some .chunks,
        some .error, some .done] := by decide

/-! #### Invariants -/

/-- A decode in its header phase meets the invariants, and steps (SpacesStayCanonical, EngineInvariantIsKept,
RunningOperationNeverStops). -/
theorem test_hyp_invariant : EngineInv (headerPhase []) ∧ SpacesCanonical (headerPhase []) ∧
    InputLengthTrue (headerPhase []) ∧ (headerPhase []).cmd = none ∧
    (after (step (headerPhase [])) fun t => t.phase) = some .error where
  left :=
    { run := Nat.zero_le _
      slot := by decide
      chunks := nofun
      marker := nofun
      decode := fun _ _ =>
        { reqch := .inl rfl
          run := rfl
          start := fun _ => ⟨rfl, rfl⟩
          image := fun h => absurd rfl h
          ipos := fun h => absurd rfl h
          output := filled_nil }
      encode := nofun }
  right := ⟨⟨Memory.wf_nil, Memory.wf_nil⟩, filled_nil, rfl, by decide⟩

/-- A START waits in a resting phase, with a true input length (RunningOperationNeverStops). -/
theorem test_hyp_start_waits : EngineInv { State.reset with cmd := some .startEncode } ∧
    InputLengthTrue { State.reset with cmd := some .startEncode } ∧
    NoOperationRunning { State.reset with cmd := some .startEncode } where
  left := { run := Nat.zero_le _, slot := by decide, chunks := nofun, marker := nofun, decode := nofun, encode := nofun }
  right := ⟨filled_nil, .inl rfl⟩

/-! #### The host port -/

/-- A true IN_LEN at rest; one too short and one too long by one (HostActsBetweenOperationsOnly, the first two clauses). -/
theorem test_hyp_host_start : Filled (Memory.ofBytes [7, 8]) 2 ∧ ¬ Filled (Memory.ofBytes [7, 8]) 1 ∧
    ¬ Filled (Memory.ofBytes [7, 8]) 3 ∧ NoOperationRunning State.reset ∧ State.reset.cmd = none :=
  ⟨filled_ofBytes [7, 8], fun h => absurd ((h 1).mp rfl) (by decide), fun h => absurd ((h 2).mpr (by decide)) (by decide),
    .inl rfl, rfl⟩

/-- U3: a false IN_LEN starts nothing. -/
theorem test_host_false_length :
    hostStart .startDecode { State.reset with stream := Memory.ofBytes [7, 8], inLen := 1 } = .refused .falseInputLength ∧
    hostStart .startEncode { State.reset with pixbuf := Memory.ofBytes [7, 8], inLen := 3 } = .refused .falseInputLength :=
  ⟨rfl, rfl⟩

/-- R48: an operation has ended with an output, which the host reads until its next START
(HostActsBetweenOperationsOnly, the third clause). -/
theorem test_host_reads_until_start :
    hostReadOutput { State.reset with phase := .done, outvalid := true, outLen := 1, pixbuf := Memory.ofBytes [7] } = some [7] ∧
    Running (headerPhase []) ∧
    hostReadOutput { State.reset with
      phase := .done, outvalid := true, outLen := 1, pixbuf := Memory.ofBytes [7], cmd := some .startDecode } = none := by
  decide

/-! #### The two operations -/

/-- The stream of one black 4-channel pixel: header, RUN of 1, marker. -/
def onePixelStream : List Byte :=
  [0x71, 0x6F, 0x69, 0x66, 0, 0, 0, 1, 0, 0, 0, 1, 4, 0] ++ [0xC0] ++ [0, 0, 0, 0, 0, 0, 0, 1]

/-- An encode that ends with a stream (EncodedLengthIsBounded, DecodeOfEncodeIsTheImage). -/
theorem test_hyp_encode_ok : encodeOperation Config.defaultMagic [0, 0, 0, 0] 1 1 4 0 = .ok onePixelStream := by decide

/-- A decode that ends without a warning (TrailingBytesOnlyWarn, EveryCutIsTruncation). -/
theorem test_hyp_decode_ok : decodeOperation Config.defaultMagic onePixelStream 3 = .ok [0, 0, 0] 1 1 4 0 false := by decide

/-- A valid image, a byte after a stream, and the first and the last place to cut it. -/
theorem test_hyp_image : (1 : Word32) ≠ 0 ∧ ([Pixel.zero] : List Pixel).length = (1 : Word32).toNat * (1 : Word32).toNat ∧
    ([Pixel.zero] : List Pixel).length * 4 ≤ 2 ^ 32 - 1 ∧ ([7] : List Byte) ≠ [] ∧ 0 < onePixelStream.length ∧
    22 < onePixelStream.length := by decide

end Sys2Proof.Tests
end

section
/-! SUPPORT. Rules about the registers of 10_state.md: what each step leaves of the descriptor and the status, the slots
of CACHE after a sequence of commits, and how a step moves PHASE. -/

namespace Sys2Proof

open Machine

/-! ### The descriptor and the status -/

/-- A chunk of one pixel leaves the descriptor. -/
theorem sameDescriptor_resolved (len : Nat) (p : Pixel) (s : State) :
    SameDescriptor s (nextChunk len (resolve p s)) := by
  constructor <;> simp

theorem sameStatus_resolved (len : Nat) (p : Pixel) (s : State) : SameStatus s (nextChunk len (resolve p s)) := by
  constructor <;> simp

/-- A RUN that fits leaves the descriptor. -/
theorem sameDescriptor_repeated (len n : Nat) (s : State) : SameDescriptor s (nextChunk len (repeatPrev n s)) := by
  constructor <;> simp

theorem sameStatus_repeated (len n : Nat) (s : State) : SameStatus s (nextChunk len (repeatPrev n s)) := by
  constructor <;> simp

/-- A pixel step of the encoder leaves the descriptor. -/
theorem sameDescriptor_encodedPixel (p : Pixel) (n : Nat) (bs : List Byte) (s : State) :
    SameDescriptor s (endPixel { emit bs { s with cur := p } with run := n }) := by
  constructor <;> simp

theorem sameDescriptor_endDecode (s : State) : SameDescriptor s (endDecode s) := by
  constructor <;> simp [endDecode]

theorem sameDescriptor_endEncode (s : State) : SameDescriptor s (endEncode s) := by
  constructor <;> simp [endEncode]

/-- MAGIC, REQCH and IN_LEN are as before: what neither a START nor the header of a decode writes (R18). -/
structure SameHostRegisters (s t : State) : Prop where
  magic : t.magic = s.magic
  reqch : t.reqch = s.reqch
  inLen : t.inLen = s.inLen

theorem SameDescriptor.hostRegisters {s t : State} (h : SameDescriptor s t) : SameHostRegisters s t :=
  ⟨h.magic, h.reqch, h.inLen⟩

theorem sameHostRegisters_startDecode (s : State) : SameHostRegisters s (startDecode s) := by
  rcases startDecode_cases s with ⟨_, h⟩ | ⟨_, h⟩ <;> rw [h] <;> constructor <;> simp

theorem sameHostRegisters_startEncode (s : State) : SameHostRegisters s (startEncode s) := by
  rw [startEncode]
  rcases validateEncode_cases { initOperation s with op := .encode, stream := [] } with
    ⟨_, _, _, h⟩ | ⟨_, _, _, _, _, h⟩ <;> rw [h] <;> constructor <;> simp

/-- The header's checks write no register of the descriptor: they raise, or they set PXCOUNT and PHASE. -/
theorem sameDescriptor_checkHeader (s : State) : SameDescriptor s (checkHeader s) := by
  rcases checkHeader_cases s with ⟨_, _, _, h⟩ | ⟨_, _, _, _, _, h⟩ <;> rw [h] <;> constructor <;> simp

/-- What a step leaves of the descriptor: a START and the header of a decode write part of it, no other step any of it. -/
theorem step_descriptor {s t : State} (h : step s = .next t) :
    (s.cmd ≠ none ∧ SameHostRegisters s t) ∨
    (s.op = .decode ∧ s.phase = .header ∧ t.op = s.op ∧ SameHostRegisters s t) ∨
    SameDescriptor s t := by
  cases step_cases h with
  | startedDecode hc _ ht => exact .inl ⟨by simp [hc], ht ▸ sameHostRegisters_startDecode s⟩
  | startedEncode hc _ ht => exact .inl ⟨by simp [hc], ht ▸ sameHostRegisters_startEncode s⟩
  | decodedHeader w v c cs _ ho hp _ _ ht =>
    have hd := sameDescriptor_checkHeader (takeHeader w v c cs s)
    subst ht
    exact .inr (.inl ⟨ho, hp, hd.op, hd.magic, hd.reqch, hd.inLen⟩)
  | rested _ _ ht => exact .inr (.inr (ht ▸ sameDescriptor_refl s))
  | raised c pos _ _ _ _ ht => exact .inr (.inr (ht ▸ sameDescriptor_raise c pos s))
  | resolved len p _ _ _ _ _ ht => exact .inr (.inr (ht ▸ sameDescriptor_resolved len p s))
  | repeated n _ _ _ _ _ ht => exact .inr (.inr (ht ▸ sameDescriptor_repeated 1 n s))
  | decodedEnd _ _ _ _ ht => exact .inr (.inr (ht ▸ sameDescriptor_endDecode s))
  | chunksOver _ _ _ ht => subst ht; exact .inr (.inr ⟨rfl, rfl, rfl, rfl, rfl, rfl, rfl, rfl⟩)
  | encodedHeader _ _ _ ht => subst ht; exact .inr (.inr ⟨rfl, rfl, rfl, rfl, rfl, rfl, rfl, rfl⟩)
  | encodedPixel p _ _ _ _ ht => exact .inr (.inr (ht ▸ sameDescriptor_encodedPixel p _ _ s))
  | encodedEnd _ _ _ ht => exact .inr (.inr (ht ▸ sameDescriptor_endEncode s))

/-! ### The slots of CACHE after a sequence of commits -/

/-- A sequence of operations that each update CACHE by their pixel leaves in every slot the latest pixel of its hash. -/
theorem foldl_cache_latest {f : State → Pixel → State} (hf : ∀ u p, (f u p).cache = u.cache.set (hash p) p)
    (ps : List Pixel) (s : State) (i : Index) :
    (ps.foldl f s).cache[i] = ((ps.reverse.find? fun p => hash p = i).getD s.cache[i]) := by
  induction ps generalizing s with
  | nil => rfl
  | cons p ps ih =>
    have hslot : (f s p).cache[i] = if i = hash p then p else s.cache[i] := by
      rw [hf]
      exact cacheUpdated_set p s.cache i
    rw [List.foldl_cons, ih, hslot, List.reverse_cons, List.find?_append]
    cases ps.reverse.find? fun q => hash q = i with
    | some q => rfl
    | none =>
      by_cases hi : hash p = i
      · simp [hi]
      · simp [hi, Ne.symm hi]

/-! ### Pixels stored in a row -/

/-- The length of N stored pixels in a row. -/
theorem replicate_storedBytes_length (n : Nat) (p : Pixel) (s : State) :
    (List.replicate n (storedBytes p s)).flatten.length = n * storedWidth s := by
  simp [storedBytes_length]

/-! ### PHASE -/

theorem phaseAfter_cases (pxi pxcount : Nat) :
    (pxi < pxcount ∧ phaseAfter pxi pxcount = .chunks) ∨ (pxcount ≤ pxi ∧ phaseAfter pxi pxcount = .endMarker) := by
  by_cases h : pxi < pxcount
  · exact .inl ⟨h, if_pos h⟩
  · exact .inr ⟨by omega, if_neg h⟩

theorem resolved_phase {len : Nat} {p : Pixel} {s : State} (h : s.phase = .chunks) :
    (nextChunk len (resolve p s)).phase = phaseAfter (s.pxi + 1) s.pxcount := by
  simp [phaseAfter, h]

theorem repeated_phase {len n : Nat} {s : State} (h : s.phase = .chunks) :
    (nextChunk len (repeatPrev n s)).phase = phaseAfter (s.pxi + n) s.pxcount := by
  simp [phaseAfter, h]

theorem encodedPixel_phase {p : Pixel} {n : Nat} {bs : List Byte} {s : State} (h : s.phase = .chunks) :
    (endPixel { emit bs { s with cur := p } with run := n }).phase = phaseAfter (s.pxi + 1) s.pxcount := by
  simp [phaseAfter, h]

/-- How a step without a START moves PHASE (R17). -/
inductive PhaseMove (s t : State) : Prop where
  | rest (hs : NoOperationRunning s) (ht : t.phase = s.phase)
  | toError (hs : Running s) (ho : s.op = .decode) (ht : t.phase = .error)
  | toChunks (hs : s.phase = .header) (ht : t.phase = .chunks)
  | inChunks (hs : s.phase = .chunks) (ht : t.phase = .chunks ∨ t.phase = .endMarker)
  | toDone (hs : s.phase = .endMarker) (ht : t.phase = .done)

/-- A chunk or a pixel, which goes to the phase that the loop's test gives, stays in CHUNKS or goes to END. -/
theorem PhaseMove.of_phaseAfter {s t : State} {pxi pxcount : Nat} (hs : s.phase = .chunks)
    (ht : t.phase = phaseAfter pxi pxcount) : PhaseMove s t := by
  refine .inChunks hs ?_
  rcases phaseAfter_cases pxi pxcount with ⟨_, h⟩ | ⟨_, h⟩
  · exact .inl (ht.trans h)
  · exact .inr (ht.trans h)

theorem step_phaseMove {s t : State} (hc : s.cmd = none) (h : step s = .next t) : PhaseMove s t := by
  cases step_cases h with
  | startedDecode hc' => simp [hc] at hc'
  | startedEncode hc' => simp [hc] at hc'
  | rested _ hr ht => exact .rest ((resting_iff s).mp hr) (by rw [ht])
  | raised c pos _ ho hp _ ht => exact .toError hp ho (by rw [ht, raise_phase])
  | decodedHeader w v c cs _ ho hp _ _ ht =>
    rcases checkHeader_cases (takeHeader w v c cs s) with ⟨_, _, _, hr⟩ | ⟨_, _, _, _, _, hk⟩
    · exact .toError (.inl hp) ho (by rw [ht, hr, raise_phase])
    · exact .toChunks hp (by rw [ht, hk])
  | resolved len p _ _ ha _ _ ht => exact .of_phaseAfter ha.1 (ht ▸ resolved_phase ha.1)
  | repeated n _ _ ha _ _ ht => exact .of_phaseAfter ha.1 (ht ▸ repeated_phase ha.1)
  | decodedEnd _ _ hp _ ht => exact .toDone hp (by rw [ht, endDecode, finish_phase])
  | chunksOver _ hp _ ht => exact .inChunks hp (.inr (by rw [ht]))
  | encodedHeader _ _ hp ht => exact .toChunks hp (by rw [ht])
  | encodedPixel p _ _ ha _ ht => exact .of_phaseAfter ha.1 (ht ▸ encodedPixel_phase ha.1)
  | encodedEnd _ _ hp ht => exact .toDone hp (by rw [ht, endEncode, finish_phase])

end Sys2Proof
end

section
/-! PROOF. The tier 2 obligations of 10_state.md: the slots of CACHE (R24), what the chunks of a decode leave unchanged
(R22, R41), the descriptor (R18) and the order of PHASE (R17). -/

namespace Sys2Proof

open Machine

/-- Settles O7: both commits update CACHE by their pixel, and the latest update of a slot is the one it holds. -/
theorem slotHoldsLatestPixelOfItsHash : Obligations.SlotHoldsLatestPixelOfItsHash := by
  intro ps s i hs
  have hzero : s.cache[i] = Pixel.zero := by simp [hs]
  rw [← hzero]
  exact ⟨foldl_cache_latest (fun u p => commit_cache p u) ps s i,
    foldl_cache_latest (fun u p => commitEncode_cache p u) ps s i⟩

/-- Settles O19: each of the five chunks resolves to one pixel, stored at PXI. -/
theorem decodeOnePixelChunkFrame : Obligations.DecodeOnePixelChunkFrame := by
  intro i s t hi ho h
  obtain ⟨p, he⟩ := exec_onePixel_decode hi ho
  obtain ⟨_, rfl⟩ := (resolveChunk_eq_next_iff _ _ _ _).mp (he ▸ h)
  have hpix : SameOutside s.pixbuf (nextChunk i.length (resolve p s)).pixbuf (storeOffset s.pxi s) (storedWidth s) := by
    rw [nextChunk_pixbuf, resolve_pixbuf, ← storedBytes_length p s]
    exact sameOutside_writeBytes _ _ _
  exact ⟨sameDescriptor_resolved _ p s, sameStatus_resolved _ p s, by simp, by simp, by simp, by simp,
    by simpa using sameBytes_refl s.stream, hpix⟩

/-- Settles O20: a RUN that fits commits PREV N times, stored in a row from PXI on. -/
theorem decodeRunFrame : Obligations.DecodeRunFrame := by
  intro n s t ho hn h
  have hr : repeatChunk n s = .next t := by simpa only [exec, execRun, ho] using h
  rcases ((repeatChunk_eq_next_iff n s t).mp hr).2 with ⟨hover, _⟩ | ⟨_, rfl⟩
  · omega
  have hpix : SameOutside s.pixbuf (nextChunk 1 (repeatPrev n s)).pixbuf (storeOffset s.pxi s) (n * storedWidth s) := by
    rw [nextChunk_pixbuf, repeatPrev_pixbuf, storeOffset_eq, ← replicate_storedBytes_length n s.prev s]
    exact sameOutside_writeBytes _ _ _
  exact ⟨sameDescriptor_repeated 1 n s, sameStatus_repeated 1 n s, by simp, by simp, by simp, by simp, by simp,
    by simpa using sameBytes_refl s.stream, hpix⟩

/-- Settles O47: only a START and the header of a decode write the descriptor, and neither writes MAGIC, REQCH or
IN_LEN. -/
theorem descriptorStands : Obligations.DescriptorStands := by
  intro s t h
  rcases step_descriptor h with ⟨hc, hr⟩ | ⟨ho, hp, hop, hr⟩ | hd
  · exact ⟨hr.magic, hr.reqch, hr.inLen, fun hn => absurd hn hc⟩
  · refine ⟨hr.magic, hr.reqch, hr.inLen, fun _ => ⟨hop, fun hx => ?_⟩⟩
    simp [ho, hp] at hx
  · exact ⟨hd.magic, hd.reqch, hd.inLen, fun _ => ⟨hd.op, fun _ => ⟨hd.width, hd.height, hd.channels, hd.colorspace⟩⟩⟩

/-- Settles O48: each move of PHASE is one the order allows. -/
theorem phaseOrder : Obligations.PhaseOrder := by
  intro s t hc h
  cases step_phaseMove hc h with
  | rest hs ht => rcases hs with hs | hs | hs <;> simp [hs, ht]
  | toError hs ho ht => rcases hs with hs | hs | hs <;> simp [hs, ho, ht]
  | toChunks hs ht => simp [hs, ht]
  | inChunks hs ht => rcases ht with ht | ht <;> simp [hs, ht]
  | toDone hs ht => simp [hs, ht]

end Sys2Proof
end

section
/-! PROOF. The invariant of the engine is kept by every step (R14 to R17, R43, R46, R56): PREV's slot first, for a resting
state the invariant is no more than that and the range of RUN; then the invariant of each operation, step by step. -/

namespace Sys2Proof

open Machine

/-! ### PREV in its slot (R97) -/

theorem slot_of_update {t : State} {p : Pixel} {slots : Cache} (hp : t.prev = p)
    (hc : t.cache = slots.set (hash p) p) : lookup (hash t.prev) t = t.prev := by
  rw [lookup_prev hp hc, hp]
  simp

theorem slot_of_zero {t : State} (hp : t.prev = Pixel.zero) (hc : t.cache = Vector.replicate 64 Pixel.zero) :
    lookup (hash t.prev) t = t.prev := by
  rw [lookup_prev hp hc, hp]
  simp

theorem slot_of_same {s t : State} (hs : lookup (hash s.prev) s = s.prev) (hp : t.prev = s.prev)
    (hc : t.cache = s.cache) : lookup (hash t.prev) t = t.prev := by
  rw [lookup_prev hp hc, hp]
  exact hs

/-- Where PREV sits in its slot, commits of PREV leave CACHE as it is. -/
theorem repeatPrev_cache_of_slot (n : Nat) {s : State} (hs : lookup (hash s.prev) s = s.prev) :
    (repeatPrev n s).cache = s.cache := by
  cases n with
  | zero => rfl
  | succ n => rw [repeatPrev_cache_succ, cache_set_self hs]

/-! ### PXI against PXCOUNT (R15) -/

/-- The loop's test: in CHUNKS pixels are still to come, in END all of them have been produced. -/
structure PhaseCounts (t : State) : Prop where
  chunks : t.phase = .chunks → t.pxi < t.pxcount
  marker : t.phase = .endMarker → t.pxi = t.pxcount

theorem phaseCounts_of_phaseAfter {t : State} (hp : t.phase = phaseAfter t.pxi t.pxcount) (hle : t.pxi ≤ t.pxcount) :
    PhaseCounts t := by
  rcases phaseAfter_cases t.pxi t.pxcount with ⟨hlt, h⟩ | ⟨hge, h⟩ <;> rw [h] at hp
  · exact ⟨fun _ => hlt, by simp [hp]⟩
  · exact ⟨by simp [hp], fun _ => by omega⟩

theorem phaseCounts_of_header {t : State} (hp : t.phase = .header) : PhaseCounts t := ⟨by simp [hp], by simp [hp]⟩

theorem phaseAfter_ne_header (pxi pxcount : Nat) : phaseAfter pxi pxcount ≠ .header := by
  rcases phaseAfter_cases pxi pxcount with ⟨_, h⟩ | ⟨_, h⟩ <;> simp [h]

/-! ### The invariant from its parts -/

/-- Where no operation runs, the invariant asks for the range of RUN and for PREV's slot only. -/
theorem engineInv_of_resting {t : State} (hp : t.phase.resting = true) (hr : t.run ≤ 62)
    (hs : lookup (hash t.prev) t = t.prev) : EngineInv t where
  run := hr
  slot := hs
  chunks h := by simp [h, Phase.resting] at hp
  marker h := by simp [h, Phase.resting] at hp
  decode h := by simp [(running_iff t).mp h] at hp
  encode h := by simp [(running_iff t).mp h] at hp

theorem engineInv_of_decode {t : State} (ho : t.op = .decode) (hs : lookup (hash t.prev) t = t.prev)
    (hx : PhaseCounts t) (hd : DecodeInv t) : EngineInv t where
  run := by simp [hd.run]
  slot := hs
  chunks := hx.chunks
  marker := hx.marker
  decode _ _ := hd
  encode _ h := by simp [ho] at h

theorem engineInv_of_encode {t : State} (ho : t.op = .encode) (hs : lookup (hash t.prev) t = t.prev)
    (hx : PhaseCounts t) (hd : EncodeInv t) : EngineInv t where
  run := Nat.le_succ_of_le hd.run.1
  slot := hs
  chunks := hx.chunks
  marker := hx.marker
  decode _ h := by simp [ho] at h
  encode _ _ := hd

/-- An error leaves PREV and CACHE as they were, and a free value of RUN is in its range. -/
theorem engineInv_raise (c : Cause) (pos : Nat) {s : State} (hs : lookup (hash s.prev) s = s.prev) :
    EngineInv (raise c pos s) :=
  engineInv_of_resting rfl (Nat.le_of_lt_succ (Config.freeRun s.fresh).isLt) hs

theorem engineInv_finish (len : Nat) (warn : Bool) {s : State} (hr : s.run ≤ 62)
    (hs : lookup (hash s.prev) s = s.prev) : EngineInv (finish len warn s) :=
  engineInv_of_resting rfl hr hs

/-! ### The image registers (R56) -/

theorem imageLegal_congr {s t : State} (hd : SameDescriptor s t) (hx : t.pxcount = s.pxcount) (hi : ImageLegal s) :
    ImageLegal t where
  channels := by rw [hd.channels]; exact hi.channels
  width := by rw [hd.width]; exact hi.width
  height := by rw [hd.height]; exact hi.height
  size := by rw [hd.width, hd.height, hd.channels]; exact hi.size
  pxcount := by rw [hx, hd.width, hd.height]; exact hi.pxcount

/-- A legal image has a pixel. -/
theorem pxcount_pos_of_imageLegal {s : State} (hi : ImageLegal s) : 0 < s.pxcount := by
  rw [hi.pxcount]
  exact Nat.mul_pos (BitVec.toNat_pos_of_ne_zero hi.width) (BitVec.toNat_pos_of_ne_zero hi.height)

/-! ### START -/

theorem engineInv_startDecode (s : State) : EngineInv (startDecode s) := by
  rcases startDecode_cases s with ⟨hl, h⟩ | ⟨_, h⟩ <;> rw [h]
  · refine engineInv_of_decode rfl (slot_of_zero rfl rfl) (phaseCounts_of_header rfl) ?_
    exact {
      reqch := hl
      run := rfl
      start := fun _ => ⟨rfl, rfl⟩
      image := fun hp => absurd rfl hp
      ipos := fun hp => absurd rfl hp
      output := by simpa using filled_nil }
  · exact engineInv_raise _ _ (slot_of_zero rfl rfl)

theorem engineInv_startEncode (s : State) : EngineInv (startEncode s) := by
  rw [startEncode]
  rcases validateEncode_cases { initOperation s with op := .encode, stream := [] } with
    ⟨_, _, _, h⟩ | ⟨hc, hw, hh, hsize, hlen, h⟩ <;> rw [h]
  · exact engineInv_raise _ _ (slot_of_zero rfl rfl)
  · refine engineInv_of_encode rfl (slot_of_zero rfl rfl) (phaseCounts_of_header rfl) ?_
    exact {
      image := ⟨hc, hw, hh, hsize, rfl⟩
      inLen := hlen
      start := fun _ => ⟨rfl, rfl, rfl⟩
      opos := fun hp => absurd rfl hp
      run := ⟨Nat.zero_le _, Nat.le_refl _⟩
      closed := fun _ => rfl
      output := filled_nil }

/-! ### The steps of a decode -/

/-- The header of a decode: an error, or CHUNKS with nothing produced and IPOS behind the header. -/
theorem engineInv_decodedHeader {s : State} (w v : Word32) (c cs : Byte) (ho : s.op = .decode) (hp : s.phase = .header)
    (hl : 14 ≤ s.inLen) (hs : lookup (hash s.prev) s = s.prev) (hd : DecodeInv s) :
    EngineInv (checkHeader (takeHeader w v c cs s)) := by
  rcases checkHeader_cases (takeHeader w v c cs s) with ⟨_, _, _, h⟩ | ⟨hw, hh, hc, hsize, hreq, h⟩ <;> rw [h]
  · exact engineInv_raise _ _ hs
  · obtain ⟨_, hpxi⟩ := hd.start hp
    have himage : ImageLegal { takeHeader w v c cs s with pxcount := w.toNat * v.toNat, phase := .chunks } :=
      ⟨hc, hw, hh, hsize, rfl⟩
    have hpos : s.pxi < w.toNat * v.toNat := hpxi ▸ pxcount_pos_of_imageLegal himage
    refine engineInv_of_decode ho hs ⟨fun _ => hpos, nofun⟩ ?_
    exact {
      reqch := hd.reqch
      run := hd.run
      start := nofun
      image := fun _ => ⟨himage, hreq⟩
      ipos := fun _ => ⟨Nat.le_refl _, hl⟩
      output := hd.output }

/-- A chunk of a decode keeps the invariant of the decode when IPOS moves on inside the input and the pixels stored are
as many as PXI counts. -/
theorem decodeInv_of_chunk {s t : State} (hi : DecodeInv s) (hp : s.phase = .chunks) (hd : SameDescriptor s t)
    (hrun : t.run = s.run) (hx : t.pxcount = s.pxcount) (hph : t.phase ≠ .header) (hge : s.ipos ≤ t.ipos)
    (hle : t.ipos ≤ s.inLen) (hout : Filled t.pixbuf (t.pxi * s.reqch.toNat)) : DecodeInv t := by
  have hne : s.phase ≠ .header := by simp [hp]
  obtain ⟨himage, hsize⟩ := hi.image hne
  exact {
    reqch := by rw [hd.reqch]; exact hi.reqch
    run := hrun.trans hi.run
    start := fun h => absurd h hph
    image := fun _ => ⟨imageLegal_congr hd hx himage, by rw [hd.width, hd.height, hd.reqch]; exact hsize⟩
    ipos := fun _ => ⟨(hi.ipos hne).1.trans hge, by rw [hd.inLen]; exact hle⟩
    output := by rw [hd.reqch]; exact hout }

/-- Pixels stored from PXI on lengthen the output of a decode by their own bytes. -/
theorem filled_stored {s : State} (hi : DecodeInv s) {n : Nat} {bs : List Byte}
    (hbs : bs.length = n * storedWidth s) :
    Filled (s.pixbuf.writeBytes (s.pxi * storedWidth s) bs) ((s.pxi + n) * s.reqch.toNat) := by
  rw [storedWidth_of_legal hi.reqch] at hbs ⊢
  rw [Nat.add_mul, ← hbs]
  exact filled_writeBytes bs hi.output

/-- A chunk of one pixel. -/
theorem engineInv_resolved {s : State} {len : Nat} (p : Pixel) (ho : s.op = .decode) (ha : atChunk s)
    (hl : s.ipos + len ≤ s.inLen) (hd : DecodeInv s) : EngineInv (nextChunk len (resolve p s)) := by
  obtain ⟨hp, hx⟩ := ha
  have hphase := resolved_phase (len := len) (p := p) hp
  have hout : Filled (nextChunk len (resolve p s)).pixbuf ((s.pxi + 1) * s.reqch.toNat) := by
    rw [nextChunk_pixbuf, resolve_pixbuf, storeOffset_eq]
    exact filled_stored hd (by rw [storedBytes_length, Nat.one_mul])
  refine engineInv_of_decode (by simpa using ho) (slot_of_update (p := p) (slots := s.cache) (by simp) (by simp))
    (phaseCounts_of_phaseAfter (by simpa using hphase) (by simpa using hx)) ?_
  exact decodeInv_of_chunk hd hp (sameDescriptor_resolved len p s) (by simp) (by simp)
    (by rw [hphase]; exact phaseAfter_ne_header _ _) (by simp) (by simpa using hl) (by simpa using hout)

/-- A RUN that fits: its N pixels may reach PXCOUNT and not pass it. -/
theorem engineInv_repeated {s : State} {n : Nat} (ho : s.op = .decode) (ha : atChunk s)
    (hl : s.ipos + 1 ≤ s.inLen) (hn : n ≤ s.pxcount - s.pxi) (hs : lookup (hash s.prev) s = s.prev)
    (hd : DecodeInv s) : EngineInv (nextChunk 1 (repeatPrev n s)) := by
  obtain ⟨hp, hx⟩ := ha
  have hphase := repeated_phase (len := 1) (n := n) hp
  have hout : Filled (nextChunk 1 (repeatPrev n s)).pixbuf ((s.pxi + n) * s.reqch.toNat) := by
    rw [nextChunk_pixbuf, repeatPrev_pixbuf]
    exact filled_stored hd (replicate_storedBytes_length n s.prev s)
  have hle : s.pxi + n ≤ s.pxcount := by omega
  refine engineInv_of_decode (by simpa using ho)
    (slot_of_same hs (by simp) (by rw [nextChunk_cache, repeatPrev_cache_of_slot n hs]))
    (phaseCounts_of_phaseAfter (by simpa using hphase) (by simpa using hle)) ?_
  exact decodeInv_of_chunk hd hp (sameDescriptor_repeated 1 n s) (by simp) (by simp)
    (by rw [hphase]; exact phaseAfter_ne_header _ _) (by simp) (by simpa using hl) (by simpa using hout)

/-! ### The steps of an encode -/

/-- The header of an encode: CHUNKS with no pixel produced, no run open and the 14 bytes emitted. -/
theorem engineInv_encodedHeader {s : State} {bs : List Byte} (hbs : bs.length = 14) (ho : s.op = .encode)
    (hp : s.phase = .header) (hs : lookup (hash s.prev) s = s.prev) (he : EncodeInv s) :
    EngineInv { emit bs s with phase := .chunks } := by
  obtain ⟨hopos, hpxi, hrun⟩ := he.start hp
  have hpos : s.pxi < s.pxcount := hpxi ▸ pxcount_pos_of_imageLegal he.image
  refine engineInv_of_encode ho hs ⟨fun _ => hpos, nofun⟩ ?_
  exact {
    image := imageLegal_congr (s := s) ⟨rfl, rfl, rfl, rfl, rfl, rfl, rfl, rfl⟩ rfl he.image
    inLen := he.inLen
    start := nofun
    opos := fun _ => by simp [hopos, hbs]
    run := he.run
    closed := nofun
    output := filled_writeBytes bs he.output }

/-- A run grows by one pixel at most, and is flushed before it holds 62. -/
theorem runAfter_le (p : Pixel) {s : State} (h : s.run ≤ 61) : runAfter p s ≤ 61 ∧ runAfter p s ≤ s.run + 1 := by
  unfold runAfter
  split <;> omega

/-- The last pixel leaves no run open. -/
theorem runAfter_last (p : Pixel) {s : State} (h : s.pxi + 1 = s.pxcount) : runAfter p s = 0 := by
  simp [runAfter, h]

/-- A pixel step of the encoder: PXI and RUN move on together, and the bytes emitted lengthen the output. -/
theorem engineInv_encodedPixel {s : State} (p : Pixel) (ho : s.op = .encode) (ha : atChunk s) (he : EncodeInv s) :
    EngineInv (endPixel { emit (pixelBytes p s) { s with cur := p } with run := runAfter p s }) := by
  obtain ⟨hp, hx⟩ := ha
  obtain ⟨hrun, hrunpxi⟩ := he.run
  have hphase := encodedPixel_phase (p := p) (n := runAfter p s) (bs := pixelBytes p s) hp
  have hcounts : PhaseCounts (endPixel { emit (pixelBytes p s) { s with cur := p } with run := runAfter p s }) :=
    phaseCounts_of_phaseAfter (by simpa using hphase) (by simpa using hx)
  have hd := sameDescriptor_encodedPixel p (runAfter p s) (pixelBytes p s) s
  have hopos : 14 ≤ s.opos := he.opos (by simp [hp])
  have hgrow := runAfter_le p hrun
  refine engineInv_of_encode (by simpa using ho) (slot_of_update (p := p) (slots := s.cache) (by simp) (by simp))
    hcounts ?_
  exact {
    image := imageLegal_congr hd (by simp) he.image
    inLen := by rw [hd.inLen, hd.width, hd.height, hd.channels]; exact he.inLen
    start := fun h => absurd (hphase.symm.trans h) (phaseAfter_ne_header _ _)
    opos := fun _ => hopos.trans (by simp)
    run := by rw [endPixel_run, endPixel_pxi]; exact ⟨hgrow.1, hgrow.2.trans (Nat.succ_le_succ hrunpxi)⟩
    closed := fun h => by simpa using runAfter_last p (by simpa using hcounts.marker h)
    output := by simpa using filled_writeBytes (pixelBytes p s) he.output }

/-! ### Every step -/

/-- Settles O50: by the cases of a step, each with the invariant of the operation it belongs to. -/
theorem engineInvariantIsKept : Obligations.EngineInvariantIsKept := by
  intro s t hi h
  cases step_cases h with
  | startedDecode _ _ ht => exact ht ▸ engineInv_startDecode s
  | startedEncode _ _ ht => exact ht ▸ engineInv_startEncode s
  | rested _ _ ht => exact ht ▸ hi
  | raised c pos _ _ _ _ ht => exact ht ▸ engineInv_raise c pos hi.slot
  | decodedHeader w v c cs _ ho hp _ hl ht =>
    exact ht ▸ engineInv_decodedHeader w v c cs ho hp hl hi.slot (hi.decode (.inl hp) ho)
  | resolved len p _ ho ha _ hl ht => exact ht ▸ engineInv_resolved p ho ha hl (hi.decode (.inr (.inl ha.1)) ho)
  | repeated n _ ho ha hl hn ht =>
    exact ht ▸ engineInv_repeated ho ha hl hn hi.slot (hi.decode (.inr (.inl ha.1)) ho)
  | decodedEnd _ _ _ _ ht => exact ht ▸ engineInv_finish _ _ hi.run hi.slot
  | chunksOver _ hp hx _ => exact absurd (hi.chunks hp) (by omega)
  | encodedHeader _ ho hp ht =>
    exact ht ▸ engineInv_encodedHeader (encode_length s.magic (.header s.width s.height s.channels s.colorspace))
      ho hp hi.slot (hi.encode (.inl hp) ho)
  | encodedPixel p _ ho ha _ ht => exact ht ▸ engineInv_encodedPixel p ho ha (hi.encode (.inr (.inl ha.1)) ho)
  | encodedEnd _ _ _ ht => exact ht ▸ engineInv_finish _ _ hi.run hi.slot

end Sys2Proof
end

section
/-! SUPPORT. Rules about the byte spaces of 20_memory.md: a step leaves the input space (R41), an encode from its launch
to its outcome, and the bytes that a pixel step emits (R54). -/

namespace Sys2Proof

open Machine

/-! ### The input space (R41) -/

/-- CMD, OP and the input space of OP are as before (R41). -/
structure InputKept (s t : State) : Prop where
  cmd : t.cmd = s.cmd
  op : t.op = s.op
  stream : s.op = .decode → t.stream = s.stream
  pixbuf : s.op = .encode → t.pixbuf = s.pixbuf

/-- A step that leaves STREAM keeps the input of a decode. -/
theorem InputKept.of_decode {s t : State} (ho : s.op = .decode) (hc : t.cmd = s.cmd) (hop : t.op = s.op)
    (hs : t.stream = s.stream) : InputKept s t :=
  ⟨hc, hop, fun _ => hs, fun h => by simp [ho] at h⟩

/-- A step that leaves PIXBUF keeps the input of an encode. -/
theorem InputKept.of_encode {s t : State} (ho : s.op = .encode) (hc : t.cmd = s.cmd) (hop : t.op = s.op)
    (hp : t.pixbuf = s.pixbuf) : InputKept s t :=
  ⟨hc, hop, fun h => by simp [ho] at h, fun _ => hp⟩

theorem InputKept.inputSpace_eq {s t : State} (h : InputKept s t) (hc : s.cmd = none) :
    inputSpace t = inputSpace s := by
  have hct : t.cmd = none := h.cmd.trans hc
  cases ho : s.op with
  | decode => rw [inputSpace_decode hc ho, inputSpace_decode hct (h.op.trans ho), h.stream ho]
  | encode => rw [inputSpace_encode hc ho, inputSpace_encode hct (h.op.trans ho), h.pixbuf ho]

theorem inputKept_checkHeader {s : State} (ho : s.op = .decode) : InputKept s (checkHeader s) := by
  rcases checkHeader_cases s with ⟨_, _, _, h⟩ | ⟨_, _, _, _, _, h⟩ <;> rw [h] <;>
    exact .of_decode ho rfl rfl rfl

/-- A step without a START keeps the input: a decode writes PIXBUF only, an encode STREAM only. -/
theorem step_inputKept {s t : State} (hc : s.cmd = none) (h : step s = .next t) : InputKept s t := by
  cases step_cases h with
  | startedDecode hc' => simp [hc] at hc'
  | startedEncode hc' => simp [hc] at hc'
  | rested _ _ ht => subst ht; exact ⟨rfl, rfl, fun _ => rfl, fun _ => rfl⟩
  | raised c pos _ ho _ _ ht => subst ht; exact .of_decode ho rfl rfl rfl
  | decodedHeader w v c cs _ ho _ _ _ ht =>
    obtain ⟨hcmd, hop, hstream, _⟩ := inputKept_checkHeader (s := takeHeader w v c cs s) ho
    exact .of_decode ho (ht ▸ hcmd) (ht ▸ hop) (ht ▸ hstream ho)
  | resolved len p _ ho _ _ _ ht => subst ht; exact .of_decode ho (by simp) (by simp) (by simp)
  | repeated n _ ho _ _ _ ht => subst ht; exact .of_decode ho (by simp) (by simp) (by simp)
  | decodedEnd _ ho _ _ ht => subst ht; exact .of_decode ho rfl rfl rfl
  | chunksOver _ _ _ ht => subst ht; exact ⟨rfl, rfl, fun _ => rfl, fun _ => rfl⟩
  | encodedHeader _ ho _ ht => subst ht; exact .of_encode ho rfl rfl rfl
  | encodedPixel p _ ho _ _ ht => subst ht; exact .of_encode ho (by simp) (by simp) (by simp)
  | encodedEnd _ ho _ ht => subst ht; exact .of_encode ho rfl rfl rfl

/-! ### Steps in a row -/

/-- What every step keeps holds after any number of steps. -/
theorem stepsFrom_keeps {P : State → Prop} (hP : ∀ s t, P s → step s = .next t → P t) {n : Nat} {s t : State}
    (hs : P s) (h : stepsFrom n s = .next t) : P t := by
  induction n generalizing s with
  | zero => cases h; exact hs
  | succ n ih =>
    rw [stepsFrom_succ, andThen_eq_next_iff] at h
    obtain ⟨u, hu, ht⟩ := h
    exact ih (hP s u hs hu) ht

/-! ### An encode from its launch to its outcome -/

/-- What the host leaves before an encode: `launchEncode_engine` names the same state. -/
def launchedEncode (m : Magic) (px : List Byte) (w h : Word32) (c cs : Byte) : State :=
  { engine m with
    pixbuf := Memory.ofBytes px, inLen := px.length, width := w, height := h, channels := c, colorspace := cs
    cmd := some .startEncode }

/-- The first step of an encode takes the START; an outcome of R184 is read from the state that all the others leave. -/
theorem encodeOperation_eq_iff {m : Magic} {px : List Byte} {w h : Word32} {c cs : Byte} {o : EncodeOutcome}
    (ho : o ≠ .unfinished) :
    encodeOperation m px w h c cs = o ↔
      ∃ t, stepsFrom (px.length + 2) (startEncode (launchedEncode m px w h c cs)) = .next t ∧ readEncode t = o := by
  have hstart : andThen (launchEncode px w h c cs (engine m)) (stepsFrom (px.length + 3)) =
      stepsFrom (px.length + 2) (startEncode (launchedEncode m px w h c cs)) := by
    rw [launchEncode_engine, andThen_next, stepsFrom_succ, step_of_cmd rfl]
    rfl
  rw [encodeOperation, hstart]
  cases stepsFrom (px.length + 2) (startEncode (launchedEncode m px w h c cs)) with
  | next t => simp
  | fault x => simp [ho.symm]
  | refused x => simp [ho.symm]

/-- The outcome of an encode is a stream exactly in DONE, with no error and the stream readable. -/
theorem readEncode_eq_ok_iff (s : State) (bs : List Byte) :
    readEncode s = .ok bs ↔ s.phase = .done ∧ s.err = 0 ∧ hostReadOutput s = some bs := by
  unfold readEncode
  split
  · rename_i px hp hr
    simp only [hp, hr, true_and, Option.some.injEq]
    by_cases he : s.err = 0
    · simp only [he, if_true, EncodeOutcome.ok.injEq, true_and]
    · simp only [he, if_false, reduceCtorEq, false_and]
  · rename_i hp _
    simp [hp]
  · rename_i hdone _
    simp only [reduceCtorEq, false_iff, not_and]
    exact fun hp _ hr => hdone bs hp hr

theorem length_of_hostReadOutput {s : State} {bs : List Byte} (h : hostReadOutput s = some bs) :
    bs.length = s.outLen := by
  unfold hostReadOutput at h
  split at h
  · split at h
    · rename_i cs hr
      cases h
      exact (holdsAt_of_readBytes hr).2
    · cases h
  · cases h

/-- A stream comes from a run of the engine that ends in DONE, and is as long as OUT_LEN says. -/
theorem encodeOperation_ok {m : Magic} {px stream : List Byte} {w h : Word32} {c cs : Byte}
    (hok : encodeOperation m px w h c cs = .ok stream) :
    ∃ t, stepsFrom (px.length + 2) (startEncode (launchedEncode m px w h c cs)) = .next t ∧
      t.phase = .done ∧ stream.length = t.outLen := by
  obtain ⟨t, hrun, hread⟩ := (encodeOperation_eq_iff (o := .ok stream) nofun).mp hok
  obtain ⟨hdone, _, hout⟩ := (readEncode_eq_ok_iff t stream).mp hread
  exact ⟨t, hrun, hdone, length_of_hostReadOutput hout⟩

/-- What START_ENCODE leaves: the header phase or an error, OP and no START waiting, and the image the host gave. -/
theorem startEncode_spec (s : State) :
    ((startEncode s).phase = .header ∨ (startEncode s).phase = .error) ∧ (startEncode s).op = .encode ∧
      (startEncode s).cmd = none ∧ (startEncode s).width = s.width ∧ (startEncode s).height = s.height ∧
      (startEncode s).channels = s.channels := by
  rw [startEncode]
  rcases validateEncode_cases { initOperation s with op := .encode, stream := [] } with
    ⟨_, _, _, h⟩ | ⟨_, _, _, _, _, h⟩ <;> rw [h] <;> simp

/-- An encode of an image of w by h pixels and c channels, its START taken, that runs or has ended. -/
structure EncodeOf (w h : Word32) (c : Byte) (s : State) : Prop where
  cmd : s.cmd = none
  op : s.op = .encode
  width : s.width = w
  height : s.height = h
  channels : s.channels = c
  engine : EngineInv s

theorem encodeOf_startEncode (s : State) : EncodeOf s.width s.height s.channels (startEncode s) := by
  obtain ⟨_, hop, hcmd, hw, hh, hc⟩ := startEncode_spec s
  exact ⟨hcmd, hop, hw, hh, hc, engineInv_startEncode s⟩

/-- A step of an encode leaves the descriptor. -/
theorem step_descriptor_encode {s t : State} (hc : s.cmd = none) (ho : s.op = .encode) (h : step s = .next t) :
    SameDescriptor s t := by
  rcases step_descriptor h with ⟨hn, _⟩ | ⟨hd, _⟩ | hd
  · exact absurd hc hn
  · simp [ho] at hd
  · exact hd

theorem encodeOf_step {w h : Word32} {c : Byte} {s t : State} (hs : EncodeOf w h c s) (hst : step s = .next t) :
    EncodeOf w h c t := by
  have hd := step_descriptor_encode hs.cmd hs.op hst
  have hk := step_inputKept hs.cmd hst
  exact ⟨hk.cmd.trans hs.cmd, hd.op.trans hs.op, hd.width.trans hs.width, hd.height.trans hs.height,
    hd.channels.trans hs.channels, engineInvariantIsKept s t hs.engine hst⟩

/-! ### The bytes of a pixel step (R54) -/

/-- A pixel of a 3-channel image has alpha 255. -/
theorem loadPixel_alpha {i : Nat} {s : State} {p : Pixel} (hc : s.channels ≠ 4) (h : loadPixel i s = .pixel p) :
    p.a = alphaDefault := by
  rw [loadPixel, if_neg hc] at h
  split at h <;> cases h
  rfl

/-- The pixel's own chunk has at most 5 bytes, and at most 4 where alpha is PREV's. -/
theorem chooseItem_length_le (cur prev : Pixel) (cache : Cache) :
    (chooseItem cur prev cache).length ≤ 5 ∧ (cur.a = prev.a → (chooseItem cur prev cache).length ≤ 4) := by
  rcases chooseItem_cases cur prev cache with
    ⟨_, h⟩ | ⟨_, _, ⟨_, h⟩ | ⟨_, _, h⟩ | ⟨_, _, h⟩⟩ | ⟨_, ha, h⟩ <;> rw [h]
  case inr.inr => exact ⟨Nat.le_refl 5, fun e => absurd e ha⟩
  all_goals simp [Instr.length]

/-- The three outcomes of a pixel step: the run is flushed, it grows, or the pixel's own chunk follows an open run's. -/
theorem pixelBytes_cases (p : Pixel) (s : State) :
    ((pixelBytes p s).length = 1 ∧ runAfter p s = 0) ∨
    ((pixelBytes p s).length = 0 ∧ runAfter p s = s.run + 1) ∨
    ((pixelBytes p s).length = min s.run 1 + (chooseItem p s.prev s.cache).length ∧ runAfter p s = 0) := by
  unfold pixelBytes runAfter
  by_cases he : p = s.prev
  · rw [if_pos he]
    by_cases hf : s.run + 1 = 62 ∨ s.pxi + 1 = s.pxcount
    · rw [if_pos hf, if_neg fun e => e.2 hf]
      exact .inl ⟨rfl, rfl⟩
    · rw [if_neg hf, if_pos ⟨he, hf⟩]
      exact .inr (.inl ⟨rfl, rfl⟩)
  · have hopen : (if 0 < s.run then encode s.magic (.run s.run) else []).length = min s.run 1 := by
      split
      · rw [encode_length, Instr.length]
        omega
      · rw [List.length_nil]
        omega
    rw [if_neg he, List.length_append, encode_length, hopen, if_neg fun e => he e.1]
    exact .inr (.inr ⟨rfl, rfl⟩)

/-- A pixel step emits a byte or leaves a run open. -/
theorem pixelBytes_length_pos (p : Pixel) (s : State) : 1 ≤ (pixelBytes p s).length + runAfter p s := by
  have hpos := Instr.length_pos (chooseItem p s.prev s.cache)
  rcases pixelBytes_cases p s with ⟨hl, hr⟩ | ⟨hl, hr⟩ | ⟨hl, hr⟩ <;> omega

/-- Counting an open run as the byte it will take, a pixel step adds no more than the pixel's own chunk may have. -/
theorem pixelBytes_length_le {p : Pixel} {s : State} {k : Nat} (hk : (chooseItem p s.prev s.cache).length ≤ k) :
    (pixelBytes p s).length + min (runAfter p s) 1 ≤ min s.run 1 + k := by
  have hpos := Instr.length_pos (chooseItem p s.prev s.cache)
  rcases pixelBytes_cases p s with ⟨hl, hr⟩ | ⟨hl, hr⟩ | ⟨hl, hr⟩ <;> omega

/-- The most that the chunks of the first PXI pixels may take: 5 bytes each; in a 3-channel image 4 each, and one more
from the first pixel on, which gives PREV the alpha of all the others (R54; 42_encoder.md R154). -/
def chunkBudget (s : State) : Nat :=
  if s.channels = 3 then 4 * s.pxi + (if s.prev.a = alphaDefault then 1 else 0) else 5 * s.pxi

/-- A pixel step stays within what the budget grows by. -/
theorem pixelBytes_length_le_budget {p : Pixel} {s t : State} (hp : loadPixel s.pxi s = .pixel p)
    (hc : t.channels = s.channels) (hx : t.pxi = s.pxi + 1) (hv : t.prev = p) :
    (pixelBytes p s).length + min (runAfter p s) 1 + chunkBudget s ≤ min s.run 1 + chunkBudget t := by
  obtain ⟨h5, h4⟩ := chooseItem_length_le p s.prev s.cache
  unfold chunkBudget
  rw [hc, hx, hv]
  by_cases h3 : s.channels = 3
  · have ha : p.a = alphaDefault := loadPixel_alpha (by simp [h3]) hp
    rw [if_pos h3, if_pos h3, if_pos ha]
    by_cases hprev : s.prev.a = alphaDefault
    · have hle := pixelBytes_length_le (h4 (ha.trans hprev.symm))
      rw [if_pos hprev]
      omega
    · have hle := pixelBytes_length_le h5
      rw [if_neg hprev]
      omega
  · have hle := pixelBytes_length_le h5
    rw [if_neg h3, if_neg h3]
    omega

/-! ### The length of the stream (R54) -/

/-- The bounds of a stream of n bytes for an image of the given pixels. -/
structure StreamLengthWithin (c : Byte) (pixels n : Nat) : Prop where
  atLeast : 23 ≤ n
  atMost : n ≤ 22 + 5 * pixels
  atMostRgb : c = 3 → n ≤ 22 + 4 * pixels + 1

/-- OPOS of a running encode is within the budget, an open run counted as the byte it will take, and behind the first
chunk once all pixels are done; OUT_LEN is within the bounds of the stream. -/
structure LengthInv (s : State) : Prop where
  chunks : s.phase = .chunks ∨ s.phase = .endMarker → s.opos + min s.run 1 ≤ headerLen + chunkBudget s
  marker : s.phase = .endMarker → headerLen + 1 ≤ s.opos
  done : s.phase = .done → StreamLengthWithin s.channels (s.width.toNat * s.height.toNat) s.outLen

/-- The budget of a whole image, the end marker added, is within the bounds of the stream. -/
theorem streamLengthWithin_of_budget {s : State} (hi : ImageLegal s) (hx : s.pxi = s.pxcount)
    (hl : headerLen + 1 ≤ s.opos) (hu : s.opos ≤ headerLen + chunkBudget s) :
    StreamLengthWithin s.channels (s.width.toNat * s.height.toNat) (s.opos + 8) := by
  have hpos : 0 < s.pxi := hx ▸ pxcount_pos_of_imageLegal hi
  rw [← hi.pxcount, ← hx]
  unfold headerLen at hl hu
  unfold chunkBudget at hu
  by_cases h3 : s.channels = 3
  · rw [if_pos h3] at hu
    have hone : (if s.prev.a = alphaDefault then 1 else 0) ≤ 1 := by split <;> omega
    exact ⟨by omega, by omega, fun _ => by omega⟩
  · rw [if_neg h3] at hu
    exact ⟨by omega, by omega, fun h => absurd h h3⟩

/-- The header leaves OPOS behind its 14 bytes, with no run open. -/
theorem lengthInv_encodedHeader {s : State} {bs : List Byte} (hbs : bs.length = headerLen) (ho : s.opos = 0)
    (hr : s.run = 0) : LengthInv { emit bs s with phase := .chunks } where
  chunks _ := by simp [ho, hr, hbs]
  marker := nofun
  done := nofun

/-- A pixel step grows OPOS no more than the budget, and the last one leaves OPOS behind a chunk. -/
theorem lengthInv_of_pixel {s t : State} {p : Pixel} (ha : atChunk s) (hp : loadPixel s.pxi s = .pixel p)
    (he : EncodeInv s) (hi : LengthInv s) (hphase : t.phase = phaseAfter (s.pxi + 1) s.pxcount)
    (hopos : t.opos = s.opos + (pixelBytes p s).length) (hrun : t.run = runAfter p s)
    (hc : t.channels = s.channels) (hx : t.pxi = s.pxi + 1) (hv : t.prev = p) : LengthInv t where
  chunks _ := by
    have hbefore := hi.chunks (.inl ha.1)
    have hstep := pixelBytes_length_le_budget hp hc hx hv
    omega
  marker h := by
    have hstart : headerLen ≤ s.opos := he.opos (by simp [ha.1])
    have hbytes := pixelBytes_length_pos p s
    rcases phaseAfter_cases (s.pxi + 1) s.pxcount with ⟨_, hk⟩ | ⟨hge, _⟩
    · simp [hphase, hk] at h
    · rw [runAfter_last p (Nat.le_antisymm ha.2 hge)] at hbytes
      omega
  done h := by
    rcases phaseAfter_cases (s.pxi + 1) s.pxcount with ⟨_, hk⟩ | ⟨_, hk⟩ <;> simp [hphase, hk] at h

/-- The end marker, emitted behind the last chunk, makes the stream. -/
theorem lengthInv_encodedEnd {s : State} (hp : s.phase = .endMarker) (hx : s.pxi = s.pxcount) (he : EncodeInv s)
    (hi : LengthInv s) : LengthInv (endEncode s) where
  chunks h := by simp [endEncode] at h
  marker h := by simp [endEncode] at h
  done _ := by
    have hle := hi.chunks (.inr hp)
    simp only [he.closed hp, Nat.zero_min, Nat.add_zero] at hle
    exact streamLengthWithin_of_budget he.image hx (hi.marker hp) hle

theorem lengthInv_step {w h : Word32} {c : Byte} {s t : State} (hs : EncodeOf w h c s) (hi : LengthInv s)
    (hst : step s = .next t) : LengthInv t := by
  have he : Running s → EncodeInv s := fun hr => hs.engine.encode hr hs.op
  have hd : s.op ≠ .decode := by simp [hs.op]
  cases step_cases hst with
  | startedDecode hc => simp [hs.cmd] at hc
  | startedEncode hc => simp [hs.cmd] at hc
  | rested _ _ ht => exact ht ▸ hi
  | raised _ _ _ ho => exact absurd ho hd
  | decodedHeader _ _ _ _ _ ho => exact absurd ho hd
  | resolved _ _ _ ho => exact absurd ho hd
  | repeated _ _ ho => exact absurd ho hd
  | decodedEnd _ ho => exact absurd ho hd
  | chunksOver _ hp hx _ => exact absurd (hs.engine.chunks hp) (by omega)
  | encodedHeader _ _ hp ht =>
    obtain ⟨hopos, _, hrun⟩ := (he (.inl hp)).start hp
    exact ht ▸ lengthInv_encodedHeader rfl hopos hrun
  | encodedPixel p _ _ ha hl ht =>
    subst ht
    exact lengthInv_of_pixel ha hl (he (.inr (.inl ha.1))) hi (encodedPixel_phase ha.1) (by simp) (by simp) (by simp)
      (by simp) (by simp)
  | encodedEnd _ _ hp ht => exact ht ▸ lengthInv_encodedEnd hp (hs.engine.marker hp) (he (.inr (.inr hp))) hi

/-- START_ENCODE has emitted nothing. -/
theorem lengthInv_startEncode (s : State) : LengthInv (startEncode s) := by
  obtain ⟨hp | hp, _⟩ := startEncode_spec s <;> constructor <;> simp [hp]

end Sys2Proof
end

section
/-! PROOF. The obligations of 20_memory.md: the length of an encoder's output (R54) and the input space (R41). -/

namespace Sys2Proof

open Machine

/-- Settles O56: every step of the encode keeps OPOS within the budget of its pixels, an open run counted as a
byte. -/
theorem encodedLengthIsBounded : Obligations.EncodedLengthIsBounded := by
  intro m px stream w h c cs hok
  obtain ⟨t, hrun, hdone, hlen⟩ := encodeOperation_ok hok
  obtain ⟨ht, hinv⟩ : EncodeOf w h c t ∧ LengthInv t :=
    stepsFrom_keeps (P := fun s => EncodeOf w h c s ∧ LengthInv s)
      (fun _ _ ⟨hs, hi⟩ hst => ⟨encodeOf_step hs hst, lengthInv_step hs hi hst⟩)
      ⟨encodeOf_startEncode (launchedEncode m px w h c cs), lengthInv_startEncode _⟩ hrun
  obtain ⟨hge, hle, hrgb⟩ := hinv.done hdone
  rw [ht.width, ht.height, ← hlen] at hle hrgb
  exact ⟨hlen ▸ hge, hle, fun hc => hrgb (ht.channels.trans hc)⟩

/-- Settles O46: a decode writes PIXBUF only and an encode STREAM only, so the input space is the same. -/
theorem inputSpaceIsNeverWritten : Obligations.InputSpaceIsNeverWritten := by
  intro s t hc h
  have hk := step_inputKept hc h
  exact ⟨hk.op, hk.inputSpace_eq hc ▸ sameBytes_refl _⟩

end Sys2Proof
end

section
/-! SUPPORT. Rules about the bytes of the items of 30_encoding.md: the six bit patterns of a chunk (R63 to R68), which
the decoder reads and the encoder writes, and the two framing items (R61, R62). -/

namespace Sys2Proof

/-! ### The six chunk patterns -/

/-- The bytes are the chunk: the tables of R63 to R68, each field by the unsigned value it stores. -/
inductive ChunkPattern : List Byte → Instr → Prop
  /-- `11111110`, then three channels (R63). -/
  | rgb (r g b : Byte) : ChunkPattern [0xFE, r, g, b] (.rgb r g b)
  /-- `11111111`, then four channels (R64). -/
  | rgba (r g b a : Byte) : ChunkPattern [0xFF, r, g, b, a] (.rgba r g b a)
  /-- `00xxxxxx` (R65). -/
  | index {b0 : Byte} (k : Index) (h0 : b0.toNat = k.val) : ChunkPattern [b0] (.index k)
  /-- `01rrggbb`, bias 2 (R66, R69). -/
  | diff {b0 : Byte} (x y z : Nat) (hx : x < 4) (hy : y < 4) (hz : z < 4) (h0 : b0.toNat = 64 + x * 16 + y * 4 + z) :
      ChunkPattern [b0] (.diff (x - 2) (y - 2) (z - 2))
  /-- `10gggggg rrrrbbbb`, bias 32 and bias 8 (R67, R69). -/
  | luma {b0 b1 : Byte} (x y z : Nat) (hx : x < 64) (hy : y < 16) (hz : z < 16) (h0 : b0.toNat = 128 + x)
      (h1 : b1.toNat = y * 16 + z) : ChunkPattern [b0, b1] (.luma (x - 32) (y - 8) (z - 8))
  /-- `11xxxxxx` with a field of at most 61, the length less one (R68, R69). -/
  | run {b0 : Byte} (x : Nat) (hx : x < 62) (h0 : b0.toNat = 192 + x) : ChunkPattern [b0] (.run (x + 1))

theorem encodeLumaBytes_eq {x y z : Nat} {b0 b1 : Byte} (hx : x < 64)
    (h0 : b0.toNat = 128 + x) (h1 : b1.toNat = y * 16 + z) : encodeLumaBytes (x - 32) (y - 8) (z - 8) = [b0, b1] := by
  have e0 := toNat_ofInt_byte (x := 0x80 + (x - 32 + lumaGreenBias)) (n := 128 + x) (by simp [lumaGreenBias]) (by omega)
  have e1 := toNat_ofInt_byte (x := (y - 8 + lumaRelBias) * 16 + (z - 8 + lumaRelBias)) (n := y * 16 + z)
    (by simp [lumaRelBias]) (h1 ▸ b1.isLt)
  rw [encodeLumaBytes, BitVec.eq_of_toNat_eq (e0.trans h0.symm), BitVec.eq_of_toNat_eq (e1.trans h1.symm)]

namespace ChunkPattern

variable {cs : List Byte} {i : Instr}

theorem place_eq (h : ChunkPattern cs i) : i.place = .atChunk := by cases h <;> rfl

theorem wf (h : ChunkPattern cs i) : i.wf = true := by
  cases h with
  | rgb | rgba | index => rfl
  | diff => simp only [Instr.wf, inDiffRange, Bool.and_eq_true, decide_eq_true_eq]; omega
  | luma => simp only [Instr.wf, inLumaGreenRange, inLumaRelRange, Bool.and_eq_true, decide_eq_true_eq]; omega
  | run => simp only [Instr.wf, inRunRange, decide_eq_true_eq]; omega

/-- A chunk has one pattern: the bytes the encoder writes (R75). -/
theorem encode_eq (h : ChunkPattern cs i) (m : Magic) : encode m i = cs := by
  cases h with
  | rgb | rgba => rfl
  | @index b0 k h0 => rw [encode, ← h0, BitVec.ofNat_toNat, BitVec.setWidth_eq]
  | diff x y z hx hy hz h0 =>
    rw [encode, BitVec.eq_of_toNat_eq ((encodeDiffByte_toNat rfl rfl rfl hx hy hz).trans h0.symm)]
  | luma x y z hx hy hz h0 h1 => exact encodeLumaBytes_eq hx h0 h1
  | @run b0 x hx h0 =>
    have hb : (encodeRunByte (x + 1)).toNat = b0.toNat := by rw [encodeRunByte_toNat] <;> omega
    rw [encode, BitVec.eq_of_toNat_eq hb]

/-- The decoder reads a pattern as its chunk, whatever bytes follow. -/
theorem decodeChunk_append (h : ChunkPattern cs i) (rest : List Byte) : decodeChunk (cs ++ rest) = .item i rest := by
  cases h with
  | rgb => exact decodeChunk_rgb _
  | rgba => exact decodeChunk_rgba _
  | @index b0 k h0 =>
    rw [List.singleton_append, decodeChunk_index _ (h0 ▸ k.isLt), decodeIndex, bits_5_0, h0]
    simp [Nat.mod_eq_of_lt k.isLt]
  | @diff b0 x y z hx hy hz h0 =>
    rw [List.singleton_append, decodeChunk_diff _ (by omega), decodeDiff, bits_5_4, bits_3_2, bits_1_0,
      show b0.toNat / 16 % 4 = x by omega, show b0.toNat / 4 % 4 = y by omega, show b0.toNat % 4 = z by omega]
    rfl
  | @luma b0 b1 x y z hx hy hz h0 h1 =>
    rw [List.cons_append, decodeChunk_luma _ (by omega), List.singleton_append, decodeLuma, bits_5_0, bits_7_4,
      bits_3_0, show b0.toNat % 64 = x by omega, show b1.toNat / 16 = y by omega, show b1.toNat % 16 = z by omega]
    rfl
  | @run b0 x hx h0 =>
    rw [List.singleton_append, decodeChunk_run _ (by omega), decodeRun, bits_5_0, show b0.toNat % 64 = x by omega]

end ChunkPattern

/-- What is decoded as a chunk was read from its pattern. -/
theorem chunkPattern_of_decodeChunk {bs rest : List Byte} {i : Instr} (h : decodeChunk bs = .item i rest) :
    ∃ cs, ChunkPattern cs i ∧ bs = cs ++ rest := by
  cases bs with
  | nil => cases h
  | cons b0 t =>
    rcases firstByte_cases b0 with rfl | rfl | h0 | h0 | h0 | h0
    · rw [decodeChunk_rgb, decodeRgb.eq_def] at h
      split at h <;> cases h
      exact ⟨_, .rgb _ _ _, rfl⟩
    · rw [decodeChunk_rgba, decodeRgba.eq_def] at h
      split at h <;> cases h
      exact ⟨_, .rgba _ _ _ _, rfl⟩
    · rw [decodeChunk_index t h0] at h
      cases h
      exact ⟨_, .index _ (by rw [Fin.val_ofNat, bits_5_0]; omega), rfl⟩
    · rw [decodeChunk_diff t h0] at h
      cases h
      exact ⟨_, .diff _ _ _ (bits_lt ..) (bits_lt ..) (bits_lt ..) (by rw [bits_5_4, bits_3_2, bits_1_0]; omega),
        rfl⟩
    · rw [decodeChunk_luma t h0, decodeLuma.eq_def] at h
      split at h <;> cases h
      exact ⟨_, .luma _ _ _ (bits_lt ..) (bits_lt ..) (bits_lt ..) (by rw [bits_5_0]; omega)
        (by rw [bits_7_4, bits_3_0]; omega), rfl⟩
    · rw [decodeChunk_run t h0] at h
      cases h
      exact ⟨_, .run _ (by rw [bits_5_0]; omega) (by rw [bits_5_0]; omega), rfl⟩

/-- An operand that its bias brings into the range of the field is a stored value less the bias (R69). -/
theorem exists_field {d bias : Int} {n : Nat} (h0 : 0 ≤ d + bias) (hn : d + bias < n) :
    ∃ x : Nat, x < n ∧ d = x - bias :=
  ⟨(d + bias).toNat, by omega, by omega⟩

/-- Every well-formed chunk has a pattern (R69, R77). -/
theorem exists_chunkPattern {i : Instr} (hp : i.place = .atChunk) (hw : i.wf = true) : ∃ cs, ChunkPattern cs i := by
  cases i with
  | rgb r g b => exact ⟨_, .rgb r g b⟩
  | rgba r g b a => exact ⟨_, .rgba r g b a⟩
  | index k => exact ⟨[BitVec.ofNat 8 k.val], .index k (by rw [BitVec.toNat_ofNat]; omega)⟩
  | diff dr dg db =>
    simp only [Instr.wf, inDiffRange, Bool.and_eq_true, decide_eq_true_eq] at hw
    obtain ⟨x, hx, rfl⟩ := exists_field (d := dr) (bias := 2) (n := 4) (by omega) (by omega)
    obtain ⟨y, hy, rfl⟩ := exists_field (d := dg) (bias := 2) (n := 4) (by omega) (by omega)
    obtain ⟨z, hz, rfl⟩ := exists_field (d := db) (bias := 2) (n := 4) (by omega) (by omega)
    exact ⟨[BitVec.ofNat 8 (64 + x * 16 + y * 4 + z)], .diff x y z hx hy hz (by rw [BitVec.toNat_ofNat]; omega)⟩
  | luma dg drdg dbdg =>
    simp only [Instr.wf, inLumaGreenRange, inLumaRelRange, Bool.and_eq_true, decide_eq_true_eq] at hw
    obtain ⟨x, hx, rfl⟩ := exists_field (d := dg) (bias := 32) (n := 64) (by omega) (by omega)
    obtain ⟨y, hy, rfl⟩ := exists_field (d := drdg) (bias := 8) (n := 16) (by omega) (by omega)
    obtain ⟨z, hz, rfl⟩ := exists_field (d := dbdg) (bias := 8) (n := 16) (by omega) (by omega)
    exact ⟨[BitVec.ofNat 8 (128 + x), BitVec.ofNat 8 (y * 16 + z)],
      .luma x y z hx hy hz (by rw [BitVec.toNat_ofNat]; omega) (by rw [BitVec.toNat_ofNat]; omega)⟩
  | run n =>
    simp only [Instr.wf, inRunRange, decide_eq_true_eq] at hw
    obtain ⟨x, rfl⟩ := Nat.exists_eq_add_of_le' hw.1
    exact ⟨[BitVec.ofNat 8 (192 + x)], .run x (by omega) (by rw [BitVec.toNat_ofNat]; omega)⟩
  | header w h c cs => cases hp
  | endMarker => cases hp

/-- The encoder writes a well-formed chunk as its pattern (R75). -/
theorem chunkPattern_encode {i : Instr} (m : Magic) (hp : i.place = .atChunk) (hw : i.wf = true) :
    ChunkPattern (encode m i) i := by
  obtain ⟨cs, h⟩ := exists_chunkPattern hp hw
  rwa [h.encode_eq m]

/-! ### The framing items -/

theorem decodeHeader_encode (m : Magic) (w h : Word32) (c cs : Byte) (rest : List Byte) :
    decodeHeader m (encode m (.header w h c cs) ++ rest) = .item (.header w h c cs) rest := by
  rw [encode, encodeHeader, List.append_assoc, List.append_assoc, List.append_assoc, decodeHeader, compareBytes_append]
  simp only [bytesOfWord, List.cons_append, List.nil_append, decodeHeaderFields, be32_bytesOfWord]

theorem decodeEnd_encode (m : Magic) (rest : List Byte) :
    decodeEnd (encode m .endMarker ++ rest) = .item .endMarker rest := by
  rw [encode, decodeEnd, compareBytes_append]

/-- The bytes a header is read from are those it is encoded to. -/
theorem encode_of_decodeHeader {m : Magic} {bs rest : List Byte} {i : Instr} (h : decodeHeader m bs = .item i rest) :
    encode m i ++ rest = bs := by
  rw [decodeHeader.eq_def] at h
  split at h
  · next hc =>
    rw [compareBytes_same hc]
    rw [decodeHeaderFields.eq_def] at h
    split at h <;> cases h
    simp [encode, encodeHeader, bytesOfWord_be32]
  · cases h
  · cases h

/-- The bytes an end marker is read from are those it is encoded to. -/
theorem encode_of_decodeEnd {bs rest : List Byte} {i : Instr} (m : Magic) (h : decodeEnd bs = .item i rest) :
    encode m i ++ rest = bs := by
  rw [decodeEnd.eq_def] at h
  split at h <;> cases h
  next hc => exact (compareBytes_same hc).symm

/-! ### An item at its place -/

/-- Serialising a well-formed item and parsing at its place gives it back, with the bytes after it (R76). -/
theorem decodeAt_encode (m : Magic) {i : Instr} (rest : List Byte) (hw : i.wf = true) :
    decodeAt i.place m (encode m i ++ rest) = .item i rest := by
  cases i with
  | header w h c cs => exact decodeHeader_encode m w h c cs rest
  | endMarker => exact decodeEnd_encode m rest
  | _ => exact (chunkPattern_encode m rfl hw).decodeChunk_append rest

/-- What parsing gives is well formed, of its place, and encoded to the bytes it was parsed from (R76). -/
theorem decodeAt_item {m : Magic} {p : Place} {bs rest : List Byte} {i : Instr} (h : decodeAt p m bs = .item i rest) :
    i.wf = true ∧ i.place = p ∧ encode m i ++ rest = bs := by
  cases p with
  | atHeader =>
    obtain ⟨⟨w, v, c, cs, rfl⟩, _⟩ := decodeHeader_spec h
    exact ⟨rfl, rfl, encode_of_decodeHeader h⟩
  | atChunk =>
    obtain ⟨cs, hc, rfl⟩ := chunkPattern_of_decodeChunk h
    exact ⟨hc.wf, hc.place_eq, by rw [hc.encode_eq]⟩
  | atEnd =>
    have hm := encode_of_decodeEnd m h
    obtain rfl := decodeEnd_spec h
    exact ⟨rfl, rfl, hm⟩

/-! ### The first byte (R70) -/

/-- Five bytes are enough for any chunk. -/
theorem exists_item_of_five (b0 b1 b2 b3 b4 : Byte) : ∃ i rest, decodeChunk [b0, b1, b2, b3, b4] = .item i rest := by
  rcases firstByte_cases b0 with rfl | rfl | h | h | h | h
  · exact ⟨_, _, decodeChunk_rgb _⟩
  · exact ⟨_, _, decodeChunk_rgba _⟩
  · exact ⟨_, _, decodeChunk_index _ h⟩
  · exact ⟨_, _, decodeChunk_diff _ h⟩
  · exact ⟨_, _, decodeChunk_luma _ h⟩
  · exact ⟨_, _, decodeChunk_run _ h⟩

end Sys2Proof
end

section
/-! SUPPORT. What a chunk out of its place comes to, in both operations (R60, R62). -/

namespace Sys2Proof.Machine

/-- The chunks are the five kinds of one pixel and RUN. -/
theorem onePixel_or_run {i : Instr} (hp : i.place = .atChunk) : i.onePixel = true ∨ ∃ n, i = .run n := by
  cases i with
  | rgb | rgba | index | diff | luma => exact .inl rfl
  | run n => exact .inr ⟨n, rfl⟩
  | header | endMarker => cases hp

theorem resolveChunk_of_not_atChunk {s : State} (len : Nat) (p : Pixel) (h : ¬ atChunk s) :
    resolveChunk len p s = .refused .outOfPlace := if_neg h

theorem emitChunk_of_not_atChunk {s : State} (i : Instr) (h : ¬ atChunk s) :
    emitChunk i s = .refused .outOfPlace := if_neg h

theorem repeatChunk_of_not_atChunk {s : State} (n : Nat) (h : ¬ atChunk s) :
    repeatChunk n s = .refused .outOfPlace := if_neg h

theorem flushRun_of_not_atChunk {s : State} (n : Nat) (h : ¬ atChunk s) :
    flushRun n s = .refused .outOfPlace := by
  rw [flushRun, emitChunk_of_not_atChunk _ h, andThen_refused]

/-- A chunk is refused where no chunk stands. -/
theorem exec_chunk_of_not_atChunk {i : Instr} {s : State} (hp : i.place = .atChunk) (h : ¬ atChunk s) :
    exec i s = .refused .outOfPlace := by
  rcases onePixel_or_run hp with hi | ⟨n, rfl⟩
  · cases ho : s.op with
    | decode =>
      obtain ⟨p, he⟩ := exec_onePixel_decode hi ho
      rw [he, resolveChunk_of_not_atChunk _ _ h]
    | encode => rw [exec_onePixel_encode hi ho, emitChunk_of_not_atChunk _ h]
  · cases ho : s.op with
    | decode => simp only [exec, execRun, ho, repeatChunk_of_not_atChunk n h]
    | encode => simp only [exec, execRun, ho, flushRun_of_not_atChunk n h]

end Sys2Proof.Machine
end

section
/-! PROOF. The obligations of 30_encoding.md: parsing and serialising (R76), the first byte (R70), the patterns of R63
to R68, and an item out of its place (R60, R62). -/

namespace Sys2Proof

open Machine

/-- Settles O1: the encoder writes exactly the bytes the decoder reads, item by item. -/
theorem decodeAndEncodeAreInverse : Obligations.DecodeAndEncodeAreInverse :=
  ⟨fun m _ rest hw => decodeAt_encode m rest hw, fun _ _ _ _ _ h => decodeAt_item h⟩

/-- Settles O3: a chunk is read from its pattern, whose first byte lies in one of the six sets. -/
theorem firstByteTellsTheKind : Obligations.FirstByteTellsTheKind := by
  refine ⟨fun b0 t rest i h => ?_, exists_item_of_five⟩
  obtain ⟨cs, hc, hbs⟩ := chunkPattern_of_decodeChunk h
  cases hc with
  | rgb | rgba =>
    obtain ⟨rfl, -⟩ := List.cons.inj hbs
    simp
  | index | diff | luma | run =>
    obtain ⟨rfl, -⟩ := List.cons.inj hbs
    grind [byte_eq_iff]

/-- Settles O2: each word is the pattern of its item, with the fields named. -/
theorem specWordsDecodeAsWritten : Obligations.SpecWordsDecodeAsWritten :=
  ⟨(ChunkPattern.rgb 100 200 7).decodeChunk_append [],
    (ChunkPattern.rgba 10 10 10 255).decodeChunk_append [],
    (ChunkPattern.index (b0 := 0b00001011) 11 rfl).decodeChunk_append [],
    (ChunkPattern.diff (b0 := 0b01001011) 0 2 3 (by decide) (by decide) (by decide) rfl).decodeChunk_append [],
    (ChunkPattern.luma (b0 := 0b10000000) (b1 := 0b00001111) 0 0 15 (by decide) (by decide) (by decide) rfl
      rfl).decodeChunk_append [],
    (ChunkPattern.run (b0 := 0b11111101) 61 (by decide) rfl).decodeChunk_append []⟩

/-- Settles O31: HEADER and END test PHASE before anything else, and every chunk tests that a chunk stands next. -/
theorem itemOutOfPlaceIsRefused : Obligations.ItemOutOfPlaceIsRefused := by
  intro i s h
  cases i with
  | header w v c cs => exact if_neg h
  | endMarker => exact if_neg h
  | _ => exact exec_chunk_of_not_atChunk rfl h

end Sys2Proof
end

section
/-! SUPPORT. Rules about the pixel cache and the predictor of 40_cache_predictor.md: what one step does to PREV and CACHE
(R93 to R97), the sum of `hash` in narrow arithmetic (R91) and the deltas of a channel (R99, R100). -/

namespace Sys2Proof

open Machine

/-! ### PREV and CACHE in one step (R93 to R97) -/

/-- What one step does to PREV and CACHE together: a START clears both, a committed pixel goes to PREV and to the slot of
its hash, and everything else leaves both. -/
inductive PredictorMove (s t : State) : Prop where
  | cleared (hp : t.prev = Pixel.zero) (hc : t.cache = Vector.replicate 64 Pixel.zero)
  | committed (p : Pixel) (hp : t.prev = p) (hc : t.cache = s.cache.set (hash p) p)
  | kept (hp : t.prev = s.prev) (hc : t.cache = s.cache)

theorem predictorMove_startDecode (s : State) : PredictorMove s (startDecode s) := by
  rcases startDecode_cases s with ⟨_, h⟩ | ⟨_, h⟩ <;> rw [h] <;> exact .cleared rfl rfl

theorem predictorMove_startEncode (s : State) : PredictorMove s (startEncode s) := by
  rw [startEncode]
  rcases validateEncode_cases { initOperation s with op := .encode, stream := [] } with
    ⟨_, _, _, h⟩ | ⟨_, _, _, _, _, h⟩ <;> rw [h] <;> exact .cleared rfl rfl

/-- The header's checks commit no pixel: they raise, or they set PXCOUNT and PHASE. -/
theorem predictorMove_decodedHeader (w h : Word32) (c cs : Byte) (s : State) :
    PredictorMove s (checkHeader (takeHeader w h c cs s)) := by
  rcases checkHeader_cases (takeHeader w h c cs s) with ⟨_, _, _, he⟩ | ⟨_, _, _, _, _, he⟩ <;> rw [he] <;>
    exact .kept rfl rfl

/-- N commits of PREV are one commit of it, or none where N is 0. -/
theorem predictorMove_repeated (len n : Nat) (s : State) : PredictorMove s (nextChunk len (repeatPrev n s)) := by
  cases n with
  | zero => exact .kept (by simp) (by simp [repeatPrev])
  | succ n => exact .committed s.prev (by simp) (by simp [repeatPrev_cache_succ])

/-- Everything one step does to PREV and CACHE, from any state. -/
theorem step_predictorMove {s t : State} (h : step s = .next t) : PredictorMove s t := by
  cases step_cases h with
  | startedDecode _ _ ht => exact ht ▸ predictorMove_startDecode s
  | startedEncode _ _ ht => exact ht ▸ predictorMove_startEncode s
  | decodedHeader w v c cs _ _ _ _ _ ht => exact ht ▸ predictorMove_decodedHeader w v c cs s
  | resolved len p _ _ _ _ _ ht => exact ht ▸ .committed p (by simp) (by simp)
  | repeated n _ _ _ _ _ ht => exact ht ▸ predictorMove_repeated 1 n s
  | encodedPixel p _ _ _ _ ht => exact ht ▸ .committed p (by simp) (by simp)
  | rested _ _ ht | raised _ _ _ _ _ _ ht | decodedEnd _ _ _ _ ht | chunksOver _ _ _ ht | encodedHeader _ _ _ ht
  | encodedEnd _ _ _ ht => exact ht ▸ .kept rfl rfl

/-! ### The sum of `hash` (R90, R91) -/

/-- The slot of a pixel as a number (R90). -/
theorem hash_val (p : Pixel) :
    (hash p).val = (p.r.toNat * 3 + p.g.toNat * 5 + p.b.toNat * 7 + p.a.toNat * 11) % 64 := rfl

/-- Wrap-around addition in 8 bits keeps the sum modulo 64, because 64 divides 256. -/
theorem hash_eq_byte_sum (p : Pixel) :
    (hash p).val = (p.r * 3 + p.g * 5 + p.b * 7 + p.a * 11).toNat % 64 := by
  simp only [hash_val, BitVec.toNat_add, BitVec.toNat_mul, BitVec.ofNat_eq_ofNat, BitVec.toNat_ofNat]
  omega

theorem hash_sum_le (p : Pixel) : p.r.toNat * 3 + p.g.toNat * 5 + p.b.toNat * 7 + p.a.toNat * 11 ≤ 6630 := by
  have hr := p.r.isLt
  have hg := p.g.isLt
  have hb := p.b.isLt
  have ha := p.a.isLt
  omega

/-! ### The deltas of a channel (R99, R100) -/

theorem d8_range (c q : Byte) : -128 ≤ d8 c q ∧ d8 c q ≤ 127 :=
  ⟨BitVec.le_toInt (c - q), Int.le_of_lt_add_one (BitVec.toInt_lt (x := c - q))⟩

/-- A delta is congruent to the difference modulo 256. -/
theorem d8_emod (c q : Byte) : d8 c q % 256 = ((c.toNat : Int) - q.toNat) % 256 := by
  rw [d8, BitVec.toInt_eq_toNat_cond, BitVec.toNat_sub]
  split <;> omega

theorem addDelta_toNat (q : Byte) (d : Int) : ((addDelta q d).toNat : Int) = (q.toNat + d) % 256 := by
  rw [addDelta, BitVec.toNat_ofInt]
  omega

/-- Adding to a channel its delta to c gives c: the two are congruent modulo 256 and both are bytes. -/
theorem addDelta_d8 (c q : Byte) : addDelta q (d8 c q) = c := by
  have hsum := addDelta_toNat q (d8 c q)
  have hd := d8_emod c q
  have hc := c.isLt
  exact BitVec.eq_of_toNat_eq (by omega)

end Sys2Proof
end

section
/-! PROOF. The obligations of 40_cache_predictor.md: PREV in the slot of its hash (R97), `update` (R93), the deltas of a
channel (R99, R100), RUN of a decode (R97 (a)) and the sum of `hash` (R91). -/

namespace Sys2Proof

open Machine

/-- Settles O8: a step clears PREV and CACHE, commits one pixel to both, or leaves both. -/
theorem previousPixelStaysInItsSlot : Obligations.PreviousPixelStaysInItsSlot := by
  intro s t hs h
  cases step_predictorMove h with
  | cleared hp hc => exact slot_of_zero hp hc
  | committed p hp hc => exact slot_of_update hp hc
  | kept hp hc => exact slot_of_same hs hp hc

/-- Settles O6: `update` sets one slot of CACHE, and setting a slot to what it holds changes nothing. -/
theorem updateWritesExactlyOneSlot : Obligations.UpdateWritesExactlyOneSlot := by
  intro p s
  refine ⟨cacheUpdated_set p s.cache, rfl, fun hs => ?_⟩
  rw [update, cache_set_self hs]

/-- Settles O9: a delta and the sum it is added into are both taken modulo 256. -/
theorem channelDeltaRoundTrip : Obligations.ChannelDeltaRoundTrip := by
  intro c q
  obtain ⟨hlow, hhigh⟩ := d8_range c q
  exact ⟨⟨hlow, hhigh, Int.emod_eq_emod_iff_emod_sub_eq_zero.mp (d8_emod c q)⟩, addDelta_toNat q, addDelta_d8 c q⟩

/-- Settles O21: the overrun applies nothing, and a RUN that fits commits PREV to the slot that holds it already. -/
theorem decodeRunLeavesCache : Obligations.DecodeRunLeavesCache := by
  intro n s t ho hs h
  have hr : repeatChunk n s = .next t := by simpa only [exec, execRun, ho] using h
  rcases ((repeatChunk_eq_next_iff n s t).mp hr).2 with ⟨_, rfl⟩ | ⟨_, rfl⟩
  · exact ⟨rfl, rfl⟩
  · exact ⟨by rw [nextChunk_cache, repeatPrev_cache_of_slot n hs], by simp⟩

/-- Settles O5: 64 divides 256, so neither reducing the products nor wrapping around in 8 bits changes the slot. -/
theorem hashInNarrowArithmetic : Obligations.HashInNarrowArithmetic := by
  intro p
  refine ⟨hash_sum_le p, ?_, hash_eq_byte_sum p⟩
  rw [hash_val]
  omega

end Sys2Proof
end

section
/-! SUPPORT. Rules about a step of the decoder of 41_decoder.md: what a chunk resolves to (R115 to R121), what fetching
answers where the bytes stand in STREAM (R111 to R113, R122), and when a step answers a next state (R127, R155). -/

namespace Sys2Proof.Machine

/-! ### The chunks of a decode (R115 to R121) -/

/-- The pixel that a chunk of one pixel resolves to, PREV and CACHE being those before it (R116 to R120). -/
def resolvedPixel (i : Instr) (prev : Pixel) (cache : Cache) : Pixel :=
  match i with
  | .rgb r g b => rgbPixel r g b prev
  | .rgba r g b a => ⟨r, g, b, a⟩
  | .index k => cache[k]
  | .diff dr dg db => diffPixel dr dg db prev
  | .luma dg drdg dbdg => lumaPixel dg drdg dbdg prev
  | .run _ | .header _ _ _ _ | .endMarker => prev

/-- Which pixel a decode resolves a chunk of one pixel to. -/
theorem exec_eq_resolveChunk {i : Instr} {s : State} (hi : i.onePixel = true) (ho : s.op = .decode) :
    exec i s = resolveChunk i.length (resolvedPixel i s.prev s.cache) s := by
  cases i with
  | rgb | rgba | index | diff | luma =>
    simp only [exec, execRgb, execRgba, execIndex, execDiff, execLuma, ho]
    rfl
  | run | header | endMarker => cases hi

/-- A chunk of one pixel at its place in a decode. -/
theorem exec_onePixel_of_atChunk {i : Instr} {s : State} (hi : i.onePixel = true) (ho : s.op = .decode)
    (ha : atChunk s) : exec i s = .next (nextChunk i.length (resolve (resolvedPixel i s.prev s.cache) s)) := by
  rw [exec_eq_resolveChunk hi ho, (resolveChunk_eq_next_iff _ _ _ _).mpr ⟨ha, rfl⟩]

/-- RUN of a decode. -/
theorem exec_run_decode {n : Nat} {s : State} (ho : s.op = .decode) : exec (.run n) s = repeatChunk n s := by
  simp only [exec, execRun, ho]

/-- A RUN that fits, at its place in a decode (R121). -/
theorem exec_run_of_fits {n : Nat} {s : State} (ho : s.op = .decode) (ha : atChunk s) (hn : n ≤ s.pxcount - s.pxi) :
    exec (.run n) s = .next (nextChunk 1 (repeatPrev n s)) :=
  (exec_run_decode ho).trans ((repeatChunk_eq_next_iff _ _ _).mpr ⟨ha, .inr ⟨hn, rfl⟩⟩)

/-- A RUN that does not fit (R121). -/
theorem exec_run_of_overrun {n : Nat} {s : State} (ho : s.op = .decode) (ha : atChunk s)
    (hn : s.pxcount - s.pxi < n) : exec (.run n) s = .next (raise .runOverrun s.ipos s) :=
  (exec_run_decode ho).trans ((repeatChunk_eq_next_iff _ _ _).mpr ⟨ha, .inl ⟨hn, rfl⟩⟩)

/-- Every chunk at its place in a decode has a next state. -/
theorem exec_chunk_next {i : Instr} {s : State} (hp : i.place = .atChunk) (ho : s.op = .decode) (ha : atChunk s) :
    ∃ t, exec i s = .next t := by
  rcases onePixel_or_run hp with hi | ⟨n, rfl⟩
  · exact ⟨_, exec_onePixel_of_atChunk hi ho ha⟩
  · rcases Nat.lt_or_ge (s.pxcount - s.pxi) n with hn | hn
    · exact ⟨_, exec_run_of_overrun ho ha hn⟩
    · exact ⟨_, exec_run_of_fits ho ha hn⟩

/-! ### The two framing items -/

theorem exec_header_decode {w h : Word32} {c cs : Byte} {s : State} (ho : s.op = .decode) (hp : s.phase = .header) :
    exec (.header w h c cs) s = .next (checkHeader (takeHeader w h c cs s)) := by
  simp only [exec, execHeader, ho, hp, if_true]

theorem exec_header_encode {w h : Word32} {c cs : Byte} {s : State} (ho : s.op = .encode) (hp : s.phase = .header) :
    exec (.header w h c cs) s = .next { emit (encode s.magic (.header w h c cs)) s with phase := .chunks } := by
  simp only [exec, execHeader, ho, hp, if_true]

theorem exec_end_decode {s : State} (ho : s.op = .decode) (hp : s.phase = .endMarker) :
    exec .endMarker s = .next (endDecode s) := by
  simp only [exec, execEnd, ho, hp, if_true]

theorem exec_end_encode {s : State} (ho : s.op = .encode) (hp : s.phase = .endMarker) :
    exec .endMarker s = .next (endEncode s) := by
  simp only [exec, execEnd, ho, hp, if_true]

/-! ### One step by place -/

theorem step_header_decode {s : State} (hc : s.cmd = none) (ho : s.op = .decode) (hp : s.phase = .header) :
    step s = runFetched (fetchHeader s) s := by
  simp only [step_of_no_cmd hc, phaseStep, hp, headerStep, ho]

theorem step_header_encode {s : State} (hc : s.cmd = none) (ho : s.op = .encode) (hp : s.phase = .header) :
    step s = exec (.header s.width s.height s.channels s.colorspace) s := by
  simp only [step_of_no_cmd hc, phaseStep, hp, headerStep, ho]

theorem step_chunk_decode {s : State} (hc : s.cmd = none) (ho : s.op = .decode) (ha : atChunk s) :
    step s = runFetched (fetchChunk s) s := by
  simp only [step_of_no_cmd hc, phaseStep, ha.1, chunkStep, ha.2, if_true, ho]

theorem step_chunk_encode {s : State} (hc : s.cmd = none) (ho : s.op = .encode) (ha : atChunk s) :
    step s = encodePixel s := by
  simp only [step_of_no_cmd hc, phaseStep, ha.1, chunkStep, ha.2, if_true, ho]

theorem step_end_decode {s : State} (hc : s.cmd = none) (ho : s.op = .decode) (hp : s.phase = .endMarker) :
    step s = runFetched (fetchEnd s) s := by
  simp only [step_of_no_cmd hc, phaseStep, hp, endStep, ho]

theorem step_end_encode {s : State} (hc : s.cmd = none) (ho : s.op = .encode) (hp : s.phase = .endMarker) :
    step s = exec .endMarker s := by
  simp only [step_of_no_cmd hc, phaseStep, hp, endStep, ho]

/-- Without a START a resting phase stays (R201). -/
theorem step_of_resting {s : State} (hc : s.cmd = none) (hr : s.phase.resting = true) : step s = .next s := by
  rw [step_of_no_cmd hc, phaseStep]
  rcases (resting_iff s).mp hr with hp | hp | hp <;> simp only [hp]

/-- Once the operation has ended, steps change nothing. -/
theorem stepsFrom_of_resting {s : State} (hc : s.cmd = none) (hr : s.phase.resting = true) (n : Nat) :
    stepsFrom n s = .next s := by
  induction n with
  | zero => rfl
  | succ n ih => rw [stepsFrom_succ, step_of_resting hc hr, andThen_next, ih]

/-- An item fetched is executed, and nothing is added around it (R113). -/
theorem runFetched_item (i : Instr) (s : State) : runFetched (.item i) s = exec i s := rfl

/-! ### Fetching where the bytes stand -/

/-- An item whose bytes stand at the place is the item fetched, whatever is read behind it. -/
theorem fetchBytes_of_item {p : Place} {base : Nat} {s : State} {bs rest : List Byte} {i : Instr}
    (hb : HoldsAt s.stream base bs) (hd : decodeAt p s.magic bs = .item i rest) :
    fetchBytes p base i.length s = .item i := by
  obtain ⟨hw, rfl, rfl⟩ := decodeAt_item hd
  have hi := decodeAt_encode s.magic [] hw
  rw [List.append_nil] at hi
  rw [← encode_length s.magic i, fetchBytes_of_holdsAt _ (holdsAt_append.mp hb).1, hi]

/-- What is decoded is as long as its item and the bytes after it. -/
theorem length_of_decodeAt {m : Magic} {p : Place} {bs rest : List Byte} {i : Instr}
    (hd : decodeAt p m bs = .item i rest) : bs.length = i.length + rest.length := by
  obtain ⟨_, _, rfl⟩ := decodeAt_item hd
  rw [List.length_append, encode_length]

/-- A header that stands at offset 0 is fetched. -/
theorem fetchHeader_of_item {s : State} {bs rest : List Byte} {i : Instr} (hb : HoldsAt s.stream 0 bs)
    (hl : bs.length ≤ s.inLen) (hd : decodeAt .atHeader s.magic bs = .item i rest) : fetchHeader s = .item i := by
  obtain ⟨⟨w, h, c, cs, rfl⟩, _⟩ := decodeHeader_spec hd
  have hlen := length_of_decodeAt hd
  have hmin : min headerLen s.inLen = (Instr.header w h c cs).length := by
    rw [Instr.length] at hlen ⊢
    rw [headerLen]
    omega
  rw [fetchHeader, hmin, fetchBytes_of_item hb hd]

/-- A chunk that stands at IPOS is fetched. -/
theorem fetchChunk_of_item {s : State} {bs rest : List Byte} {i : Instr} (hb : HoldsAt s.stream s.ipos bs)
    (hl : s.ipos + bs.length ≤ s.inLen) (hd : decodeAt .atChunk s.magic bs = .item i rest) :
    fetchChunk s = .item i := by
  have hlen := length_of_decodeAt hd
  have hpos := Instr.length_pos i
  cases bs with
  | nil => cases hd
  | cons b0 t =>
    have h0 : s.stream.read s.ipos = some b0 := hb 0 b0 rfl
    have hk : chunkLen b0 = i.length := (decodeChunk_spec (show decodeChunk (b0 :: t) = .item i rest from hd)).2.symm
    simp only [fetchChunk, h0]
    rw [if_neg (by omega), hk, if_neg (by omega), fetchBytes_of_item hb hd]

/-- An end marker that stands at IPOS is fetched. -/
theorem fetchEnd_of_item {s : State} {bs rest : List Byte} {i : Instr} (hb : HoldsAt s.stream s.ipos bs)
    (hl : s.ipos + bs.length ≤ s.inLen) (hd : decodeAt .atEnd s.magic bs = .item i rest) : fetchEnd s = .item i := by
  have hlen := length_of_decodeAt hd
  obtain rfl := decodeEnd_spec hd
  have hmin : min 8 (s.inLen - s.ipos) = Instr.endMarker.length := by
    rw [Instr.length] at hlen ⊢
    omega
  rw [fetchEnd, hmin, fetchBytes_of_item hb hd]

/-! ### A step has a next state (R127, R155) -/

/-- Bytes that are all there are read, so that fetching them finds no byte absent. -/
theorem fetchBytes_ne_absent {p : Place} {base n : Nat} {s : State}
    (h : ∀ k, k < n → (s.stream.read (base + k)).isSome = true) (o : Nat) : fetchBytes p base n s ≠ .absent o := by
  obtain ⟨bs, hbs⟩ := Memory.readBytes_total s.stream base n h
  simp only [fetchBytes, hbs]
  cases decodeAt p s.magic bs with
  | item => nofun
  | rejected r => cases r <;> nofun

theorem fetchHeader_ne_absent {s : State} (h : Filled s.stream s.inLen) (o : Nat) : fetchHeader s ≠ .absent o :=
  fetchBytes_ne_absent (fun k hk => (h _).mpr (by omega)) o

theorem fetchEnd_ne_absent {s : State} (h : Filled s.stream s.inLen) (o : Nat) : fetchEnd s ≠ .absent o :=
  fetchBytes_ne_absent (fun k hk => (h _).mpr (by omega)) o

theorem fetchChunk_ne_absent {s : State} (h : Filled s.stream s.inLen) (o : Nat) : fetchChunk s ≠ .absent o := by
  unfold fetchChunk
  split
  · nofun
  · obtain ⟨b0, h0⟩ := Option.isSome_iff_exists.mp ((h s.ipos).mpr (by omega))
    simp only [h0]
    split
    · nofun
    · exact fetchBytes_ne_absent (fun k hk => (h _).mpr (by omega)) o

/-- A step of a decode goes on where no byte is absent and the item fetched has a next state. -/
theorem runFetched_next {f : Fetched} {s : State} (ha : ∀ o, f ≠ .absent o)
    (hi : ∀ i, f = .item i → ∃ t, exec i s = .next t) : ∃ t, runFetched f s = .next t := by
  cases f with
  | item i => exact hi i rfl
  | raised c pos => exact ⟨_, rfl⟩
  | absent o => exact absurd rfl (ha o)

/-- A step of a decode whose input length is true. -/
theorem step_next_decode {s : State} (hc : s.cmd = none) (ho : s.op = .decode) (hin : Filled s.stream s.inLen)
    (hp : s.phase = .header ∨ atChunk s ∨ s.phase = .endMarker) : ∃ t, step s = .next t := by
  rcases hp with hp | ha | hp
  · rw [step_header_decode hc ho hp]
    refine runFetched_next (fetchHeader_ne_absent hin) fun i hf => ?_
    obtain ⟨⟨w, h, c, cs, rfl⟩, _⟩ := fetchHeader_item hf
    exact ⟨_, exec_header_decode ho hp⟩
  · rw [step_chunk_decode hc ho ha]
    exact runFetched_next (fetchChunk_ne_absent hin) fun i hf => exec_chunk_next (fetchChunk_item hf).1 ho ha
  · rw [step_end_decode hc ho hp]
    refine runFetched_next (fetchEnd_ne_absent hin) fun i hf => ?_
    obtain rfl := fetchEnd_item hf
    exact ⟨_, exec_end_decode ho hp⟩

/-- A pixel whose bytes are all there is loaded. -/
theorem loadPixel_total {i : Nat} {s : State}
    (h : ∀ a, a < (i + 1) * (if s.channels = 4 then 4 else 3) → (s.pixbuf.read a).isSome = true) :
    ∃ p, loadPixel i s = .pixel p := by
  unfold loadPixel
  split
  · rename_i hc
    rw [if_pos hc] at h
    obtain ⟨bs, hbs⟩ := Memory.readBytes_total s.pixbuf (4 * i) 4 fun k hk => h _ (by omega)
    obtain ⟨r, g, b, a, rfl⟩ := List.length_eq_four.mp (holdsAt_of_readBytes hbs).2
    exact ⟨⟨r, g, b, a⟩, by rw [hbs]⟩
  · rename_i hc
    rw [if_neg hc] at h
    obtain ⟨bs, hbs⟩ := Memory.readBytes_total s.pixbuf (3 * i) 3 fun k hk => h _ (by omega)
    obtain ⟨r, g, b, rfl⟩ := List.length_eq_three.mp (holdsAt_of_readBytes hbs).2
    exact ⟨⟨r, g, b, alphaDefault⟩, by rw [hbs]⟩

end Sys2Proof.Machine
end

section
/-! SUPPORT. Progress of both operations and the end of a run: no step of a launched operation stops (R127, R155), and
each brings its end nearer; the outcome of a decode from its launch (R184). -/

namespace Sys2Proof

open Machine

/-! ### No step stops (R47, R127, R155) -/

theorem legal_toNat {c : Byte} (h : legalChannels c) : c.toNat = if c = 4 then 4 else 3 := by
  rcases h with rfl | rfl <;> rfl

/-- A running encode has the bytes of every pixel that is still to come. -/
theorem encodeInv_loadPixel {s : State} (he : EncodeInv s) (hin : Filled s.pixbuf s.inLen) (hx : s.pxi < s.pxcount) :
    ∃ p, loadPixel s.pxi s = .pixel p := by
  refine loadPixel_total fun a ha => (hin a).mpr ?_
  rw [he.inLen, imageBytes, ← he.image.pxcount, legal_toNat he.image.channels]
  exact lt_of_lt_of_le ha (Nat.mul_le_mul_right _ hx)

/-- A step of an encode whose input length is true. -/
theorem step_next_encode {s : State} (hc : s.cmd = none) (ho : s.op = .encode) (hin : Filled s.pixbuf s.inLen)
    (he : EncodeInv s) (hp : s.phase = .header ∨ atChunk s ∨ s.phase = .endMarker) : ∃ t, step s = .next t := by
  rcases hp with hp | ha | hp
  · exact ⟨_, (step_header_encode hc ho hp).trans (exec_header_encode ho hp)⟩
  · obtain ⟨p, hl⟩ := encodeInv_loadPixel he hin ha.2
    exact ⟨_, (step_chunk_encode hc ho ha).trans (encodePixel_of_pixel ho ha hl)⟩
  · exact ⟨_, (step_end_encode hc ho hp).trans (exec_end_encode ho hp)⟩

/-- A running operation stands at one of its three places. -/
theorem EngineInv.place {s : State} (hi : EngineInv s) (hr : Running s) :
    s.phase = .header ∨ atChunk s ∨ s.phase = .endMarker :=
  hr.imp_right (Or.imp_left fun hp => ⟨hp, hi.chunks hp⟩)

theorem step_next_of_no_cmd {s : State} (hc : s.cmd = none) (hi : EngineInv s) (hin : InputLengthTrue s) :
    ∃ t, step s = .next t := by
  by_cases hr : Running s
  · cases ho : s.op with
    | decode =>
      rw [InputLengthTrue, inputSpace_decode hc ho] at hin
      exact step_next_decode hc ho hin (hi.place hr)
    | encode =>
      rw [InputLengthTrue, inputSpace_encode hc ho] at hin
      exact step_next_encode hc ho hin (hi.encode hr ho) (hi.place hr)
  · exact ⟨s, step_of_resting hc (by simpa [running_iff] using hr)⟩

/-! ### The input length stays true (R47) -/

/-- A step without a START leaves the input space and IN_LEN. -/
theorem step_inputLengthTrue {s t : State} (hc : s.cmd = none) (hin : InputLengthTrue s) (h : step s = .next t) :
    InputLengthTrue t := by
  rw [InputLengthTrue, (step_inputKept hc h).inputSpace_eq hc, (descriptorStands s t h).2.2.1]
  exact hin

/-- START_DECODE leaves STREAM and IN_LEN, and takes the command. -/
theorem startDecode_spec (s : State) :
    (startDecode s).cmd = none ∧ (startDecode s).op = .decode ∧ (startDecode s).stream = s.stream ∧
      (startDecode s).inLen = s.inLen ∧ ((startDecode s).phase = .header ∨ (startDecode s).phase = .error) := by
  rcases startDecode_cases s with ⟨_, h⟩ | ⟨_, h⟩ <;> rw [h] <;> simp

/-- START_ENCODE leaves PIXBUF and IN_LEN. -/
theorem startEncode_input (s : State) : (startEncode s).pixbuf = s.pixbuf ∧ (startEncode s).inLen = s.inLen := by
  rw [startEncode]
  rcases validateEncode_cases { initOperation s with op := .encode, stream := [] } with
    ⟨_, _, _, h⟩ | ⟨_, _, _, _, _, h⟩ <;> rw [h] <;> simp

theorem inputLengthTrue_startDecode {s : State} (h : Filled s.stream s.inLen) : InputLengthTrue (startDecode s) := by
  obtain ⟨hc, ho, hs, hl, _⟩ := startDecode_spec s
  rwa [InputLengthTrue, inputSpace_decode hc ho, hs, hl]

theorem inputLengthTrue_startEncode {s : State} (h : Filled s.pixbuf s.inLen) : InputLengthTrue (startEncode s) := by
  obtain ⟨_, ho, hc, _⟩ := startEncode_spec s
  obtain ⟨hb, hl⟩ := startEncode_input s
  rwa [InputLengthTrue, inputSpace_encode hc ho, hb, hl]

/-! ### The end of an operation (R127, R155) -/

/-- An operation whose START is taken, with its invariant and a true input length. -/
structure Launched (s : State) : Prop where
  cmd : s.cmd = none
  engine : EngineInv s
  input : InputLengthTrue s

theorem Launched.step {s t : State} (hs : Launched s) (h : step s = .next t) : Launched t where
  cmd := (step_inputKept hs.cmd h).cmd.trans hs.cmd
  engine := engineInvariantIsKept s t hs.engine h
  input := step_inputLengthTrue hs.cmd hs.input h

/-- What the chunk phase has still to do: bytes to consume in a decode, pixels to load in an encode. -/
def chunksLeft (s : State) : Nat :=
  match s.op with
  | .decode => s.inLen - s.ipos
  | .encode => s.pxcount - s.pxi

/-- A bound on the steps to the end of the operation. -/
def stepsLeft (s : State) : Nat :=
  match s.phase with
  | .header => s.inLen + 2
  | .chunks => chunksLeft s + 1
  | .endMarker => 1
  | .idle | .done | .error => 0

theorem stepsLeft_of_resting {s : State} (h : s.phase.resting = true) : stepsLeft s = 0 := by
  rcases (resting_iff s).mp h with hp | hp | hp <;> simp only [stepsLeft, hp]

theorem resting_of_stepsLeft {s : State} (h : stepsLeft s = 0) : s.phase.resting = true := by
  cases hp : s.phase <;> simp [stepsLeft, hp, Phase.resting] at h ⊢

theorem stepsLeft_pos {s : State} (h : Running s) : 0 < stepsLeft s := by
  rcases h with hp | hp | hp <;> simp [stepsLeft, hp]

theorem stepsLeft_chunks {s : State} (hp : s.phase = .chunks) : stepsLeft s = chunksLeft s + 1 := by
  simp only [stepsLeft, hp]

/-- A step from CHUNKS by the loop's test: the operation is nearer its end where the chunk phase has less to do. -/
theorem stepsLeft_of_phaseAfter {s t : State} {pxi pxcount : Nat} (hs : s.phase = .chunks)
    (ht : t.phase = phaseAfter pxi pxcount) (hlt : chunksLeft t < chunksLeft s) : stepsLeft t < stepsLeft s := by
  rw [stepsLeft_chunks hs]
  rcases phaseAfter_cases pxi pxcount with ⟨_, h⟩ | ⟨_, h⟩
  · rw [stepsLeft_chunks (ht.trans h)]
    omega
  · simp only [stepsLeft, ht, h]
    omega

/-- Every step of a running operation brings its end nearer. -/
theorem stepsLeft_step {s t : State} (hs : Launched s) (hr : Running s) (h : step s = .next t) :
    stepsLeft t < stepsLeft s := by
  have hend : t.phase.resting = true → stepsLeft t < stepsLeft s := fun hrest => by
    rw [stepsLeft_of_resting hrest]
    exact stepsLeft_pos hr
  cases step_cases h with
  | startedDecode hc => simp [hs.cmd] at hc
  | startedEncode hc => simp [hs.cmd] at hc
  | rested _ hrest => simp [(running_iff s).mp hr] at hrest
  | raised c pos _ _ _ _ ht => exact hend (ht ▸ rfl)
  | decodedHeader w v c cs _ ho hp _ hl ht =>
    rcases checkHeader_cases (takeHeader w v c cs s) with ⟨_, _, _, hk⟩ | ⟨_, _, _, _, _, hk⟩ <;> rw [hk] at ht
    · exact hend (ht ▸ rfl)
    · subst ht
      simp only [stepsLeft, hp, chunksLeft, takeHeader_op, ho, takeHeader_inLen, takeHeader_ipos]
      omega
  | resolved len p _ ho ha hn hl ht =>
    subst ht
    refine stepsLeft_of_phaseAfter ha.1 (resolved_phase ha.1) ?_
    simp only [chunksLeft, nextChunk_op, resolve_op, ho, nextChunk_inLen, resolve_inLen, nextChunk_ipos, resolve_ipos]
    omega
  | repeated n _ ho ha hl hn ht =>
    subst ht
    refine stepsLeft_of_phaseAfter ha.1 (repeated_phase ha.1) ?_
    simp only [chunksLeft, nextChunk_op, repeatPrev_op, ho, nextChunk_inLen, repeatPrev_inLen, nextChunk_ipos,
      repeatPrev_ipos]
    omega
  | decodedEnd _ _ _ _ ht => exact hend (ht ▸ rfl)
  | chunksOver _ hp hx _ => exact absurd (hs.engine.chunks hp) (by omega)
  | encodedHeader _ ho hp ht =>
    have he := hs.engine.encode hr ho
    have hle : s.pxcount ≤ s.inLen := by
      rw [he.inLen, imageBytes, ← he.image.pxcount, legal_toNat he.image.channels]
      exact Nat.le_mul_of_pos_right _ (by split <;> decide)
    subst ht
    simp only [stepsLeft, hp, chunksLeft, emit_op, ho, emit_pxcount, emit_pxi]
    omega
  | encodedPixel p _ ho ha _ ht =>
    subst ht
    refine stepsLeft_of_phaseAfter ha.1 (encodedPixel_phase ha.1) ?_
    have hx := ha.2
    simp only [chunksLeft, endPixel_op, emit_op, ho, endPixel_pxcount, emit_pxcount, endPixel_pxi, emit_pxi]
    omega
  | encodedEnd _ _ _ ht => exact hend (ht ▸ rfl)

/-- A launched operation ends within the steps that are left. -/
theorem launched_ends {s : State} (hs : Launched s) {n : Nat} (hn : stepsLeft s ≤ n) :
    ∃ t, stepsFrom n s = .next t ∧ t.phase.resting = true := by
  induction n generalizing s with
  | zero => exact ⟨s, rfl, resting_of_stepsLeft (by omega)⟩
  | succ n ih =>
    by_cases hr : Running s
    · obtain ⟨t, ht⟩ := step_next_of_no_cmd hs.cmd hs.engine hs.input
      have hlt := stepsLeft_step hs hr ht
      obtain ⟨u, hu, hrest⟩ := ih (hs.step ht) (by omega)
      exact ⟨u, by rw [stepsFrom_succ, ht, andThen_next, hu], hrest⟩
    · have hrest : s.phase.resting = true := by simpa [running_iff] using hr
      exact ⟨s, stepsFrom_of_resting hs.cmd hrest _, hrest⟩

/-! ### A decode from its launch to its outcome -/

/-- What the host leaves before a decode: `launchDecode_engine` names the same state. -/
def launchedDecode (m : Magic) (bs : List Byte) (reqch : Byte) : State :=
  { engine m with stream := Memory.ofBytes bs, inLen := bs.length, reqch := reqch, cmd := some .startDecode }

/-- START_DECODE of a launch begins an operation that ends in the steps `decodeOperation` gives it. -/
theorem launched_startDecode (m : Magic) (bs : List Byte) (reqch : Byte) :
    Launched (startDecode (launchedDecode m bs reqch)) ∧
      stepsLeft (startDecode (launchedDecode m bs reqch)) ≤ bs.length + 2 := by
  obtain ⟨hc, _, _, hl, hp⟩ := startDecode_spec (launchedDecode m bs reqch)
  refine ⟨⟨hc, engineInv_startDecode _, inputLengthTrue_startDecode (filled_ofBytes bs)⟩, ?_⟩
  rcases hp with hp | hp
  · simp only [stepsLeft, hp, hl]
    exact Nat.le_refl _
  · simp only [stepsLeft, hp, Nat.zero_le]

/-- The outcome of a decode is read from the state in which its run has come to rest. -/
theorem decodeOperation_run (m : Magic) (bs : List Byte) (reqch : Byte) :
    ∃ t, stepsFrom (bs.length + 2) (startDecode (launchedDecode m bs reqch)) = .next t ∧ t.phase.resting = true ∧
      decodeOperation m bs reqch = readDecode t := by
  obtain ⟨hs, hn⟩ := launched_startDecode m bs reqch
  obtain ⟨t, ht, hrest⟩ := launched_ends hs hn
  refine ⟨t, ht, hrest, ?_⟩
  have hstart : andThen (launchDecode bs reqch (engine m)) (stepsFrom (bs.length + 3)) =
      stepsFrom (bs.length + 2) (startDecode (launchedDecode m bs reqch)) := by
    rw [launchDecode_engine, andThen_next, stepsFrom_succ, step_of_cmd rfl]
    rfl
  rw [decodeOperation, hstart, ht]

/-- A decode whose START is taken: where it has ended in DONE, the output that OUT_LEN counts is there (R124). -/
structure DecodeRun (s : State) : Prop extends Launched s where
  op : s.op = .decode
  begun : s.phase ≠ .idle
  done : s.phase = .done → s.err = 0 ∧ s.outvalid = true ∧ Filled s.pixbuf s.outLen

theorem decodeRun_startDecode (m : Magic) (bs : List Byte) (reqch : Byte) :
    DecodeRun (startDecode (launchedDecode m bs reqch)) := by
  obtain ⟨_, ho, _, _, hp⟩ := startDecode_spec (launchedDecode m bs reqch)
  refine ⟨(launched_startDecode m bs reqch).1, ho, ?_, ?_⟩ <;> rcases hp with hp | hp <;> simp [hp]

/-- The end marker of a decode leaves as many bytes of output as OUT_LEN says (R124). -/
theorem filled_endDecode {s : State} (hi : EngineInv s) (ho : s.op = .decode) (hp : s.phase = .endMarker) :
    Filled (endDecode s).pixbuf (endDecode s).outLen := by
  have hout := (hi.decode (.inr (.inr hp)) ho).output
  rw [hi.marker hp] at hout
  exact hout

/-- What the step at the end marker of a decode can do. -/
theorem step_end_decode_cases {s t : State} (hc : s.cmd = none) (ho : s.op = .decode) (hp : s.phase = .endMarker)
    (h : step s = .next t) : t.phase = .error ∨ t = endDecode s := by
  rw [step_end_decode hc ho hp] at h
  rcases (runFetched_eq_next_iff _ _ _).mp h with ⟨c, pos, _, rfl⟩ | ⟨i, hf, hi⟩
  · exact .inl rfl
  · obtain rfl := fetchEnd_item hf
    rw [exec_end_decode ho hp] at hi
    cases hi
    exact .inr rfl

theorem decodeRun_step {s t : State} (hs : DecodeRun s) (h : step s = .next t) : DecodeRun t := by
  have hl := hs.toLaunched.step h
  have hop : t.op = .decode := (step_inputKept hs.cmd h).op.trans hs.op
  cases step_phaseMove hs.cmd h with
  | rest hp =>
    rw [step_of_resting hs.cmd ((resting_iff s).mpr hp)] at h
    cases h
    exact hs
  | toError _ _ ht | toChunks _ ht => exact ⟨hl, hop, by simp [ht], by simp [ht]⟩
  | inChunks _ ht => rcases ht with ht | ht <;> exact ⟨hl, hop, by simp [ht], by simp [ht]⟩
  | toDone hp ht =>
    rcases step_end_decode_cases hs.cmd hs.op hp h with he | rfl
    · simp [ht] at he
    · exact ⟨hl, hop, nofun, fun _ => ⟨rfl, rfl, filled_endDecode hs.engine hs.op hp⟩⟩

/-! ### Reading the outcome of a decode (R182, R184) -/

/-- A readable output whose bytes are there is read. -/
theorem hostReadOutput_of_holdsAt {s : State} {bs : List Byte} (hr : outputReadable s)
    (hb : HoldsAt (outputSpace s) 0 bs) (hl : bs.length = s.outLen) : hostReadOutput s = some bs := by
  rw [hostReadOutput, if_pos hr, ← hl, readBytes_of_holdsAt hb]

/-- A decode that has ended in DONE is read as a success. -/
theorem readDecode_of_done {s : State} {px : List Byte} (hp : s.phase = .done) (he : s.err = 0)
    (ho : hostReadOutput s = some px) :
    readDecode s = .ok px s.width s.height s.channels s.colorspace s.warnTrailing := by
  simp only [readDecode, hp, ho, he, if_true]

/-- A decode that has come to rest is read as one of the outcomes of R184. -/
theorem DecodeRun.readDecode_ne_unfinished {s : State} (hs : DecodeRun s) (hr : s.phase.resting = true) :
    readDecode s ≠ .unfinished := by
  rcases (resting_iff s).mp hr with hp | hp | hp
  · exact absurd hp hs.begun
  · obtain ⟨herr, hvalid, hfilled⟩ := hs.done hp
    obtain ⟨px, hpx⟩ := Memory.readBytes_total s.pixbuf 0 s.outLen fun k hk => (hfilled _).mpr (by omega)
    obtain ⟨hholds, hlen⟩ := holdsAt_of_readBytes hpx
    have hspace : outputSpace s = s.pixbuf := by rw [outputSpace, hs.op]
    rw [readDecode_of_done hp herr
      (hostReadOutput_of_holdsAt ⟨.inl hp, hvalid, hs.cmd⟩ (hspace ▸ hholds) hlen)]
    nofun
  · simp only [readDecode, hp]
    cases hostReadOutput s <;> nofun

end Sys2Proof
end

section
/-! PROOF. The tier 3 obligations of 41_decoder.md about a run: no step of a running operation stops (R47, R127, R155),
and every decode ends (R127). -/

namespace Sys2Proof

open Machine

/-- Settles O52: the bytes a step needs lie below IN_LEN, which is the length of the input space, and no step writes
either. -/
theorem runningOperationNeverStops : Obligations.RunningOperationNeverStops := by
  intro s hi hin hcmd
  cases hc : s.cmd with
  | none =>
    obtain ⟨t, ht⟩ := step_next_of_no_cmd hc hi hin
    exact ⟨t, ht, step_inputLengthTrue hc hin ht⟩
  | some c =>
    have hrest : s.phase.resting = true := (resting_iff s).mpr (hcmd.resolve_left (by simp [hc]))
    rw [InputLengthTrue, inputSpace_start hc] at hin
    cases c with
    | startDecode => exact ⟨_, (step_of_cmd hc).trans (if_pos hrest), inputLengthTrue_startDecode hin⟩
    | startEncode => exact ⟨_, (step_of_cmd hc).trans (if_pos hrest), inputLengthTrue_startEncode hin⟩

/-- Settles O53: every step of a decode brings its end nearer, and a decode at rest has one of the outcomes. -/
theorem everyDecodeEnds : Obligations.EveryDecodeEnds := by
  intro m bs reqch
  obtain ⟨t, ht, hrest, hread⟩ := decodeOperation_run m bs reqch
  have hrun : DecodeRun t :=
    stepsFrom_keeps (fun _ _ hs hst => decodeRun_step hs hst) (decodeRun_startDecode m bs reqch) ht
  rw [hread]
  exact hrun.readDecode_ne_unfinished hrest

end Sys2Proof
end

section
/-! SUPPORT. What a sequence of chunks stands for (R128): the pixels it resolves to from a PREV and a CACHE. The decoder
commits those pixels, and the encoder emits chunks that stand for the pixels it has loaded. -/

namespace Sys2Proof

open Machine

/-! ### PREV and CACHE (R90 to R94) -/

/-- PREV and CACHE: what the meaning of a chunk depends on. -/
structure Predictor where
  prev : Pixel
  cache : Cache

/-- PREV and CACHE at START (R220). -/
def Predictor.start : Predictor := ⟨Pixel.zero, Vector.replicate 64 Pixel.zero⟩

/-- PREV and CACHE of a state. -/
def predictorOf (s : State) : Predictor := ⟨s.prev, s.cache⟩

/-- `update(p)`, then `advance(p)` (R93, R94). -/
def Predictor.commit (P : Predictor) (p : Pixel) : Predictor := ⟨p, P.cache.set (hash p) p⟩

/-- The commits of a list of pixels, in order. -/
def Predictor.commits (P : Predictor) (ps : List Pixel) : Predictor := ps.foldl Predictor.commit P

@[simp] theorem Predictor.commits_nil (P : Predictor) : P.commits [] = P := rfl

@[simp] theorem Predictor.commits_singleton (P : Predictor) (p : Pixel) : P.commits [p] = P.commit p := rfl

theorem Predictor.commits_append (P : Predictor) (ps qs : List Pixel) :
    P.commits (ps ++ qs) = (P.commits ps).commits qs := List.foldl_append

theorem Predictor.commit_commit (P : Predictor) (p : Pixel) : (P.commit p).commit p = P.commit p := by
  simp [Predictor.commit]

/-- Commits of one pixel in a row are one commit of it. -/
theorem Predictor.commits_replicate_succ (P : Predictor) (n : Nat) (p : Pixel) :
    P.commits (List.replicate (n + 1) p) = P.commit p := by
  induction n with
  | zero => rfl
  | succ n ih => rw [List.replicate_succ', commits_append, ih, commits_singleton, commit_commit]

/-- Where PREV sits in its slot, committing it changes nothing. -/
theorem Predictor.commit_prev {P : Predictor} (h : P.cache[hash P.prev] = P.prev) : P.commit P.prev = P := by
  rw [Predictor.commit, cache_set_self h]

theorem Predictor.commits_replicate_prev {P : Predictor} (h : P.cache[hash P.prev] = P.prev) (n : Nat) :
    P.commits (List.replicate n P.prev) = P := by
  cases n with
  | zero => rfl
  | succ n => rw [commits_replicate_succ, commit_prev h]

/-! ### The pixels of a chunk -/

/-- The pixels a chunk commits (R115 to R121). -/
def chunkPixels (i : Instr) (P : Predictor) : List Pixel :=
  match i with
  | .run n => List.replicate n P.prev
  | i => [resolvedPixel i P.prev P.cache]

theorem chunkPixels_onePixel {i : Instr} (h : i.onePixel = true) (P : Predictor) :
    chunkPixels i P = [resolvedPixel i P.prev P.cache] := by
  cases i with
  | run => cases h
  | _ => rfl

theorem place_of_onePixel {i : Instr} (h : i.onePixel = true) : i.place = .atChunk := by
  cases i with
  | rgb | rgba | index | diff | luma | run => rfl
  | header | endMarker => cases h

theorem chunkPixels_length_pos {i : Instr} (h : i.wf = true) (P : Predictor) : 1 ≤ (chunkPixels i P).length := by
  cases i with
  | run n =>
    simp only [Instr.wf, inRunRange, decide_eq_true_eq] at h
    simpa [chunkPixels] using h.1
  | _ => exact Nat.le_refl 1

/-- The items are well-formed chunks that stand for the pixels, from PREV and CACHE on. -/
inductive Codes : Predictor → List Instr → List Pixel → Prop
  | nil (P : Predictor) : Codes P [] []
  | cons {P : Predictor} {i : Instr} {is : List Instr} {ps : List Pixel} (hp : i.place = .atChunk) (hw : i.wf = true)
      (h : Codes (P.commits (chunkPixels i P)) is ps) : Codes P (i :: is) (chunkPixels i P ++ ps)

theorem Codes.uncons {P : Predictor} {i : Instr} {is : List Instr} {ps : List Pixel} (h : Codes P (i :: is) ps) :
    i.place = .atChunk ∧ i.wf = true ∧
      ∃ qs, ps = chunkPixels i P ++ qs ∧ Codes (P.commits (chunkPixels i P)) is qs := by
  cases h with
  | cons hp hw h => exact ⟨hp, hw, _, rfl, h⟩

theorem Codes.append {P : Predictor} {is js : List Instr} {ps qs : List Pixel} (h : Codes P is ps)
    (hj : Codes (P.commits ps) js qs) : Codes P (is ++ js) (ps ++ qs) := by
  induction h with
  | nil => exact hj
  | cons hp hw _ ih =>
    rw [List.cons_append, List.append_assoc]
    rw [Predictor.commits_append] at hj
    exact .cons hp hw (ih hj)

/-- One chunk stands for its pixels. -/
theorem Codes.single {i : Instr} (P : Predictor) (hp : i.place = .atChunk) (hw : i.wf = true) :
    Codes P [i] (chunkPixels i P) := by
  have h := Codes.cons hp hw (Codes.nil (P.commits (chunkPixels i P)))
  rwa [List.append_nil] at h

/-- A run stands for as many pixels equal to PREV. -/
theorem Codes.run (P : Predictor) {n : Nat} (h1 : 1 ≤ n) (h2 : n ≤ 62) :
    Codes P [.run n] (List.replicate n P.prev) :=
  .single P rfl (by simp [Instr.wf, inRunRange, h1, h2])

/-! ### The bytes of a stream (R60) -/

/-- Chunks and the end marker: what stands behind the header. -/
def chunksAndMarker (m : Magic) (is : List Instr) : List Byte := is.flatMap (encode m) ++ endMarkerBytes

theorem chunksAndMarker_cons (m : Magic) (i : Instr) (is : List Instr) :
    chunksAndMarker m (i :: is) = encode m i ++ chunksAndMarker m is := by
  rw [chunksAndMarker, List.flatMap_cons, List.append_assoc, chunksAndMarker]

/-- The stream of an image: header, chunks, end marker. -/
def streamOf (m : Magic) (w h : Word32) (c cs : Byte) (is : List Instr) : List Byte :=
  encode m (.header w h c cs) ++ chunksAndMarker m is

/-! ### The encoder's choice (R143, R153) -/

/-- The chunk chosen for a pixel has an encoding. -/
theorem chooseItem_wf (cur prev : Pixel) (cache : Cache) : (chooseItem cur prev cache).wf = true := by
  rcases chooseItem_cases cur prev cache with
    ⟨_, h⟩ | ⟨_, _, ⟨hd, h⟩ | ⟨_, hl, h⟩ | ⟨_, _, h⟩⟩ | ⟨_, _, h⟩ <;> rw [h]
  case inr.inl.inl =>
    obtain ⟨hr, hg, hb⟩ := hd
    simp [Instr.wf, inDiffRange, hr, hg, hb]
  case inr.inl.inr.inl =>
    obtain ⟨hg, hr, hb⟩ := hl
    simp only [Instr.wf, inLumaGreenRange, inLumaRelRange, Bool.and_eq_true, decide_eq_true_eq]
    exact ⟨⟨hg, hr⟩, hb⟩
  all_goals rfl

/-- The chunk chosen for a pixel resolves to that pixel. -/
theorem resolvedPixel_chooseItem (cur prev : Pixel) (cache : Cache) :
    resolvedPixel (chooseItem cur prev cache) prev cache = cur := by
  obtain ⟨r, g, b, a⟩ := cur
  rcases chooseItem_cases ⟨r, g, b, a⟩ prev cache with
    ⟨hslot, h⟩ | ⟨_, ha, ⟨_, h⟩ | ⟨_, _, h⟩ | ⟨_, _, h⟩⟩ | ⟨_, _, h⟩ <;> rw [h, resolvedPixel]
  · exact hslot
  · rw [diffPixel, addDelta_d8, addDelta_d8, addDelta_d8, ← ha]
  · rw [lumaPixel, add_sub_cancel, add_sub_cancel, addDelta_d8, addDelta_d8, addDelta_d8, ← ha]
  · rw [rgbPixel, ← ha]

/-- The chunk chosen for a pixel stands for it. -/
theorem Codes.choose (P : Predictor) (p : Pixel) : Codes P [chooseItem p P.prev P.cache] [p] := by
  have hone := chooseItem_onePixel p P.prev P.cache
  have h := Codes.single P (place_of_onePixel hone) (chooseItem_wf p P.prev P.cache)
  rwa [chunkPixels_onePixel hone, resolvedPixel_chooseItem] at h

/-! ### The chunks of a pixel step (R143, R144) -/

/-- The chunks that the pixel step of p emits: `pixelBytes` are their bytes. -/
def pixelItems (p : Pixel) (s : State) : List Instr :=
  if p = s.prev then
    if s.run + 1 = 62 ∨ s.pxi + 1 = s.pxcount then [.run (s.run + 1)] else []
  else (if 0 < s.run then [.run s.run] else []) ++ [chooseItem p s.prev s.cache]

theorem pixelBytes_eq (p : Pixel) (s : State) : pixelBytes p s = (pixelItems p s).flatMap (encode s.magic) := by
  unfold pixelBytes pixelItems
  by_cases he : p = s.prev
  · rw [if_pos he, if_pos he]
    split <;> simp
  · rw [if_neg he, if_neg he]
    split <;> simp

/-- The chunks of a pixel step stand for the pixels of the open run and the pixel itself, but for those that the run
left open will stand for. -/
theorem codes_pixelItems {s : State} (p : Pixel) (hslot : s.cache[hash s.prev] = s.prev) (hrun : s.run ≤ 61) :
    ∃ ps, Codes (predictorOf s) (pixelItems p s) ps ∧
      ps ++ List.replicate (runAfter p s) p = List.replicate s.run s.prev ++ [p] ∧
      (predictorOf s).commits ps = (predictorOf s).commit p := by
  have hcommits : ∀ n, (predictorOf s).commits (List.replicate n s.prev) = predictorOf s :=
    Predictor.commits_replicate_prev (P := predictorOf s) hslot
  by_cases he : p = s.prev
  · have hcommit : (predictorOf s).commit p = predictorOf s := by
      rw [he]
      exact Predictor.commit_prev (P := predictorOf s) hslot
    by_cases hf : s.run + 1 = 62 ∨ s.pxi + 1 = s.pxcount
    · refine ⟨List.replicate (s.run + 1) s.prev, ?_, ?_, by rw [hcommits, hcommit]⟩
      · rw [pixelItems, if_pos he, if_pos hf]
        exact .run (predictorOf s) (by omega) (by omega)
      · rw [runAfter, if_neg fun e => e.2 hf, List.replicate_succ', he]
        simp
    · refine ⟨[], ?_, ?_, by rw [Predictor.commits_nil, hcommit]⟩
      · rw [pixelItems, if_pos he, if_neg hf]
        exact .nil _
      · rw [runAfter, if_pos ⟨he, hf⟩, List.replicate_succ', he, List.nil_append]
  · refine ⟨List.replicate s.run s.prev ++ [p], ?_, ?_, ?_⟩
    · rw [pixelItems, if_neg he]
      have hchoose : Codes ((predictorOf s).commits (List.replicate s.run s.prev))
          [chooseItem p s.prev s.cache] [p] := by
        rw [hcommits]
        exact .choose (predictorOf s) p
      refine Codes.append ?_ hchoose
      split
      · exact .run (predictorOf s) (by omega) (by omega)
      · rw [show s.run = 0 by omega]
        exact .nil _
    · rw [runAfter, if_neg fun e => he e.1, List.replicate_zero, List.append_nil]
    · rw [Predictor.commits_append, hcommits, Predictor.commits_singleton]

end Sys2Proof
end

section
/-! SUPPORT. The run of an encode of a valid image and of a decode of a stream of chunks (R128, R141 to R152, R111 to
R124): each step by step, the bytes and pixels so far carried along. -/

namespace Sys2Proof

open Machine

/-! ### Runs -/

/-- Some number of steps leads from the one state to the other. -/
def Reaches (s t : State) : Prop := ∃ n, stepsFrom n s = .next t

theorem Reaches.refl (s : State) : Reaches s s := ⟨0, rfl⟩

theorem Reaches.trans {s t u : State} (h : Reaches s t) (h' : Reaches t u) : Reaches s u := by
  obtain ⟨m, hm⟩ := h
  obtain ⟨n, hn⟩ := h'
  exact ⟨m + n, by rw [stepsFrom_add, hm, andThen_next, hn]⟩

theorem Reaches.step {s t : State} (h : step s = .next t) : Reaches s t :=
  ⟨1, by rw [stepsFrom_succ, h, andThen_next, stepsFrom_zero]⟩

/-- Two runs that have come to rest have come to the same state. -/
theorem Reaches.rest_unique {s t u : State} (ht : Reaches s t) (hct : t.cmd = none) (hrt : t.phase.resting = true)
    (hu : Reaches s u) (hcu : u.cmd = none) (hru : u.phase.resting = true) : t = u := by
  obtain ⟨m, hm⟩ := ht
  obtain ⟨n, hn⟩ := hu
  have h1 : stepsFrom (m + n) s = .next t := by
    rw [stepsFrom_add, hm, andThen_next, stepsFrom_of_resting hct hrt]
  have h2 : stepsFrom (n + m) s = .next u := by
    rw [stepsFrom_add, hn, andThen_next, stepsFrom_of_resting hcu hru]
  rw [Nat.add_comm] at h1
  exact Host.Outcome.next.inj (h1.symm.trans h2)

/-- A launched operation that reaches a state of rest is there after the steps that are left. -/
theorem Launched.stepsFrom_eq {s t : State} (hs : Launched s) {n : Nat} (hn : stepsLeft s ≤ n) (h : Reaches s t)
    (hr : t.phase.resting = true) : stepsFrom n s = .next t := by
  have hkeeps : ∀ {u}, Reaches s u → u.cmd = none := fun ⟨k, hk⟩ =>
    (stepsFrom_keeps (P := Launched) (fun _ _ hs hst => hs.step hst) hs hk).cmd
  obtain ⟨u, hu, hru⟩ := launched_ends hs hn
  rw [hu, Reaches.rest_unique h (hkeeps h) hr ⟨n, hu⟩ (hkeeps ⟨n, hu⟩) hru]

/-! ### Spaces written from offset 0 on -/

theorem ofBytes_append (bs cs : List Byte) :
    Memory.ofBytes (bs ++ cs) = (Memory.ofBytes bs).writeBytes bs.length cs := by
  rw [Memory.ofBytes, Memory.writeBytes_append, Nat.zero_add, Memory.ofBytes]

theorem holdsAt_ofBytes (bs : List Byte) : HoldsAt (Memory.ofBytes bs) 0 bs := holdsAt_writeBytes [] 0 bs

/-- STREAM is exactly the bytes emitted so far, and OPOS stands behind them. -/
structure Wrote (bs : List Byte) (s : State) : Prop where
  stream : s.stream = Memory.ofBytes bs
  opos : s.opos = bs.length

theorem Wrote.emit {bs : List Byte} {s t : State} (h : Wrote bs s) {cs : List Byte}
    (hs : t.stream = (Machine.emit cs s).stream) (ho : t.opos = (Machine.emit cs s).opos) : Wrote (bs ++ cs) t where
  stream := by rw [hs, emit_stream, h.stream, h.opos, ofBytes_append]
  opos := by rw [ho, emit_opos, h.opos, List.length_append]

/-! ### The pixel steps of an encode -/

/-- An encode in its chunk phase or at its end: the pixels loaded so far are those that the chunks behind the header
stand for, then those of the open run, and the pixels still to come are the ones that will be loaded. -/
structure Encoding (m : Magic) (hdr : List Byte) (loaded rest : List Pixel) (s : State) : Prop extends Launched s where
  op : s.op = .encode
  magic : s.magic = m
  phase : s.phase = phaseAfter s.pxi s.pxcount
  count : s.pxi + rest.length = s.pxcount
  loads : ∀ k p, rest[k]? = some p → loadPixel (s.pxi + k) s = .pixel p
  coded : ∃ is ps, Codes .start is ps ∧ loaded = ps ++ List.replicate s.run s.prev ∧
    Predictor.start.commits ps = predictorOf s ∧ Wrote (hdr ++ is.flatMap (encode m)) s

theorem loadPixel_congr {i : Nat} {s t : State} (hc : t.channels = s.channels) (hb : t.pixbuf = s.pixbuf) :
    loadPixel i t = loadPixel i s := by
  simp only [loadPixel, hc, hb]

/-- HEADER begins the chunk phase with no pixel loaded. -/
theorem Encoding.begin {s : State} {ps : List Pixel} (hs : Launched s) (ho : s.op = .encode) (hp : s.phase = .header)
    (hstart : predictorOf s = .start) (hstream : s.stream = []) (hcount : ps.length = s.pxcount)
    (hload : ∀ k p, ps[k]? = some p → loadPixel k s = .pixel p) :
    ∃ t, Machine.step s = .next t ∧
      Encoding s.magic (encode s.magic (.header s.width s.height s.channels s.colorspace)) [] ps t := by
  have hstep := (step_header_encode hs.cmd ho hp).trans (exec_header_encode ho hp)
  have hnext := hs.step hstep
  obtain ⟨hopos, hpxi, hrun⟩ := (hs.engine.encode (.inl hp) ho).start hp
  have hwrote : Wrote [] s := ⟨hstream, hopos⟩
  refine ⟨_, hstep, hnext, ho, rfl, ?_, ?_, ?_, ?_⟩
  · exact (if_pos (hnext.engine.chunks rfl)).symm
  · simpa [hpxi] using hcount
  · intro k p hk
    exact (loadPixel_congr (s := s) rfl rfl).trans (by simpa [hpxi] using hload k p hk)
  · refine ⟨[], [], .nil _, by simp [hrun], hstart.symm, ?_⟩
    rw [List.flatMap_nil, List.append_nil]
    exact hwrote.emit rfl rfl

/-- A pixel step moves the next pixel to those loaded. -/
theorem Encoding.step {m : Magic} {hdr : List Byte} {loaded rest : List Pixel} {p : Pixel} {s : State}
    (hs : Encoding m hdr loaded (p :: rest) s) :
    ∃ t, Machine.step s = .next t ∧ Encoding m hdr (loaded ++ [p]) rest t := by
  obtain ⟨is, ps, hcodes, hloaded, hcommits, hwrote⟩ := hs.coded
  have hcount : s.pxi + (rest.length + 1) = s.pxcount := hs.count
  have hchunks : s.phase = .chunks := hs.phase.trans (if_pos (by omega))
  have ha : atChunk s := ⟨hchunks, by omega⟩
  have hrun := (hs.engine.encode (.inr (.inl hchunks)) hs.op).run.1
  have hstep := (step_chunk_encode hs.cmd hs.op ha).trans (encodePixel_of_pixel hs.op ha (hs.loads 0 p rfl))
  obtain ⟨qs, hnew, hrest, hcommit⟩ := codes_pixelItems p hs.engine.slot hrun
  have hphase := encodedPixel_phase (p := p) (n := runAfter p s) (bs := pixelBytes p s) hchunks
  refine ⟨_, hstep, ⟨hs.toLaunched.step hstep, ?_, ?_, ?_, ?_, ?_, ?_⟩⟩
  · simpa using hs.op
  · simpa using hs.magic
  · simpa using hphase
  · simpa [Nat.add_assoc, Nat.add_comm 1] using hcount
  · intro k q hk
    rw [loadPixel_congr (s := s) (by simp) (by simp), endPixel_pxi, Nat.add_assoc, Nat.add_comm 1]
    exact hs.loads (k + 1) q hk
  · refine ⟨is ++ pixelItems p s, ps ++ qs, hcodes.append (hcommits ▸ hnew), ?_, ?_, ?_⟩
    · rw [hloaded, List.append_assoc, ← hrest, List.append_assoc]
      simp
    · rw [Predictor.commits_append, hcommits, hcommit]
      simp [predictorOf, Predictor.commit]
    · rw [List.flatMap_append, ← List.append_assoc, ← hs.magic, ← pixelBytes_eq, hs.magic]
      exact hwrote.emit (by simp) (by simp)

/-- The pixel steps load every pixel. -/
theorem Encoding.reaches_end {m : Magic} {hdr : List Byte} {loaded rest : List Pixel} {s : State}
    (hs : Encoding m hdr loaded rest s) : ∃ t, Reaches s t ∧ Encoding m hdr (loaded ++ rest) [] t := by
  induction rest generalizing loaded s with
  | nil => exact ⟨s, .refl s, by rwa [List.append_nil]⟩
  | cons p rest ih =>
    obtain ⟨t, hst, ht⟩ := hs.step
    obtain ⟨u, htu, hu⟩ := ih ht
    exact ⟨u, (Reaches.step hst).trans htu, by rwa [List.append_assoc, List.singleton_append] at hu⟩

/-- With every pixel loaded, END completes the stream of chunks that stand for them. -/
theorem Encoding.finish {m : Magic} {hdr : List Byte} {loaded : List Pixel} {s : State}
    (hs : Encoding m hdr loaded [] s) :
    ∃ is, Codes .start is loaded ∧ Reaches s (endEncode s) ∧
      readEncode (endEncode s) = .ok (hdr ++ chunksAndMarker m is) := by
  obtain ⟨is, ps, hcodes, hloaded, _, hwrote⟩ := hs.coded
  have hcount : s.pxi = s.pxcount := hs.count
  have hend : s.phase = .endMarker := hs.phase.trans (if_neg (by omega))
  have hrun : s.run = 0 := (hs.engine.encode (.inr (.inr hend)) hs.op).closed hend
  rw [hrun, List.replicate_zero, List.append_nil] at hloaded
  have hw : Wrote (hdr ++ chunksAndMarker m is) (endEncode s) := by
    rw [chunksAndMarker, ← List.append_assoc]
    exact hwrote.emit rfl rfl
  refine ⟨is, hloaded ▸ hcodes, .step ((step_end_encode hs.cmd hs.op hend).trans (exec_end_encode hs.op hend)), ?_⟩
  refine (readEncode_eq_ok_iff _ _).mpr ⟨rfl, rfl, hostReadOutput_of_holdsAt ⟨.inl rfl, rfl, hs.cmd⟩ ?_ ?_⟩
  · rw [outputSpace, show (endEncode s).op = .encode from hs.op, hw.stream]
    exact holdsAt_ofBytes _
  · exact hw.opos.symm

/-! ### An encode from START -/

/-- R141 where none of its four conditions holds. -/
theorem validateEncode_of_legal {s : State} (hc : legalChannels s.channels) (hw : s.width ≠ 0) (hh : s.height ≠ 0)
    (hsize : imageBytes s.width s.height s.channels ≤ sizeLimit)
    (hlen : s.inLen = imageBytes s.width s.height s.channels) :
    validateEncode s = { s with pxcount := s.width.toNat * s.height.toNat } := by
  rw [validateEncode, if_neg (not_not.mpr hc), if_neg (not_or.mpr ⟨hw, hh⟩), if_neg (by omega),
    if_neg (not_not.mpr hlen)]

/-- START_ENCODE of a launch begins an operation that ends in the steps `encodeOperation` gives it. -/
theorem launched_startEncode (m : Magic) (px : List Byte) (w h : Word32) (c cs : Byte) :
    Launched (startEncode (launchedEncode m px w h c cs)) ∧
      stepsLeft (startEncode (launchedEncode m px w h c cs)) ≤ px.length + 2 := by
  obtain ⟨hp, _, hc, _⟩ := startEncode_spec (launchedEncode m px w h c cs)
  obtain ⟨_, hl⟩ := startEncode_input (launchedEncode m px w h c cs)
  refine ⟨⟨hc, engineInv_startEncode _, inputLengthTrue_startEncode (filled_ofBytes px)⟩, ?_⟩
  rcases hp with hp | hp
  · simp only [stepsLeft, hp, hl]
    exact Nat.le_refl _
  · simp only [stepsLeft, hp, Nat.zero_le]

/-- The pixels of a buffer, as an encode of c channels loads them. -/
def LoadsAs (c : Byte) (px : List Byte) (ps : List Pixel) : Prop :=
  ∀ (s : State) (k : Nat) (p : Pixel), s.channels = c → s.pixbuf = Memory.ofBytes px → ps[k]? = some p →
    loadPixel k s = .pixel p

/-- An encode of a valid image gives its header, chunks that stand for its pixels, and the end marker. -/
theorem encodeOperation_of_legal {m : Magic} {px : List Byte} {ps : List Pixel} {w h : Word32} {c : Byte} (cs : Byte)
    (hc : legalChannels c) (hw : w ≠ 0) (hh : h ≠ 0) (hcount : ps.length = w.toNat * h.toNat)
    (hsize : imageBytes w h c ≤ sizeLimit) (hlen : px.length = imageBytes w h c) (hload : LoadsAs c px ps) :
    ∃ is, Codes .start is ps ∧ encodeOperation m px w h c cs = .ok (streamOf m w h c cs is) := by
  obtain ⟨hl, hn⟩ := launched_startEncode m px w h c cs
  have hstart : startEncode (launchedEncode m px w h c cs) =
      { initOperation (launchedEncode m px w h c cs) with
        op := .encode, stream := [], pxcount := w.toNat * h.toNat } :=
    validateEncode_of_legal hc hw hh hsize hlen
  obtain ⟨t, hst, ht⟩ := Encoding.begin (ps := ps) hl (by rw [hstart]) (by rw [hstart]; rfl) (by rw [hstart]; rfl)
    (by rw [hstart]) (by rw [hstart]; exact hcount)
    fun k p hk => hload _ k p (by rw [hstart]; rfl) (by rw [hstart]; rfl) hk
  obtain ⟨u, htu, hu⟩ := ht.reaches_end
  obtain ⟨is, hcodes, hend, hread⟩ := hu.finish
  have hrun := hl.stepsFrom_eq hn (((Reaches.step hst).trans htu).trans hend) rfl
  rw [hstart] at hread
  exact ⟨is, hcodes, (encodeOperation_eq_iff (o := .ok _) nofun).mpr ⟨_, hrun, hread⟩⟩

end Sys2Proof
end

section
/-! SUPPORT. The run of a decode of a header, chunks and the end marker (R128): each chunk commits the pixels that it
stands for, and their bytes in the requested layout are the output (R171). -/

namespace Sys2Proof

open Machine

/-! ### The layouts of a pixel buffer (R170, R171) -/

/-- The bytes of a decoded pixel, c the channels of the source and r the channels requested (R171). -/
def layoutBytes (c r : Byte) (p : Pixel) : List Byte :=
  if r = 3 then [p.r, p.g, p.b] else if c = 4 then [p.r, p.g, p.b, p.a] else [p.r, p.g, p.b, alphaDefault]

theorem storedBytes_eq (p : Pixel) (s : State) : storedBytes p s = layoutBytes s.channels s.reqch p := rfl

theorem length_flatMap_of_const {ps : List Pixel} {f : Pixel → List Byte} {n : Nat} (hf : ∀ p, (f p).length = n) :
    (ps.flatMap f).length = ps.length * n := by
  simp [List.length_flatMap, hf]

/-- In a row of pixels of n bytes each, pixel k stands k * n bytes on. -/
theorem holdsAt_flatMap {m : Memory} {a n k : Nat} {ps : List Pixel} {p : Pixel} {f : Pixel → List Byte}
    (hf : ∀ p, (f p).length = n) (h : HoldsAt m a (ps.flatMap f)) (hk : ps[k]? = some p) :
    HoldsAt m (a + k * n) (f p) := by
  obtain ⟨hlt, rfl⟩ := List.getElem?_eq_some_iff.mp hk
  have hsplit : ps = ps.take k ++ ps[k] :: ps.drop (k + 1) := by
    rw [List.getElem_cons_drop, List.take_append_drop]
  have hlen : ((ps.take k).flatMap f).length = k * n := by
    rw [length_flatMap_of_const hf, List.length_take, Nat.min_eq_left (by omega)]
  rw [hsplit, List.flatMap_append, List.flatMap_cons, holdsAt_append, holdsAt_append, hlen] at h
  exact h.2.1

/-! ### What a chunk applies (R113, R115, R121) -/

theorem SameDescriptor.trans {s t u : State} (h : SameDescriptor s t) (h' : SameDescriptor t u) : SameDescriptor s u :=
  ⟨h'.magic.trans h.magic, h'.op.trans h.op, h'.width.trans h.width, h'.height.trans h.height,
    h'.channels.trans h.channels, h'.colorspace.trans h.colorspace, h'.reqch.trans h.reqch, h'.inLen.trans h.inLen⟩

/-- A chunk of len bytes has committed the pixels ps, and nothing else has changed that a decode reads. -/
structure ChunkApplied (ps : List Pixel) (len : Nat) (s t : State) : Prop where
  predictor : predictorOf t = (predictorOf s).commits ps
  pxi : t.pxi = s.pxi + ps.length
  ipos : t.ipos = s.ipos + len
  phase : t.phase = phaseAfter t.pxi t.pxcount
  pxcount : t.pxcount = s.pxcount
  cmd : t.cmd = s.cmd
  stream : t.stream = s.stream
  descriptor : SameDescriptor s t
  pixbuf : t.pixbuf = s.pixbuf.writeBytes (s.pxi * storedWidth s) (ps.flatMap fun p => storedBytes p s)

theorem chunkApplied_resolved (len : Nat) (p : Pixel) {s : State} (hp : s.phase = .chunks) :
    ChunkApplied [p] len s (nextChunk len (resolve p s)) where
  predictor := by simp [predictorOf, Predictor.commit]
  pxi := by simp
  ipos := by simp
  phase := by simpa using resolved_phase (len := len) (p := p) hp
  pxcount := by simp
  cmd := by simp
  stream := by simp
  descriptor := sameDescriptor_resolved len p s
  pixbuf := by simp [storeOffset_eq]

theorem predictorOf_repeatPrev (n : Nat) (s : State) :
    predictorOf (repeatPrev n s) = (predictorOf s).commits (List.replicate n s.prev) := by
  cases n with
  | zero => rfl
  | succ n => simp [predictorOf, repeatPrev_cache_succ, Predictor.commits_replicate_succ, Predictor.commit]

theorem chunkApplied_repeated (n : Nat) {s : State} (hp : s.phase = .chunks) :
    ChunkApplied (List.replicate n s.prev) 1 s (nextChunk 1 (repeatPrev n s)) where
  predictor := by rw [← predictorOf_repeatPrev]; simp [predictorOf]
  pxi := by simp
  ipos := by simp
  phase := by simpa using repeated_phase (len := 1) (n := n) hp
  pxcount := by simp
  cmd := by simp
  stream := by simp
  descriptor := sameDescriptor_repeated 1 n s
  pixbuf := by rw [nextChunk_pixbuf, repeatPrev_pixbuf, List.flatMap_replicate]

/-- A chunk whose pixels are still to be produced applies them. -/
theorem exec_chunkApplied {i : Instr} {s : State} (hp : i.place = .atChunk) (ho : s.op = .decode) (ha : atChunk s)
    (hfit : (chunkPixels i (predictorOf s)).length ≤ s.pxcount - s.pxi) :
    ∃ t, exec i s = .next t ∧ ChunkApplied (chunkPixels i (predictorOf s)) i.length s t := by
  rcases onePixel_or_run hp with hi | ⟨n, rfl⟩
  · rw [chunkPixels_onePixel hi]
    exact ⟨_, exec_onePixel_of_atChunk hi ho ha, chunkApplied_resolved _ _ ha.1⟩
  · rw [chunkPixels, List.length_replicate] at hfit
    exact ⟨_, exec_run_of_fits ho ha hfit, chunkApplied_repeated n ha.1⟩

/-! ### The chunks of a decode -/

/-- A decode in its chunk phase or at its end, with the descriptor of s0: the output is the pixels done, and from IPOS
to IN_LEN stand chunks for the pixels still to come and the end marker. -/
structure Decoding (s0 : State) (done : List Pixel) (is : List Instr) (rest : List Pixel) (s : State) : Prop where
  cmd : s.cmd = none
  op : s.op = .decode
  descriptor : SameDescriptor s0 s
  phase : s.phase = phaseAfter s.pxi s.pxcount
  count : s.pxi + rest.length = s.pxcount
  codes : Codes (predictorOf s) is rest
  bytes : HoldsAt s.stream s.ipos (chunksAndMarker s.magic is)
  length : s.ipos + (chunksAndMarker s.magic is).length = s.inLen
  pxi : s.pxi = done.length
  pixbuf : s.pixbuf = Memory.ofBytes (done.flatMap (layoutBytes s0.channels s0.reqch))

/-- The width of a pixel in the output. -/
theorem layoutBytes_length {c r : Byte} (hr : legalChannels r) (p : Pixel) : (layoutBytes c r p).length = r.toNat := by
  rw [legal_toNat hr, layoutBytes]
  rcases hr with rfl | rfl
  · rfl
  · rw [if_neg (by decide), if_pos rfl]
    split <;> rfl

/-- A chunk's step moves its pixels to those done. -/
theorem Decoding.step {s0 s : State} {done rest : List Pixel} {i : Instr} {is : List Instr}
    (hs : Decoding s0 done (i :: is) rest s) (hr : legalChannels s0.reqch) :
    ∃ t ps qs, rest = ps ++ qs ∧ Machine.step s = .next t ∧ Decoding s0 (done ++ ps) is qs t := by
  obtain ⟨hplace, hwf, qs, rfl, hcodes⟩ := hs.codes.uncons
  have hcount := hs.count
  have hpos := chunkPixels_length_pos hwf (predictorOf s)
  rw [List.length_append] at hcount
  have ha : atChunk s := ⟨hs.phase.trans (if_pos (by omega)), by omega⟩
  have hbytes := hs.bytes
  have hlength := hs.length
  rw [chunksAndMarker_cons] at hbytes hlength
  obtain ⟨hchunk, hbehind⟩ := holdsAt_append.mp hbytes
  rw [List.length_append] at hlength
  rw [encode_length] at hlength hbehind
  have hfetch : fetchChunk s = .item i := by
    have hd := decodeAt_encode s.magic [] hwf
    rw [hplace, List.append_nil] at hd
    exact fetchChunk_of_item hchunk (by rw [encode_length]; omega) hd
  obtain ⟨t, hexec, hap⟩ := exec_chunkApplied hplace hs.op ha (by omega)
  have hstep : Machine.step s = .next t := by rw [step_chunk_decode hs.cmd hs.op ha, hfetch, runFetched_item, hexec]
  have hd := hap.descriptor
  refine ⟨t, _, qs, rfl, hstep, ?_⟩
  exact {
    cmd := hap.cmd.trans hs.cmd
    op := hd.op.trans hs.op
    descriptor := hs.descriptor.trans hd
    phase := hap.phase
    count := by rw [hap.pxi, hap.pxcount]; omega
    codes := hap.predictor ▸ hcodes
    bytes := by rw [hap.stream, hap.ipos, hd.magic]; exact hbehind
    length := by rw [hap.ipos, hd.inLen, hd.magic]; omega
    pxi := by rw [hap.pxi, hs.pxi, List.length_append]
    pixbuf := by
      have hreq := hs.descriptor.reqch
      have hwidth : storedWidth s = s0.reqch.toNat := by rw [storedWidth_of_legal (hreq ▸ hr), hreq]
      rw [hap.pixbuf, hs.pixbuf, List.flatMap_append, ofBytes_append, length_flatMap_of_const (layoutBytes_length hr),
        hs.pxi, hwidth]
      simp only [storedBytes_eq, hs.descriptor.channels, hreq] }

/-- The chunks produce every pixel. -/
theorem Decoding.reaches_end {s0 s : State} {done rest : List Pixel} {is : List Instr}
    (hs : Decoding s0 done is rest s) (hr : legalChannels s0.reqch) :
    ∃ t, Reaches s t ∧ Decoding s0 (done ++ rest) [] [] t := by
  induction is generalizing done rest s with
  | nil =>
    cases hs.codes with
    | nil => exact ⟨s, .refl s, by rwa [List.append_nil]⟩
  | cons i is ih =>
    obtain ⟨t, ps, qs, rfl, hst, ht⟩ := hs.step hr
    obtain ⟨u, htu, hu⟩ := ih ht
    exact ⟨u, (Reaches.step hst).trans htu, by rwa [List.append_assoc] at hu⟩

/-- With every pixel produced, the end marker ends the decode, and the output is the pixels in the layout requested. -/
theorem Decoding.finish {s0 s : State} {done : List Pixel} (hs : Decoding s0 done [] [] s)
    (hr : legalChannels s0.reqch) :
    Machine.step s = .next (endDecode s) ∧ readDecode (endDecode s) =
      .ok (done.flatMap (layoutBytes s0.channels s0.reqch)) s0.width s0.height s0.channels s0.colorspace false := by
  have hd := hs.descriptor
  have hcount : s.pxi = s.pxcount := hs.count
  have hend : s.phase = .endMarker := hs.phase.trans (if_neg (by omega))
  have hlength : s.ipos + 8 = s.inLen := hs.length
  have hfetch : fetchEnd s = .item .endMarker :=
    fetchEnd_of_item (rest := []) hs.bytes (Nat.le_of_eq hlength) (decodeEnd_encode s.magic [])
  refine ⟨by rw [step_end_decode hs.cmd hs.op hend, hfetch, runFetched_item, exec_end_decode hs.op hend], ?_⟩
  have hspace : outputSpace (endDecode s) = Memory.ofBytes (done.flatMap (layoutBytes s0.channels s0.reqch)) := by
    rw [outputSpace, show (endDecode s).op = .decode from hs.op]
    exact hs.pixbuf
  have hlen : (done.flatMap (layoutBytes s0.channels s0.reqch)).length = (endDecode s).outLen := by
    rw [length_flatMap_of_const (layoutBytes_length hr), ← hs.pxi, hcount, ← hd.reqch]
    rfl
  have hout := hostReadOutput_of_holdsAt (s := endDecode s) ⟨.inl rfl, rfl, hs.cmd⟩ (hspace ▸ holdsAt_ofBytes _) hlen
  have hwarn : (endDecode s).warnTrailing = false := by simp [endDecode, hlength]
  rw [readDecode_of_done rfl rfl hout, hwarn, ← hd.width, ← hd.height, ← hd.channels, ← hd.colorspace]
  rfl

/-! ### A decode from START -/

/-- The fields of a header that passes every check of R111 steps 5 to 7, r channels being requested. -/
structure HeaderLegal (w h : Word32) (c r : Byte) : Prop where
  width : w ≠ 0
  height : h ≠ 0
  channels : legalChannels c
  size : imageBytes w h c ≤ sizeLimit
  requested : imageBytes w h r ≤ sizeLimit

theorem HeaderLegal.pixels_pos {w h : Word32} {c r : Byte} (hl : HeaderLegal w h c r) : 0 < w.toNat * h.toNat :=
  Nat.mul_pos (BitVec.toNat_pos_of_ne_zero hl.width) (BitVec.toNat_pos_of_ne_zero hl.height)

theorem checkHeader_of_legal {s : State} (hl : HeaderLegal s.width s.height s.channels s.reqch) :
    checkHeader s = { s with pxcount := s.width.toNat * s.height.toNat, phase := .chunks } := by
  obtain ⟨hw, hh, hc, hsize, hreq⟩ := hl
  rw [checkHeader, if_neg (not_or.mpr ⟨hw, hh⟩), if_neg (not_not.mpr hc), if_neg (by omega)]

/-- The chunk phase of the image of a header begins (R111 step 8). -/
def beginChunks (w h : Word32) (c cs : Byte) (s : State) : State :=
  { takeHeader w h c cs s with pxcount := w.toNat * h.toNat, phase := .chunks }

/-- A legal header begins the chunk phase of its image. -/
theorem exec_header_of_legal {w h : Word32} {c : Byte} (cs : Byte) {s : State} (ho : s.op = .decode)
    (hp : s.phase = .header) (hl : HeaderLegal w h c s.reqch) :
    exec (.header w h c cs) s = .next (beginChunks w h c cs s) :=
  (exec_header_decode ho hp).trans (congrArg _ (checkHeader_of_legal (s := takeHeader w h c cs s) hl))

/-- What START_DECODE leaves where REQCH is legal: nothing decoded, PREV and CACHE at their start (R220). -/
structure DecodeBegun (s : State) : Prop where
  cmd : s.cmd = none
  op : s.op = .decode
  phase : s.phase = .header
  predictor : predictorOf s = .start
  pxi : s.pxi = 0
  pixbuf : s.pixbuf = []

theorem decodeBegun_startDecode {s : State} (hr : legalChannels s.reqch) : DecodeBegun (startDecode s) := by
  rcases startDecode_cases s with ⟨_, h⟩ | ⟨hn, _⟩
  · rw [h]
    exact ⟨rfl, rfl, rfl, rfl, rfl, rfl⟩
  · exact absurd hr hn

/-- HEADER begins the chunk phase with no pixel done. -/
theorem Decoding.begin {s : State} {w h : Word32} {c cs : Byte} {is : List Instr} {ps : List Pixel}
    (hs : DecodeBegun s) (hl : HeaderLegal w h c s.reqch) (hcount : ps.length = w.toNat * h.toNat)
    (hcodes : Codes .start is ps) (hstream : s.stream = Memory.ofBytes (streamOf s.magic w h c cs is))
    (hlen : s.inLen = (streamOf s.magic w h c cs is).length) :
    Machine.step s = .next (beginChunks w h c cs s) ∧
      Decoding (beginChunks w h c cs s) [] is ps (beginChunks w h c cs s) := by
  have hbytes : HoldsAt s.stream 0 (streamOf s.magic w h c cs is) := hstream ▸ holdsAt_ofBytes _
  obtain ⟨_, hbehind⟩ := holdsAt_append.mp hbytes
  rw [streamOf, List.length_append, encode_length] at hlen
  rw [encode_length, Nat.zero_add] at hbehind
  have hfetch : fetchHeader s = .item (.header w h c cs) :=
    fetchHeader_of_item hbytes (by rw [streamOf, List.length_append, encode_length, hlen])
      (decodeHeader_encode s.magic w h c cs _)
  refine ⟨?_, ?_⟩
  · rw [step_header_decode hs.cmd hs.op hs.phase, hfetch, runFetched_item,
      exec_header_of_legal cs hs.op hs.phase hl]
  · exact {
      cmd := hs.cmd
      op := hs.op
      descriptor := sameDescriptor_refl _
      phase := (if_pos (hs.pxi.trans_lt hl.pixels_pos)).symm
      count := by simp [beginChunks, hs.pxi, hcount]
      codes := (show predictorOf (beginChunks w h c cs s) = .start from hs.predictor) ▸ hcodes
      bytes := hbehind
      length := hlen.symm
      pxi := hs.pxi
      pixbuf := hs.pixbuf }

/-- START_DECODE of a launch leaves what the host gave. -/
theorem startDecode_launched (m : Magic) (bs : List Byte) (r : Byte) :
    (startDecode (launchedDecode m bs r)).magic = m ∧ (startDecode (launchedDecode m bs r)).reqch = r ∧
      (startDecode (launchedDecode m bs r)).inLen = bs.length ∧
      (startDecode (launchedDecode m bs r)).stream = Memory.ofBytes bs := by
  obtain ⟨hmagic, hreq, hinLen⟩ := sameHostRegisters_startDecode (launchedDecode m bs r)
  obtain ⟨_, _, hstream, _, _⟩ := startDecode_spec (launchedDecode m bs r)
  exact ⟨hmagic, hreq, hinLen, hstream⟩

/-- The stream of chunks that stand for an image is decoded to the pixels of the image. -/
theorem decodeOperation_of_codes {m : Magic} {is : List Instr} {ps : List Pixel} {w h : Word32} {c r : Byte} (cs : Byte)
    (hl : HeaderLegal w h c r) (hr : legalChannels r) (hcount : ps.length = w.toNat * h.toNat)
    (hcodes : Codes .start is ps) :
    decodeOperation m (streamOf m w h c cs is) r = .ok (ps.flatMap (layoutBytes c r)) w h c cs false := by
  generalize hbs : streamOf m w h c cs is = bs
  obtain ⟨hlaunched, hn⟩ := launched_startDecode m bs r
  obtain ⟨u, hu, _, hread⟩ := decodeOperation_run m bs r
  obtain ⟨hmagic, hreq, hinLen, hstream⟩ := startDecode_launched m bs r
  have hbegun := decodeBegun_startDecode (s := launchedDecode m bs r) hr
  generalize startDecode (launchedDecode m bs r) = s at hlaunched hn hu hmagic hreq hinLen hstream hbegun
  subst hmagic hreq hbs
  obtain ⟨hst, ht⟩ := Decoding.begin hbegun hl hcount hcodes hstream hinLen
  obtain ⟨v, htv, hv⟩ := ht.reaches_end hr
  obtain ⟨hend, hok⟩ := hv.finish hr
  rw [hlaunched.stepsFrom_eq hn (((Reaches.step hst).trans htv).trans (Reaches.step hend)) rfl] at hu
  cases hu
  exact hread.trans hok

/-! ### An image and its stream (R128) -/

/-- A 4-channel buffer is loaded pixel by pixel (R170). -/
theorem loadsAs_four (ps : List Pixel) : LoadsAs 4 (ps.flatMap fun p => [p.r, p.g, p.b, p.a]) ps := by
  intro s k p hc hb hk
  have h := holdsAt_flatMap (n := 4) (fun _ => rfl) (holdsAt_ofBytes (ps.flatMap fun p => [p.r, p.g, p.b, p.a])) hk
  rw [Nat.zero_add, Nat.mul_comm] at h
  have hread := readBytes_of_holdsAt h
  simp only [List.length_cons, List.length_nil, Nat.zero_add] at hread
  rw [loadPixel, if_pos hc, hb, hread]

/-- A pixel of a 3-channel image: its alpha is 255 (R170). -/
def opaquePixel (p : Pixel) : Pixel := { p with a := alphaDefault }

/-- A 3-channel buffer is loaded pixel by pixel, each with alpha 255 (R170). -/
theorem loadsAs_three (ps : List Pixel) : LoadsAs 3 (ps.flatMap fun p => [p.r, p.g, p.b]) (ps.map opaquePixel) := by
  intro s k p hc hb hk
  rw [List.getElem?_map] at hk
  obtain ⟨q, hq, rfl⟩ := Option.map_eq_some_iff.mp hk
  have h := holdsAt_flatMap (n := 3) (fun _ => rfl) (holdsAt_ofBytes (ps.flatMap fun p => [p.r, p.g, p.b])) hq
  rw [Nat.zero_add, Nat.mul_comm] at h
  have hread := readBytes_of_holdsAt h
  simp only [List.length_cons, List.length_nil, Nat.zero_add] at hread
  rw [loadPixel, if_neg (by rw [hc]; decide), hb, hread]
  rfl

/-- An encode of a valid image gives a stream that every decode with a legal size decodes to its pixels. -/
theorem decode_of_encode {m : Magic} {px : List Byte} {ps : List Pixel} {w h : Word32} {c : Byte} (cs : Byte)
    (hc : legalChannels c) (hw : w ≠ 0) (hh : h ≠ 0) (hcount : ps.length = w.toNat * h.toNat)
    (hsize : ps.length * c.toNat ≤ sizeLimit) (hlen : px.length = ps.length * c.toNat) (hload : LoadsAs c px ps) :
    ∃ stream, encodeOperation m px w h c cs = .ok stream ∧
      ∀ r, legalChannels r → ps.length * r.toNat ≤ sizeLimit →
        decodeOperation m stream r = .ok (ps.flatMap (layoutBytes c r)) w h c cs false := by
  have hbytes : ∀ r : Byte, ps.length * r.toNat = imageBytes w h r := fun r => by rw [hcount, imageBytes]
  rw [hbytes] at hsize hlen
  obtain ⟨is, hcodes, hok⟩ := encodeOperation_of_legal cs hc hw hh hcount hsize hlen hload
  exact ⟨_, hok, fun r hr hreq =>
    decodeOperation_of_codes cs ⟨hw, hh, hc, hsize, hbytes r ▸ hreq⟩ hr hcount hcodes⟩

end Sys2Proof
end

section
/-! PROOF. The tier 3 obligation of 41_decoder.md about both operations: decoding what the encoder produces gives the
image back (R128). -/

namespace Sys2Proof

open Machine

/-- Settles O55: the encoder's chunks stand for the pixels it loads, and the decoder stores the pixels that the chunks
stand for. -/
theorem decodeOfEncodeIsTheImage : Obligations.DecodeOfEncodeIsTheImage := by
  intro m ps w h cs hw hh hcount
  constructor
  · intro hsize
    obtain ⟨stream, hok, hdec⟩ := decode_of_encode (m := m) cs (.inr rfl) hw hh hcount hsize
      (length_flatMap_of_const fun _ => rfl) (loadsAs_four ps)
    refine ⟨stream, hok, hdec 4 (.inr rfl) hsize, hdec 3 (.inl rfl) ?_⟩
    exact (Nat.mul_le_mul_left _ (by decide)).trans hsize
  · intro hsize
    have hmap : (ps.map opaquePixel).length = ps.length := List.length_map opaquePixel
    obtain ⟨stream, hok, hdec⟩ := decode_of_encode (m := m) cs (.inl rfl) hw hh (hmap.trans hcount) (hmap ▸ hsize)
      (hmap ▸ length_flatMap_of_const fun _ => rfl) (loadsAs_three ps)
    rw [hmap] at hdec
    refine ⟨stream, hok, (hdec 3 (.inl rfl) hsize).trans ?_, fun h4 => (hdec 4 (.inr rfl) h4).trans ?_⟩ <;>
      rw [List.flatMap_map] <;> rfl

end Sys2Proof
end

section
/-! SUPPORT. Rules about the results of the decoder's items (41_decoder.md R111 to R124): the committed pixels of a
chunk, the checks of the header and the bytes that fetching refuses. -/

namespace Sys2Proof

open Machine

/-! ### Chunks (R71, R114 to R121) -/

/-- The bytes of a chunk that are missing make it incomplete, and no more are asked for (R71, R114). -/
theorem decodeChunk_by_length (b0 : Byte) (t : List Byte) :
    (t.length + 1 < chunkLen b0 ∧ decodeChunk (b0 :: t) = .rejected .payloadMissing) ∨
      (chunkLen b0 ≤ t.length + 1 ∧ ∃ i rest, decodeChunk (b0 :: t) = .item i rest) := by
  rcases firstByte_cases b0 with rfl | rfl | h | h | h | h
  · rw [chunkLen_rgb, decodeChunk_rgb]
    match t with
    | [] | [_] | [_, _] => exact .inl ⟨by simp, rfl⟩
    | _ :: _ :: _ :: _ => exact .inr ⟨by simp, _, _, rfl⟩
  · rw [chunkLen_rgba, decodeChunk_rgba]
    match t with
    | [] | [_] | [_, _] | [_, _, _] => exact .inl ⟨by simp, rfl⟩
    | _ :: _ :: _ :: _ :: _ => exact .inr ⟨by simp, _, _, rfl⟩
  · rw [chunkLen_one (.inl (by omega)), decodeChunk_index t h]
    exact .inr ⟨by omega, _, _, rfl⟩
  · rw [chunkLen_one (.inl h.2), decodeChunk_diff t h]
    exact .inr ⟨by omega, _, _, rfl⟩
  · rw [chunkLen_luma h, decodeChunk_luma t h]
    match t with
    | [] => exact .inl ⟨by simp, rfl⟩
    | _ :: _ => exact .inr ⟨by simp, _, _, rfl⟩
  · rw [chunkLen_one (.inr h), decodeChunk_run t h]
    exact .inr ⟨by omega, _, _, rfl⟩

/-- The length of a chunk by the value of its first byte (R114). -/
theorem chunkLen_eq (b0 : Byte) : chunkLen b0 =
    if b0.toNat = 0xFE then 4 else if b0.toNat = 0xFF then 5
    else if 0x80 ≤ b0.toNat ∧ b0.toNat ≤ 0xBF then 2 else 1 := by
  rcases firstByte_cases b0 with rfl | rfl | h | h | h | h
  · exact chunkLen_rgb
  · exact chunkLen_rgba
  · rw [chunkLen_one (.inl (by omega)), if_neg (by omega), if_neg (by omega), if_neg (by omega)]
  · rw [chunkLen_one (.inl h.2), if_neg (by omega), if_neg (by omega), if_neg (by omega)]
  · rw [chunkLen_luma h, if_neg (by omega), if_neg (by omega), if_pos (by omega)]
  · rw [chunkLen_one (.inr h), if_neg (by omega), if_neg (by omega), if_neg (by omega)]

/-- A chunk of one pixel completes in a decode, and its pixel is committed. -/
theorem exec_onePixel_committed {i : Instr} {s : State} (hi : i.onePixel = true) (hs : DecodingChunk s) :
    ∃ t, exec i s = .next t ∧ PixelCommitted (resolvedPixel i s.prev s.cache) i.length s t :=
  ⟨_, exec_onePixel_of_atChunk hi hs.1 hs.2, pixelCommitted_resolve _ _ hs.2.1⟩

/-- N commits of PREV store it at each of the N places (R121). -/
theorem holdsAt_repeatPrev {n k : Nat} (hk : k < n) (s : State) :
    HoldsAt (repeatPrev n s).pixbuf (storeOffset (s.pxi + k) s) (storedBytes s.prev s) := by
  have h := holdsAt_writeBytes s.pixbuf (s.pxi * storedWidth s) (List.replicate n (storedBytes s.prev s)).flatten
  rw [← repeatPrev_pixbuf, ← List.flatMap_replicate (f := fun p => storedBytes p s)] at h
  rw [storeOffset_eq, Nat.add_mul]
  exact holdsAt_flatMap (fun p => storedBytes_length p s) h (by rw [List.getElem?_replicate, if_pos hk])

/-! ### The header (R111) -/

/-- The first check of R111 steps 5 to 7 that an illegal header fails. -/
def headerCause (s : State) : Cause :=
  if s.width = 0 ∨ s.height = 0 then .zeroDimension
  else if ¬ legalChannels s.channels then .badChannels
  else .sizeOverflow

theorem checkHeader_of_illegal {s : State} (h : ¬ HeaderLegal s.width s.height s.channels s.reqch) :
    checkHeader s = raise (headerCause s) headerLen s := by
  unfold checkHeader headerCause
  by_cases hdim : s.width = 0 ∨ s.height = 0
  · rw [if_pos hdim, if_pos hdim]
  by_cases hc : legalChannels s.channels
  · have hsize : sizeLimit < imageBytes s.width s.height s.channels ∨
        sizeLimit < imageBytes s.width s.height s.reqch := by
      by_contra hle
      obtain ⟨hw, hh⟩ := not_or.mp hdim
      exact h ⟨hw, hh, hc, by omega, by omega⟩
    rw [if_neg hdim, if_neg hdim, if_neg (not_not.mpr hc), if_neg (not_not.mpr hc), if_pos hsize]
  · rw [if_neg hdim, if_neg hdim, if_pos hc, if_pos hc]

theorem headerCause_cases (s : State) :
    (headerCause s).err = 1 ∧ (headerCause s).surfaces = false ∧ (headerCause s).sub =
      if s.width = 0 ∨ s.height = 0 then 3 else if ¬ legalChannels s.channels then 2 else 4 := by
  unfold headerCause
  by_cases hdim : s.width = 0 ∨ s.height = 0
  · simp only [if_pos hdim]
    exact ⟨rfl, rfl, rfl⟩
  · by_cases hc : legalChannels s.channels
    · simp only [if_neg hdim, if_neg (not_not.mpr hc)]
      exact ⟨rfl, rfl, rfl⟩
    · simp only [if_neg hdim, if_pos hc]
      exact ⟨rfl, rfl, rfl⟩

/-- A header is short where the bytes after the magic are fewer than ten (R111 step 3). -/
theorem decodeHeaderFields_short {bs : List Byte} (h : bs.length < 10) :
    decodeHeaderFields bs = .rejected .headerShort := by
  rw [decodeHeaderFields.eq_def]
  split
  · simp at h
    omega
  · rfl

theorem decodeHeader_badMagic {m : Magic} {bs : List Byte} {k : Nat} {b e : Byte}
    (ht : bs.take k = m.bytes.take k) (hb : bs[k]? = some b) (he : m.bytes[k]? = some e) (hne : b ≠ e) :
    decodeHeader m bs = .rejected (.badMagic k) := by
  have hc : compareBytes 0 m.bytes bs = .differs k :=
    (compareBytes_differs_iff 0 k m.bytes bs).mpr ⟨k, (Nat.zero_add k).symm, ht, b, e, hb, he, hne⟩
  rw [decodeHeader, hc]

theorem decodeHeader_short {m : Magic} {bs : List Byte} (hl : bs.length < 14)
    (ht : bs.take 4 = m.bytes.take bs.length) : decodeHeader m bs = .rejected .headerShort := by
  have hm : m.bytes.length = 4 := rfl
  rcases Nat.lt_or_ge bs.length 4 with h4 | h4
  · rw [List.take_of_length_le (by omega)] at ht
    rw [decodeHeader, (compareBytes_short_iff 0 m.bytes bs).mpr ⟨by omega, ht⟩]
  · rw [List.take_of_length_le (i := bs.length) (by omega)] at ht
    rw [← List.take_append_drop 4 bs, ht, decodeHeader, compareBytes_append]
    exact decodeHeaderFields_short (by rw [List.length_drop]; omega)

/-! ### The end marker (R122) -/

theorem decodeEnd_mismatch {bs : List Byte} {k : Nat} {b e : Byte} (ht : bs.take k = endMarkerBytes.take k)
    (hb : bs[k]? = some b) (he : endMarkerBytes[k]? = some e) (hne : b ≠ e) :
    decodeEnd bs = .rejected (.markerMismatch k) := by
  have hc : compareBytes 0 endMarkerBytes bs = .differs k :=
    (compareBytes_differs_iff 0 k endMarkerBytes bs).mpr ⟨k, (Nat.zero_add k).symm, ht, b, e, hb, he, hne⟩
  rw [decodeEnd, hc]

theorem decodeEnd_short {bs : List Byte} (hl : bs.length < 8) (ht : bs = endMarkerBytes.take bs.length) :
    decodeEnd bs = .rejected .markerShort := by
  rw [decodeEnd, (compareBytes_short_iff 0 endMarkerBytes bs).mpr ⟨hl, ht⟩]

/-! ### Steps that take an error found while fetching -/

/-- Bytes that the header's decoder rejects make the step take the error they stand for. -/
theorem step_header_rejected {s : State} {bs : List Byte} {r : Reject} {c : Cause} {pos : Nat} (hc : s.cmd = none)
    (ho : s.op = .decode) (hp : s.phase = .header) (hb : HoldsAt s.stream 0 bs) (hl : bs.length = min 14 s.inLen)
    (hd : decodeHeader s.magic bs = .rejected r) (hr : rejection r 0 s = .raised c pos) :
    step s = .next (raise c pos s) := by
  rw [step_header_decode hc ho hp, fetchHeader, headerLen, ← hl, fetchBytes_of_holdsAt _ hb, decodeAt, hd]
  simp only [hr, runFetched]

/-- Bytes that the end marker's decoder rejects make the step take the error they stand for. -/
theorem step_end_rejected {s : State} {bs : List Byte} {r : Reject} {c : Cause} {pos : Nat} (hc : s.cmd = none)
    (ho : s.op = .decode) (hp : s.phase = .endMarker) (hb : HoldsAt s.stream s.ipos bs)
    (hl : bs.length = min 8 (s.inLen - s.ipos)) (hd : decodeEnd bs = .rejected r)
    (hr : rejection r s.ipos s = .raised c pos) : step s = .next (raise c pos s) := by
  rw [step_end_decode hc ho hp, fetchEnd, ← hl, fetchBytes_of_holdsAt _ hb, decodeAt, hd]
  simp only [hr, runFetched]

end Sys2Proof
end

section
/-! PROOF. The tier 2 obligations of 41_decoder.md: the length of a chunk (R114), DIFF, LUMA and RUN (R119 to R121), an
illegal header (R111), what END leaves (R124), and wrong or missing bytes of the two framing items (R111, R122). -/

namespace Sys2Proof

open Machine

/-- Settles O4: the first byte names the chunk, whose payload is all there or not. -/
theorem chunkLengthFromFirstByte : Obligations.ChunkLengthFromFirstByte := by
  refine ⟨chunkLen_eq, fun b0 t hlt => ?_, fun b0 t heq => ?_⟩
  · rcases decodeChunk_by_length b0 t with ⟨_, h⟩ | ⟨hge, _⟩
    · exact h
    · omega
  · rcases decodeChunk_by_length b0 t with ⟨hlt, _⟩ | ⟨_, i, rest, h⟩
    · omega
    · have hlen := (decodeChunk_spec h).2
      obtain ⟨cs, hc, hbs⟩ := chunkPattern_of_decodeChunk h
      have hcs : cs.length = i.length := by rw [← hc.encode_eq Config.defaultMagic, encode_length]
      have hrest : rest = [] := by
        have hl := congrArg List.length hbs
        rw [List.length_cons, List.length_append] at hl
        exact List.eq_nil_of_length_eq_zero (by omega)
      rw [hrest, List.append_nil] at hbs
      exact ⟨i, hlen, fun more => hbs ▸ hc.decodeChunk_append more⟩

/-- Settles O15: the pixel committed is PREV with each delta added to its channel. -/
theorem decodeDiffAddsDeltas : Obligations.DecodeDiffAddsDeltas := by
  intro dr dg db s hs
  obtain ⟨t, ht, hc⟩ := exec_onePixel_committed (i := .diff dr dg db) rfl hs
  exact ⟨t, _, ht, hc, addDelta_toNat _ _, addDelta_toNat _ _, addDelta_toNat _ _, rfl⟩

/-- Settles O16: the red and blue deltas are the green one plus their own. -/
theorem decodeLumaAddsGreenRelativeDeltas : Obligations.DecodeLumaAddsGreenRelativeDeltas := by
  intro dg drdg dbdg s hs
  obtain ⟨t, ht, hc⟩ := exec_onePixel_committed (i := .luma dg drdg dbdg) rfl hs
  refine ⟨t, _, ht, hc, ?_, addDelta_toNat _ _, ?_, rfl⟩
  · rw [Int.add_assoc]
    exact addDelta_toNat _ _
  · rw [Int.add_assoc]
    exact addDelta_toNat _ _

/-- Settles O17: N commits of PREV, the first of which is the one that CACHE shows. -/
theorem decodeRunRepeatsPreviousPixel : Obligations.DecodeRunRepeatsPreviousPixel := by
  rintro n s ⟨ho, ha⟩ h1 hn
  obtain ⟨n, rfl⟩ := Nat.exists_eq_add_of_le' h1
  refine ⟨_, exec_run_of_fits ho ha hn, by simp, ?_, ?_, by simp, by simp, repeated_phase ha.1, fun k hk => ?_⟩
  · rw [nextChunk_cur, repeatPrev_cur_succ]
  · rw [nextChunk_cache, repeatPrev_cache_succ]
    exact cacheUpdated_set s.prev s.cache
  · rw [nextChunk_pixbuf]
    exact holdsAt_repeatPrev hk s

/-- Settles O24: the first check that fails raises its cause at offset 14, the registers already filled. -/
theorem decodeHeaderValidationOrder : Obligations.DecodeHeaderValidationOrder := by
  intro w h c cs s ho hp hillegal
  have hcheck := checkHeader_of_illegal (s := takeHeader w h c cs s)
    fun hl => hillegal ⟨hl.width, hl.height, hl.channels, hl.size, hl.requested⟩
  obtain ⟨herr, hsurf, hsub⟩ := headerCause_cases (takeHeader w h c cs s)
  exact ⟨_, (exec_header_decode ho hp).trans (congrArg _ hcheck), rfl, herr, rfl, hsurf, rfl, hsub, rfl, rfl, rfl, rfl,
    ⟨rfl, rfl, rfl⟩, sameBytes_refl _, sameBytes_refl _⟩

/-- Settles O26: END writes the status and IPOS in a decode, the status, OPOS and the marker's bytes in an encode. -/
theorem endFrame : Obligations.EndFrame := by
  intro s t h
  by_cases hp : s.phase = .endMarker
  · cases ho : s.op with
    | decode =>
      rw [exec_end_decode ho hp] at h
      cases h
      exact ⟨sameDescriptor_endDecode s, ⟨rfl, rfl, rfl⟩, rfl, rfl, rfl, sameBytes_refl _,
        fun _ => ⟨rfl, sameBytes_refl _⟩, nofun⟩
    | encode =>
      rw [exec_end_encode ho hp] at h
      cases h
      exact ⟨sameDescriptor_endEncode s, ⟨rfl, rfl, rfl⟩, rfl, rfl, rfl, sameBytes_refl _, nofun,
        fun _ => ⟨rfl, sameOutside_writeBytes s.stream s.opos endMarkerBytes⟩⟩
  · rw [itemOutOfPlaceIsRefused .endMarker s hp] at h
    cases h

/-- Settles O37: the magic bytes are compared as they arrive, before the length is asked for. -/
theorem badOrShortHeaderRaises : Obligations.BadOrShortHeaderRaises := by
  intro s bs hc ho hp hb hl
  refine ⟨fun k b e _ ht hbk hek hne => ?_, fun hshort ht => ?_⟩
  · refine ⟨_, step_header_rejected hc ho hp hb hl (decodeHeader_badMagic ht hbk hek hne) rfl, ?_, rfl, rfl⟩
    rw [Nat.zero_add]
    exact errorTaken_raise _ _ _
  · exact ⟨_, step_header_rejected hc ho hp hb hl (decodeHeader_short (by omega) ht) rfl, errorTaken_raise _ _ _, rfl,
      rfl⟩

/-- Settles O38: the marker's bytes are compared as they arrive, and only a wrong one surfaces the output. -/
theorem badOrShortMarkerRaises : Obligations.BadOrShortMarkerRaises := by
  intro s bs hc ho hp hb hl
  refine ⟨fun k b e ht hbk hek hne => ?_, fun hshort ht => ?_⟩
  · exact ⟨_, step_end_rejected hc ho hp hb hl (decodeEnd_mismatch ht hbk hek hne) rfl, errorTaken_raise _ _ _, rfl,
      rfl, rfl, rfl, sameDescriptor_raise _ _ _⟩
  · exact ⟨_, step_end_rejected hc ho hp hb hl (decodeEnd_short hshort ht) rfl, errorTaken_raise _ _ _, rfl, rfl, rfl⟩

end Sys2Proof
end

section
/-! PROOF. The tier 1 obligations of 41_decoder.md: RGB, RGBA and INDEX (R116 to R118), a RUN that is too long (R121), a
legal header (R111), END (R122 to R124), a step and the item it runs (R113), and a truncated chunk (R112, R113). -/

namespace Sys2Proof

open Machine

/-- Settles O12: RGB resolves to its payload, with PREV's alpha. -/
theorem decodeRgbKeepsPreviousAlpha : Obligations.DecodeRgbKeepsPreviousAlpha :=
  fun r g b _ hs => exec_onePixel_committed (i := .rgb r g b) rfl hs

/-- Settles O13: RGBA resolves to its payload. -/
theorem decodeRgbaTakesAllFourChannels : Obligations.DecodeRgbaTakesAllFourChannels :=
  fun r g b a _ hs => exec_onePixel_committed (i := .rgba r g b a) rfl hs

/-- Settles O14: INDEX resolves to the pixel of its slot, read before the commit. -/
theorem decodeIndexReadsTheSlot : Obligations.DecodeIndexReadsTheSlot :=
  fun i _ hs => exec_onePixel_committed (i := .index i) rfl hs

/-- Settles O18: the length of the run is tested before anything is applied. -/
theorem decodeRunOverrunRaises : Obligations.DecodeRunOverrunRaises :=
  fun _ _ hs hn =>
    ⟨_, exec_run_of_overrun hs.1 hs.2 hn, errorTaken_raise _ _ _, rfl, rfl, sameDescriptor_raise _ _ _⟩

/-- Settles O22: a header that passes every check begins the chunk phase. -/
theorem decodeHeaderBeginsChunks : Obligations.DecodeHeaderBeginsChunks := by
  intro w h c cs s ho hp hw hh hc hsize hreq
  exact ⟨_, exec_header_of_legal cs ho hp ⟨hw, hh, hc, hsize, hreq⟩, rfl, rfl, rfl, rfl, rfl, rfl, rfl⟩

/-- Settles O23: a header that raises nothing writes its registers, IPOS, PXCOUNT and PHASE. -/
theorem decodeHeaderFrame : Obligations.DecodeHeaderFrame := by
  intro w h c cs s t ho hexec hne
  by_cases hp : s.phase = .header
  · rw [exec_header_decode ho hp] at hexec
    rcases checkHeader_cases (takeHeader w h c cs s) with ⟨_, _, _, hr⟩ | ⟨_, _, _, _, _, hk⟩
    · rw [hr] at hexec
      cases hexec
      exact absurd rfl hne
    · rw [hk] at hexec
      cases hexec
      exact ⟨rfl, rfl, rfl, rfl, ⟨rfl, rfl, rfl, rfl, rfl, rfl⟩, ⟨rfl, rfl, rfl⟩, rfl, rfl, rfl, rfl, sameBytes_refl _,
        sameBytes_refl _⟩
  · rw [itemOutOfPlaceIsRefused (.header w h c cs) s hp] at hexec
    cases hexec

/-- Settles O25: END of a decode finishes with the length of the output, and warns of bytes behind the marker. -/
theorem decodeEndCompletes : Obligations.DecodeEndCompletes :=
  fun _ ho hp => ⟨_, exec_end_decode ho hp, rfl, rfl, rfl, rfl, rfl, rfl, decide_eq_true_iff⟩

/-- Settles O35: the bytes at the item's place are the bytes fetched. -/
theorem stepRunsTheDecodedItem : Obligations.StepRunsTheDecodedItem := by
  refine ⟨?_, ?_, ?_, fun _ => step_header_encode, fun _ => step_end_encode⟩
  · intro s bs rest i hc ho hp hb hl hd
    rw [step_header_decode hc ho hp, fetchHeader_of_item hb hl hd, runFetched_item]
  · intro s bs rest i hc hs hb hl hd
    rw [step_chunk_decode hc hs.1 hs.2, fetchChunk_of_item hb hl hd, runFetched_item]
  · intro s bs rest i hc ho hp hb hl hd
    rw [step_end_decode hc ho hp, fetchEnd_of_item hb hl hd, runFetched_item]

/-- Settles O36: IN_LEN is compared with IPOS and with the chunk's length before the chunk is read. -/
theorem truncatedChunkRaises : Obligations.TruncatedChunkRaises := by
  intro s hc hs
  refine ⟨fun hle => ?_, fun b0 hlt hread hshort => ?_⟩
  · have hfetch : fetchChunk s = .raised .inChunks s.inLen := if_pos hle
    exact ⟨_, by rw [step_chunk_decode hc hs.1 hs.2, hfetch]; rfl, errorTaken_raise _ _ _, rfl, rfl⟩
  · have hfetch : fetchChunk s = .raised .inChunkPayload s.inLen := by
      simp only [fetchChunk, if_neg (Nat.not_le.mpr hlt), hread, if_pos hshort]
    exact ⟨_, by rw [step_chunk_decode hc hs.1 hs.2, hfetch]; rfl, errorTaken_raise _ _ _, rfl, rfl⟩

end Sys2Proof
end

section
/-! SUPPORT. Rules about the encoder of 42_encoder.md: R141's conditions as an encode meets them from its launch, the pixels
of a buffer (R143, R170), and which chunk is chosen for a pixel (R143, R101). -/

namespace Sys2Proof

open Machine

/-! ### R141: the first condition that holds -/

theorem validateEncode_badChannels {s : State} (hc : ¬ legalChannels s.channels) :
    validateEncode s = raise .badChannels 0 s := if_pos hc

theorem validateEncode_zeroDimension {s : State} (hc : legalChannels s.channels) (hdim : s.width = 0 ∨ s.height = 0) :
    validateEncode s = raise .zeroDimension 0 s := by
  rw [validateEncode, if_neg (not_not.mpr hc), if_pos hdim]

theorem validateEncode_sizeOverflow {s : State} (hc : legalChannels s.channels) (hdim : ¬ (s.width = 0 ∨ s.height = 0))
    (hsize : sizeLimit < imageBytes s.width s.height s.channels) : validateEncode s = raise .sizeOverflow 0 s := by
  rw [validateEncode, if_neg (not_not.mpr hc), if_neg hdim, if_pos hsize]

theorem validateEncode_badBufferLength {s : State} (hc : legalChannels s.channels)
    (hdim : ¬ (s.width = 0 ∨ s.height = 0)) (hsize : ¬ sizeLimit < imageBytes s.width s.height s.channels)
    (hlen : s.inLen ≠ imageBytes s.width s.height s.channels) : validateEncode s = raise .badBufferLength 0 s := by
  rw [validateEncode, if_neg (not_not.mpr hc), if_neg hdim, if_neg hsize, if_pos hlen]

/-! ### The outcome of an encode that is refused (R182, R184, R200) -/

theorem hostReadOutput_of_not_outvalid {s : State} (h : s.outvalid = false) : hostReadOutput s = none :=
  if_neg (by simp [h])

/-- An error that surfaces no output is read as its class and sub-cause. -/
theorem readEncode_raise {k : Cause} (hk : k.surfaces = false) (pos : Nat) (s : State) :
    readEncode (raise k pos s) = .error k.err k.sub := by
  simp only [readEncode, raise_phase, hostReadOutput_of_not_outvalid (s := raise k pos s) hk, raise_err, raise_sub]

/-- An encode whose START raises rests in that error. -/
theorem encodeOperation_of_startEncode_raise {m : Magic} {px : List Byte} {w h : Word32} {c cs : Byte} {k : Cause}
    {pos : Nat} {s : State} (hk : k.surfaces = false)
    (hstart : startEncode (launchedEncode m px w h c cs) = raise k pos s) :
    encodeOperation m px w h c cs = .error k.err k.sub := by
  obtain ⟨_, _, hcmd, _⟩ := startEncode_spec (launchedEncode m px w h c cs)
  rw [hstart] at hcmd
  refine (encodeOperation_eq_iff (o := .error _ _) nofun).mpr ⟨raise k pos s, ?_, readEncode_raise hk pos s⟩
  rw [hstart]
  exact stepsFrom_of_resting hcmd rfl _

/-! ### The pixels of a buffer (R143, R170) -/

/-- A buffer of n times c bytes holds n pixels. -/
theorem exists_loadsAs {c : Byte} {px : List Byte} {n : Nat} (hc : legalChannels c) (hlen : px.length = n * c.toNat) :
    ∃ ps : List Pixel, ps.length = n ∧ LoadsAs c px ps := by
  have hpixel (k : Fin n) :
      ∃ p, ∀ s : State, s.channels = c → s.pixbuf = Memory.ofBytes px → loadPixel k s = .pixel p := by
    obtain ⟨p, hp⟩ := loadPixel_total (i := k) (s := { State.reset with channels := c, pixbuf := Memory.ofBytes px })
      fun a ha => (filled_ofBytes px a).mpr <| by
        rw [hlen, legal_toNat hc]
        exact lt_of_lt_of_le ha (Nat.mul_le_mul_right _ k.isLt)
    exact ⟨p, fun s hs hb => (loadPixel_congr hs hb).trans hp⟩
  choose pixelAt hload using hpixel
  refine ⟨List.ofFn pixelAt, List.length_ofFn, fun s k p hs hb hk => ?_⟩
  rw [List.getElem?_ofFn, Option.dite_none_right_eq_some] at hk
  obtain ⟨hlt, hp⟩ := hk
  exact (hload ⟨k, hlt⟩ s hs hb).trans (congrArg _ (Option.some.inj hp))

/-! ### The deltas of the encoder's choice (R99 to R101) -/

theorem diff_wf_iff (dr dg db : Int) : (Instr.diff dr dg db).wf = true ↔ diffOk dr dg db := by
  simp only [Instr.wf, inDiffRange, Bool.and_eq_true, decide_eq_true_eq, diffOk, and_assoc]

theorem luma_wf_iff (dg drdg dbdg : Int) : (Instr.luma dg drdg dbdg).wf = true ↔ lumaOk dg drdg dbdg := by
  simp only [Instr.wf, inLumaGreenRange, inLumaRelRange, Bool.and_eq_true, decide_eq_true_eq, lumaOk, and_assoc]

/-- A delta that a signed byte holds is the delta of the channel it is added to. -/
theorem d8_addDelta {q : Byte} {d : Int} (hlow : -128 ≤ d) (hhigh : d ≤ 127) : d8 (addDelta q d) q = d := by
  have hsum := addDelta_toNat q d
  have hd := d8_emod (addDelta q d) q
  have hrange := d8_range (addDelta q d) q
  omega

/-- A pixel that PREV and deltas of a signed byte give has those deltas; a LUMA's are the sums with the green one. -/
theorem d8_of_eq_diffPixel {cur prev : Pixel} {dr dg db : Int} (h : cur = diffPixel dr dg db prev)
    (hr : -128 ≤ dr ∧ dr ≤ 127) (hg : -128 ≤ dg ∧ dg ≤ 127) (hb : -128 ≤ db ∧ db ≤ 127) :
    cur.a = prev.a ∧ d8 cur.r prev.r = dr ∧ d8 cur.g prev.g = dg ∧ d8 cur.b prev.b = db := by
  subst h
  exact ⟨rfl, d8_addDelta hr.1 hr.2, d8_addDelta hg.1 hg.2, d8_addDelta hb.1 hb.2⟩

/-- PREV and the deltas of a pixel with PREV's alpha give that pixel. -/
theorem eq_diffPixel_d8 {cur prev : Pixel} (ha : cur.a = prev.a) :
    cur = diffPixel (d8 cur.r prev.r) (d8 cur.g prev.g) (d8 cur.b prev.b) prev := by
  rw [diffPixel, addDelta_d8, addDelta_d8, addDelta_d8, ← ha]

theorem eq_lumaPixel_d8 {cur prev : Pixel} (ha : cur.a = prev.a) :
    cur = lumaPixel (d8 cur.g prev.g) (d8 cur.r prev.r - d8 cur.g prev.g) (d8 cur.b prev.b - d8 cur.g prev.g) prev := by
  rw [lumaPixel, add_sub_cancel, add_sub_cancel]
  exact eq_diffPixel_d8 ha

/-- Where no DIFF gives the pixel, its deltas are out of DIFF's ranges. -/
theorem not_diffOk_of_forall_ne {cur prev : Pixel} (ha : cur.a = prev.a)
    (h : ∀ x y z : Int, (Instr.diff x y z).wf = true → cur ≠ diffPixel x y z prev) :
    ¬ diffOk (d8 cur.r prev.r) (d8 cur.g prev.g) (d8 cur.b prev.b) :=
  fun hok => h _ _ _ ((diff_wf_iff _ _ _).mpr hok) (eq_diffPixel_d8 ha)

/-- Where no LUMA gives the pixel, its deltas are out of LUMA's ranges. -/
theorem not_lumaOk_of_forall_ne {cur prev : Pixel} (ha : cur.a = prev.a)
    (h : ∀ x y z : Int, (Instr.luma x y z).wf = true → cur ≠ lumaPixel x y z prev) :
    ¬ lumaOk (d8 cur.g prev.g) (d8 cur.r prev.r - d8 cur.g prev.g) (d8 cur.b prev.b - d8 cur.g prev.g) :=
  fun hok => h _ _ _ ((luma_wf_iff _ _ _).mpr hok) (eq_lumaPixel_d8 ha)

/-! ### The steps of the encoder's choice (R143) -/

theorem chooseItem_of_hit {cur prev : Pixel} {cache : Cache} (hhit : cache[hash cur] = cur) :
    chooseItem cur prev cache = .index (hash cur) := if_pos hhit

theorem chooseItem_of_alpha_ne {cur prev : Pixel} {cache : Cache} (hmiss : cache[hash cur] ≠ cur)
    (ha : cur.a ≠ prev.a) : chooseItem cur prev cache = .rgba cur.r cur.g cur.b cur.a := by
  rw [chooseItem, if_neg hmiss, if_neg ha]

theorem chooseItem_of_alpha_eq {cur prev : Pixel} {cache : Cache} (hmiss : cache[hash cur] ≠ cur)
    (ha : cur.a = prev.a) : chooseItem cur prev cache = deltaItem cur prev := by
  rw [chooseItem, if_neg hmiss, if_pos ha]

theorem deltaItem_of_diffOk {cur prev : Pixel} (hd : diffOk (d8 cur.r prev.r) (d8 cur.g prev.g) (d8 cur.b prev.b)) :
    deltaItem cur prev = .diff (d8 cur.r prev.r) (d8 cur.g prev.g) (d8 cur.b prev.b) := if_pos hd

theorem deltaItem_of_lumaOk {cur prev : Pixel} (hd : ¬ diffOk (d8 cur.r prev.r) (d8 cur.g prev.g) (d8 cur.b prev.b))
    (hl : lumaOk (d8 cur.g prev.g) (d8 cur.r prev.r - d8 cur.g prev.g) (d8 cur.b prev.b - d8 cur.g prev.g)) :
    deltaItem cur prev =
      .luma (d8 cur.g prev.g) (d8 cur.r prev.r - d8 cur.g prev.g) (d8 cur.b prev.b - d8 cur.g prev.g) :=
  (if_neg hd).trans (if_pos hl)

theorem deltaItem_of_neither {cur prev : Pixel} (hd : ¬ diffOk (d8 cur.r prev.r) (d8 cur.g prev.g) (d8 cur.b prev.b))
    (hl : ¬ lumaOk (d8 cur.g prev.g) (d8 cur.r prev.r - d8 cur.g prev.g) (d8 cur.b prev.b - d8 cur.g prev.g)) :
    deltaItem cur prev = .rgb cur.r cur.g cur.b :=
  (if_neg hd).trans (if_neg hl)

/-- The pixel that a DIFF gives is coded as that DIFF, unless its slot holds it. -/
theorem chooseItem_of_eq_diffPixel {cur prev : Pixel} {cache : Cache} {dr dg db : Int} (hmiss : cache[hash cur] ≠ cur)
    (hok : diffOk dr dg db) (h : cur = diffPixel dr dg db prev) : chooseItem cur prev cache = .diff dr dg db := by
  obtain ⟨ha, hr, hg, hb⟩ := d8_of_eq_diffPixel h (by omega) (by omega) (by omega)
  rw [chooseItem_of_alpha_eq hmiss ha, deltaItem_of_diffOk (by rwa [hr, hg, hb]), hr, hg, hb]

/-- The pixel that a LUMA gives and no DIFF is coded as that LUMA, unless its slot holds it. -/
theorem chooseItem_of_eq_lumaPixel {cur prev : Pixel} {cache : Cache} {dg drdg dbdg : Int}
    (hmiss : cache[hash cur] ≠ cur) (hok : lumaOk dg drdg dbdg) (h : cur = lumaPixel dg drdg dbdg prev)
    (hdiff : ∀ x y z : Int, (Instr.diff x y z).wf = true → cur ≠ diffPixel x y z prev) :
    chooseItem cur prev cache = .luma dg drdg dbdg := by
  obtain ⟨ha, hr, hg, hb⟩ := d8_of_eq_diffPixel (dr := dg + drdg) (db := dg + dbdg) h (by omega) (by omega) (by omega)
  have hdr : d8 cur.r prev.r - d8 cur.g prev.g = drdg := by omega
  have hdb : d8 cur.b prev.b - d8 cur.g prev.g = dbdg := by omega
  rw [chooseItem_of_alpha_eq hmiss ha,
    deltaItem_of_lumaOk (not_diffOk_of_forall_ne ha hdiff) (by rwa [hdr, hdb, hg]), hdr, hdb, hg]

/-! ### The bytes of a word (R61) -/

/-- A word is the value of its bytes, the most significant one first. -/
theorem toNat_eq_wordBytes (w : Word32) :
    w.toNat = (((wordByte w 3).toNat * 256 + (wordByte w 2).toNat) * 256 + (wordByte w 1).toNat) * 256 +
      (wordByte w 0).toNat := by
  have hw := w.isLt
  simp only [wordByte_toNat]
  omega

end Sys2Proof
end

section
/-! PROOF. The tier 3 obligation of 42_encoder.md: an encode ends with a stream, or with the first condition of R141 that
holds (R155, R205). -/

namespace Sys2Proof

open Machine

/-- Settles O54: START raises the first condition that holds; where none does, the buffer holds every pixel, and each
pixel step loads one. -/
theorem encodeEndsByValidationOnly : Obligations.EncodeEndsByValidationOnly := by
  intro m px w h c cs
  split_ifs with hc hdim hsize hlen
  · exact encodeOperation_of_startEncode_raise rfl (validateEncode_zeroDimension hc hdim)
  · exact encodeOperation_of_startEncode_raise rfl (validateEncode_sizeOverflow hc hdim hsize)
  · exact encodeOperation_of_startEncode_raise rfl (validateEncode_badBufferLength hc hdim hsize hlen)
  · have hpx : px.length = imageBytes w h c := not_not.mp hlen
    obtain ⟨hw, hh⟩ := not_or.mp hdim
    obtain ⟨ps, hcount, hload⟩ := exists_loadsAs hc hpx
    obtain ⟨is, _, hok⟩ := encodeOperation_of_legal cs hc hw hh hcount (Nat.le_of_not_lt hsize) hpx hload
    exact ⟨_, hok⟩
  · exact encodeOperation_of_startEncode_raise rfl (validateEncode_badChannels hc)

end Sys2Proof
end

section
/-! PROOF. The tier 2 obligations of 42_encoder.md: what each item emits (R142, R144 to R150), the encoder's choice (R143,
R153) and the pixel step (R143, R144, R147). -/

namespace Sys2Proof

open Machine

/-- Settles O27: a chunk of one pixel emits its bytes. -/
theorem encodeChunkEmitsItsBytes : Obligations.EncodeChunkEmitsItsBytes := by
  intro i s hi hs
  have hlen := encode_length s.magic i
  refine ⟨emit (encode s.magic i) s, (exec_onePixel_encode hi hs.1).trans (emitChunk_of_atChunk hs.2), ?_,
    holdsAt_writeBytes _ _ _, ?_, rfl⟩
  · rw [emit_opos, hlen]
  · rw [← hlen]
    exact sameOutside_writeBytes _ _ _

/-- Settles O28: RUN emits its one byte and closes the run. -/
theorem encodeRunFlushes : Obligations.EncodeRunFlushes := by
  intro n s hs h1 h2
  have hbyte : (encodeRunByte n).toNat = 0xC0 + (n - 1) := by
    rw [encodeRunByte_toNat h1 h2]
    omega
  exact ⟨_, encodeRunByte n, exec_run_encode hs.1 hs.2, hbyte, rfl, rfl, holdsAt_writeBytes _ _ _,
    sameOutside_writeBytes _ _ [encodeRunByte n], rfl⟩

/-- Settles O29: HEADER emits MAGIC, the two words by their bytes, and the last two registers. -/
theorem encodeHeaderEmitsFourteenBytes : Obligations.EncodeHeaderEmitsFourteenBytes := by
  intro w h c cs s ho hp
  exact ⟨_, _, _, _, _, _, _, _, _, exec_header_encode ho hp,
    holdsAt_writeBytes s.stream s.opos (encodeHeader s.magic w h c cs), toNat_eq_wordBytes w, toNat_eq_wordBytes h, rfl,
    rfl, sameOutside_writeBytes s.stream s.opos (encodeHeader s.magic w h c cs), rfl⟩

/-- Settles O32: the deltas of a pixel that DIFF or LUMA gives are the operands that give it. -/
theorem encoderPicksFirstApplicableKind : Obligations.EncoderPicksFirstApplicableKind := by
  intro cur prev cache
  refine ⟨chooseItem_of_hit, chooseItem_of_alpha_ne, fun dr dg db hmiss hw => ?_, fun dg drdg dbdg hmiss hw => ?_,
    fun hmiss ha hdiff hluma => ?_⟩
  · exact chooseItem_of_eq_diffPixel hmiss ((diff_wf_iff dr dg db).mp hw)
  · exact chooseItem_of_eq_lumaPixel hmiss ((luma_wf_iff dg drdg dbdg).mp hw)
  · rw [chooseItem_of_alpha_eq hmiss ha,
      deltaItem_of_neither (not_diffOk_of_forall_ne ha hdiff) (not_lumaOk_of_forall_ne ha hluma)]

/-- Settles O33: the chunk chosen is one of one pixel, and that pixel is the one it resolves to. -/
theorem chosenChunkResolvesToItsPixel : Obligations.ChosenChunkResolvesToItsPixel := by
  intro p s hs
  obtain ⟨t, hexec, hcommit⟩ := exec_onePixel_committed (chooseItem_onePixel p s.prev s.cache) hs
  rw [resolvedPixel_chooseItem] at hcommit
  exact ⟨chooseItem_wf p s.prev s.cache, t, hexec, hcommit.cur, hcommit.prev, hcommit.cache, hcommit.pxi⟩

/-- Settles O34: a pixel step emits `pixelBytes`, sets RUN, and commits the pixel loaded. -/
theorem encodePixelStep : Obligations.EncodePixelStep := by
  rintro p s hc ⟨ho, ha⟩ hload
  exact ⟨_, (step_chunk_encode hc ho ha).trans (encodePixel_of_pixel ho ha hload), rfl, rfl,
    cacheUpdated_set p s.cache, rfl, encodedPixel_phase ha.1, rfl, rfl, holdsAt_writeBytes _ _ _,
    sameOutside_writeBytes _ _ _, ⟨rfl, rfl, rfl, rfl, rfl, rfl, rfl, rfl⟩, ⟨rfl, rfl, rfl, rfl, rfl, rfl⟩, rfl, rfl,
    sameBytes_refl _⟩

end Sys2Proof
end

section
/-! PROOF. The tier 1 obligation of 42_encoder.md: END in an encode (R151, R152). -/

namespace Sys2Proof

open Machine

/-- Settles O30: END emits the marker and finishes with OUT_LEN behind it. -/
theorem encodeEndCompletes : Obligations.EncodeEndCompletes :=
  fun s ho hp => ⟨_, exec_end_encode ho hp, holdsAt_writeBytes s.stream s.opos endMarkerBytes, rfl, rfl, rfl, rfl, rfl,
    rfl, rfl⟩

end Sys2Proof
end

section
/-! SUPPORT. Rules about the byte spaces and the commands of 43_buffers_and_commands.md: a pixel loaded from PIXBUF and
stored into it (R170, R171), what a START leaves (R178, R179, R220) or is refused for (R180), and when the host acts and
reads (R48, R182, R183). -/

namespace Sys2Proof

open Machine

/-! ### Loading and storing a pixel (R170, R171) -/

/-- What `store_pixel` does to PIXBUF, the offset and the bytes of the layout given. -/
theorem storePixel_writes {i a : Nat} {p : Pixel} {bs : List Byte} {s : State} (ha : storeOffset i s = a)
    (hb : storedBytes p s = bs) :
    HoldsAt (storePixel i p s).pixbuf a bs ∧ SameOutside s.pixbuf (storePixel i p s).pixbuf a bs.length := by
  rw [storePixel_pixbuf, ha, hb]
  exact ⟨holdsAt_writeBytes _ _ _, sameOutside_writeBytes _ _ _⟩

theorem loadPixel_four {i : Nat} {r g b a : Byte} {s : State} (hc : s.channels = 4)
    (h : HoldsAt s.pixbuf (4 * i) [r, g, b, a]) : loadPixel i s = .pixel ⟨r, g, b, a⟩ := by
  have hread : s.pixbuf.readBytes (4 * i) 4 = .bytes [r, g, b, a] := readBytes_of_holdsAt h
  rw [loadPixel, if_pos hc, hread]

theorem loadPixel_three {i : Nat} {r g b : Byte} {s : State} (hc : s.channels ≠ 4)
    (h : HoldsAt s.pixbuf (3 * i) [r, g, b]) : loadPixel i s = .pixel ⟨r, g, b, alphaDefault⟩ := by
  have hread : s.pixbuf.readBytes (3 * i) 3 = .bytes [r, g, b] := readBytes_of_holdsAt h
  rw [loadPixel, if_neg hc, hread]

/-! ### The engine takes a START or refuses it (R178 to R180) -/

theorem step_startDecode {s : State} (hr : NoOperationRunning s) (hc : s.cmd = some .startDecode) :
    step s = .next (startDecode s) :=
  (step_of_cmd hc).trans (if_pos ((resting_iff s).mpr hr))

theorem step_startEncode {s : State} (hr : NoOperationRunning s) (hc : s.cmd = some .startEncode) :
    step s = .next (startEncode s) :=
  (step_of_cmd hc).trans (if_pos ((resting_iff s).mpr hr))

theorem acceptStart_of_running (c : Command) {s : State} (hr : Running s) :
    acceptStart c s = .refused .startWhileRunning :=
  if_neg (by simp [(running_iff s).mp hr])

/-! ### What a START leaves (R220) -/

/-- What the initialisation of R220 gives in every outcome of a START: OP, and the registers that a validation error
does not touch again. -/
structure OperationStarted (o : Op) (t : State) : Prop where
  op : t.op = o
  prev : t.prev = Pixel.zero
  cache : ∀ i : Index, t.cache[i] = Pixel.zero
  pxi : t.pxi = 0
  warnTrailing : t.warnTrailing = false
  outvalid : t.outvalid = false
  cmd : t.cmd = none

theorem OperationStarted.raise {o : Op} {t : State} (h : OperationStarted o t) {c : Cause} (hc : c.surfaces = false)
    (pos : Nat) : OperationStarted o (Machine.raise c pos t) :=
  ⟨h.op, h.prev, h.cache, h.pxi, rfl, hc, h.cmd⟩

theorem initOperation_cache_zero (s : State) (i : Index) : (initOperation s).cache[i] = Pixel.zero := by simp

/-- START_DECODE before its check of REQCH. -/
theorem operationStarted_decode (s : State) :
    OperationStarted .decode (clearHeaderRegisters { initOperation s with op := .decode, pixbuf := [] }) :=
  ⟨rfl, rfl, initOperation_cache_zero s, rfl, rfl, rfl, rfl⟩

/-- What START_ENCODE hands to the validation of R141. -/
def unvalidatedEncode (s : State) : State := { initOperation s with op := .encode, stream := [] }

theorem startEncode_eq (s : State) : startEncode s = validateEncode (unvalidatedEncode s) := rfl

theorem operationStarted_unvalidatedEncode (s : State) : OperationStarted .encode (unvalidatedEncode s) :=
  ⟨rfl, rfl, initOperation_cache_zero s, rfl, rfl, rfl, rfl⟩

theorem operationStarted_startDecode (s : State) : OperationStarted .decode (startDecode s) := by
  rcases startDecode_cases s with ⟨_, h⟩ | ⟨_, h⟩ <;> rw [h]
  · exact operationStarted_decode s
  · exact (operationStarted_decode s).raise rfl 0

theorem operationStarted_startEncode (s : State) : OperationStarted .encode (startEncode s) := by
  have hinit := operationStarted_unvalidatedEncode s
  rw [startEncode_eq]
  rcases validateEncode_cases (unvalidatedEncode s) with ⟨_, _, hc, h⟩ | ⟨_, _, _, _, _, h⟩ <;> rw [h]
  · exact hinit.raise hc 0
  · exact ⟨hinit.op, hinit.prev, hinit.cache, hinit.pxi, hinit.warnTrailing, hinit.outvalid, hinit.cmd⟩

/-- The status of a START that raises (R196, R198). -/
theorem status_of_eq_raise {c : Cause} {pos : Nat} {s t : State} (h : t = raise c pos s) :
    t.phase = .error ∧ t.err = c.err ∧ t.sub = c.sub ∧ t.errpos = pos := by
  have htaken := errorTaken_raise c pos s
  rw [h]
  exact ⟨htaken.phase, htaken.err, htaken.sub, htaken.errpos⟩

/-- START_DECODE empties PIXBUF. -/
theorem startDecode_pixbuf (s : State) : (startDecode s).pixbuf = [] := by
  rcases startDecode_cases s with ⟨_, h⟩ | ⟨_, h⟩ <;> rw [h] <;> simp

/-- START_ENCODE empties STREAM and leaves COLORSPACE. -/
theorem startEncode_stream_colorspace (s : State) :
    (startEncode s).stream = [] ∧ (startEncode s).colorspace = s.colorspace := by
  rw [startEncode_eq]
  rcases validateEncode_cases (unvalidatedEncode s) with ⟨_, _, _, h⟩ | ⟨_, _, _, _, _, h⟩ <;> rw [h] <;>
    exact ⟨rfl, rfl⟩

/-! ### When the host acts (R183, U3) -/

theorem betweenOperations_iff (s : State) : betweenOperations s ↔ NoOperationRunning s ∧ s.cmd = none :=
  and_congr_left fun _ => resting_iff s

theorem not_betweenOperations {s : State} (h : Running s ∨ s.cmd ≠ none) : ¬ betweenOperations s := by
  rintro ⟨hr, hc⟩
  rcases h with h | h
  · simp [(running_iff s).mp h] at hr
  · exact h hc

/-- An output is read between operations only (R48). -/
theorem betweenOperations_of_outputReadable {s : State} (h : outputReadable s) : betweenOperations s :=
  (betweenOperations_iff s).mpr ⟨.inr h.1, h.2.2⟩

theorem hostMove_of_not_between (f : State → State) {s : State} (h : ¬ betweenOperations s) :
    hostMove f s = .refused .hostAccessWhileRunning := if_neg h

theorem hostStart_of_not_between (c : Command) {s : State} (h : ¬ betweenOperations s) :
    hostStart c s = .refused .startWhileRunning := if_pos h

theorem hostReadOutput_of_not_between {s : State} (h : ¬ betweenOperations s) : hostReadOutput s = none :=
  if_neg fun hr => h (betweenOperations_of_outputReadable hr)

theorem hostStart_of_not_filled {c : Command} {s : State} (hb : betweenOperations s)
    (h : ¬ Filled (commandInput c s) s.inLen) : hostStart c s = .refused .falseInputLength := by
  rw [hostStart, if_neg (not_not.mpr hb), if_neg (mt (holdsExactly_iff _ _).mp h)]

/-- A START that waits makes its own input space the one IN_LEN speaks of. -/
theorem inputLengthTrue_withCmd {c : Command} {s : State} (h : Filled (commandInput c s) s.inLen) :
    InputLengthTrue { s with cmd := some c } := by
  cases c <;> exact h

theorem withCmd_none {s : State} (h : s.cmd = none) : { s with cmd := none } = s := by rw [← h]

/-! ### What the host reads (R48, R182, R200) -/

/-- Everything a read of the output answers: OUT_LEN bytes of the output space, or nothing. -/
theorem hostReadOutput_eq_some_iff (s : State) (bs : List Byte) :
    hostReadOutput s = some bs ↔ outputReadable s ∧ bs.length = s.outLen ∧ HoldsAt (outputSpace s) 0 bs := by
  refine ⟨fun h => ?_, fun ⟨hr, hl, hb⟩ => hostReadOutput_of_holdsAt hr hb hl⟩
  have hlen := length_of_hostReadOutput h
  rw [hostReadOutput] at h
  split at h
  · rename_i hr
    split at h
    · rename_i cs hread
      cases h
      exact ⟨hr, hlen, (holdsAt_of_readBytes hread).1⟩
    · cases h
  · cases h

theorem holdsAt_outputSpace_iff (s : State) (bs : List Byte) :
    HoldsAt (outputSpace s) 0 bs ↔
      (s.op = .decode → HoldsAt s.pixbuf 0 bs) ∧ (s.op = .encode → HoldsAt s.stream 0 bs) := by
  cases ho : s.op <;> simp [outputSpace, ho]

end Sys2Proof
end

section
/-! PROOF. The tier 2 obligations of 43_buffers_and_commands.md: the two STARTs (R178, R179) and the host's side of an
operation (R48, R182, R183, R200). -/

namespace Sys2Proof

open Machine

/-- Settles O42: the initialisation stands in both outcomes, and REQCH alone decides between them. -/
theorem startDecodeInitialises : Obligations.StartDecodeInitialises := by
  intro s hr hc
  have hinit := operationStarted_startDecode s
  have hhost := sameHostRegisters_startDecode s
  obtain ⟨_, _, hstream, _, _⟩ := startDecode_spec s
  refine ⟨startDecode s, step_startDecode hr hc, hinit.op, hinit.prev, hinit.cache, hinit.pxi, hinit.warnTrailing,
    hinit.outvalid, ?_, hinit.cmd, hhost.reqch, hhost.inLen, hhost.magic, ?_, ?_⟩
  · rw [startDecode_pixbuf]
    exact Memory.read_nil
  · rw [hstream]
    exact sameBytes_refl _
  · rcases startDecode_cases s with ⟨hreq, h⟩ | ⟨hreq, h⟩
    · rw [if_pos hreq, h]
      exact ⟨rfl, rfl, rfl, rfl, rfl, rfl⟩
    · rw [if_neg hreq]
      exact status_of_eq_raise h

/-- Settles O43: the initialisation stands in all five outcomes, and the conditions of R141 decide between them. -/
theorem startEncodeValidates : Obligations.StartEncodeValidates := by
  intro s hr hc
  have hinit := operationStarted_startEncode s
  have hhost := sameHostRegisters_startEncode s
  obtain ⟨_, _, _, hwidth, hheight, hchannels⟩ := startEncode_spec s
  obtain ⟨hpixbuf, _⟩ := startEncode_input s
  obtain ⟨hstream, hcolorspace⟩ := startEncode_stream_colorspace s
  refine ⟨startEncode s, step_startEncode hr hc, hinit.op, hinit.prev, hinit.cache, hinit.pxi, hinit.warnTrailing,
    hinit.outvalid, ?_, hinit.cmd, hwidth, hheight, hchannels, hcolorspace, hhost.inLen, hhost.magic, ?_, ?_⟩
  · rw [hstream]
    exact Memory.read_nil
  · rw [hpixbuf]
    exact sameBytes_refl _
  · split_ifs with hlegal hdim hsize hlen
    · exact status_of_eq_raise (validateEncode_zeroDimension (s := unvalidatedEncode s) hlegal hdim)
    · exact status_of_eq_raise (validateEncode_sizeOverflow (s := unvalidatedEncode s) hlegal hdim hsize)
    · exact status_of_eq_raise (validateEncode_badBufferLength (s := unvalidatedEncode s) hlegal hdim hsize hlen)
    · obtain ⟨hw, hh⟩ := not_or.mp hdim
      rw [startEncode_eq, validateEncode_of_legal (s := unvalidatedEncode s) hlegal hw hh (Nat.le_of_not_lt hsize)
        (not_not.mp hlen)]
      exact ⟨rfl, rfl, rfl, rfl, rfl, rfl, rfl⟩
    · exact status_of_eq_raise (validateEncode_badChannels (s := unvalidatedEncode s) hlegal)

/-- Settles O59: a START between operations is decided by its input length; every other move of the host, and every
read, asks for a state between operations. -/
theorem hostActsBetweenOperationsOnly : Obligations.HostActsBetweenOperationsOnly := by
  refine ⟨fun c s hr hc hin => ?_, fun c s hr hc hin => ?_, fun c f s h => ?_⟩
  · exact ⟨{ s with cmd := some c },
      (hostStart_eq_next_iff c s _).mpr ⟨(betweenOperations_iff s).mpr ⟨hr, hc⟩, hin, rfl⟩, rfl,
      withCmd_none hc, inputLengthTrue_withCmd hin⟩
  · exact hostStart_of_not_filled ((betweenOperations_iff s).mpr ⟨hr, hc⟩) hin
  · have hb := not_betweenOperations h
    exact ⟨hostMove_of_not_between f hb, hostStart_of_not_between c hb, hostReadOutput_of_not_between hb⟩

/-- Settles O60: the read asks for a readable output, and OP names its space. -/
theorem outputIsReadWhenValidOnly : Obligations.OutputIsReadWhenValidOnly := by
  intro s bs
  rw [hostReadOutput_eq_some_iff, holdsAt_outputSpace_iff]
  simp only [outputReadable, and_assoc]

end Sys2Proof
end

section
/-! PROOF. The tier 1 obligations of 43_buffers_and_commands.md: the layouts of PIXBUF (R170, R171) and a START that
meets a running operation (R180). -/

namespace Sys2Proof

open Machine

/-- Settles O10: REQCH and CHANNELS select the layout's offset and bytes, and the store writes those. -/
theorem storePixelWritesTheRequestedLayout : Obligations.StorePixelWritesTheRequestedLayout := by
  intro i p s
  refine ⟨fun hreq => ?_, fun hreq hch => ?_, fun hreq hch => ?_, rfl⟩
  · exact storePixel_writes (if_pos hreq) (if_pos hreq)
  · have hexpand : s.reqch ≠ 3 := by rw [hreq]; decide
    exact storePixel_writes (if_neg hexpand) ((if_neg hexpand).trans (if_pos hch))
  · have hexpand : s.reqch ≠ 3 := by rw [hreq]; decide
    have hopaque : s.channels ≠ 4 := by rw [hch]; decide
    exact storePixel_writes (if_neg hexpand) ((if_neg hexpand).trans (if_neg hopaque))

/-- Settles O11: the bytes that stand at the pixel's offset are those read. -/
theorem loadPixelReadsTheSourceLayout : Obligations.LoadPixelReadsTheSourceLayout :=
  fun _ _ _ _ _ _ => ⟨loadPixel_four, fun hc => loadPixel_three (by rw [hc]; decide)⟩

/-- Settles O44: the engine takes a waiting START in the resting phases only. -/
theorem startWhileRunningIsRefused : Obligations.StartWhileRunningIsRefused :=
  fun c _ hc hr => (step_of_cmd hc).trans (acceptStart_of_running c hr)

end Sys2Proof
end

section
/-! SUPPORT. A decode of a stream and a decode of the same stream with bytes behind it (R111 to R113, R122, R194, R197):
step by step both do the same, until the shorter one ends or finds its stream truncated. -/

namespace Sys2Proof

open Machine

/-! ### Bytes behind a rejection -/

/-- The rejection of bytes that end too early; the others stand for a byte that is wrong. -/
def Reject.missing : Reject → Bool
  | .noFirstByte | .payloadMissing | .headerShort | .markerShort => true
  | .badMagic _ | .markerMismatch _ => false

/-- Bytes behind a wrong byte do not matter. -/
theorem compareBytes_differs_append {k j : Nat} {es bs : List Byte} (more : List Byte)
    (h : compareBytes k es bs = .differs j) : compareBytes k es (bs ++ more) = .differs j := by
  obtain ⟨i, hj, ht, b, e, hb, he, hne⟩ := (compareBytes_differs_iff k j es bs).mp h
  have hlt : i < bs.length := (List.getElem?_eq_some_iff.mp hb).1
  refine (compareBytes_differs_iff k j es _).mpr ⟨i, hj, ?_, b, e, ?_, he, hne⟩
  · rw [List.take_append_of_le_length (Nat.le_of_lt hlt), ht]
  · rw [List.getElem?_append_left hlt, hb]

theorem decodeHeader_rejected_cases {m : Magic} {bs : List Byte} {r : Reject} (h : decodeHeader m bs = .rejected r) :
    r = .headerShort ∨ ∃ k, r = .badMagic k ∧ compareBytes 0 m.bytes bs = .differs k := by
  unfold decodeHeader at h
  split at h
  · unfold decodeHeaderFields at h
    split at h <;> cases h
    exact .inl rfl
  · cases h
    exact .inl rfl
  · cases h
    exact .inr ⟨_, rfl, ‹_›⟩

theorem decodeEnd_rejected_cases {bs : List Byte} {r : Reject} (h : decodeEnd bs = .rejected r) :
    r = .markerShort ∨ ∃ k, r = .markerMismatch k ∧ compareBytes 0 endMarkerBytes bs = .differs k := by
  unfold decodeEnd at h
  split at h <;> cases h
  · exact .inl rfl
  · exact .inr ⟨_, rfl, ‹_›⟩

/-- A chunk is rejected only for bytes that are missing (R70). -/
theorem decodeChunk_rejected_missing {bs : List Byte} {r : Reject} (h : decodeChunk bs = .rejected r) :
    r.missing = true := by
  cases bs with
  | nil =>
    cases h
    rfl
  | cons b0 t =>
    rcases decodeChunk_by_length b0 t with ⟨_, hd⟩ | ⟨_, i, rest, hd⟩ <;> rw [hd] at h <;> cases h
    rfl

/-- Bytes are rejected for missing ones, or for a wrong one whatever stands behind it. -/
theorem decodeAt_rejected_append {p : Place} {m : Magic} {bs : List Byte} {r : Reject} (more : List Byte)
    (h : decodeAt p m bs = .rejected r) : r.missing = true ∨ decodeAt p m (bs ++ more) = .rejected r := by
  cases p with
  | atHeader =>
    rcases decodeHeader_rejected_cases h with rfl | ⟨k, rfl, hk⟩
    · exact .inl rfl
    · exact .inr (by rw [decodeAt, decodeHeader, compareBytes_differs_append more hk])
  | atChunk => exact .inl (decodeChunk_rejected_missing h)
  | atEnd =>
    rcases decodeEnd_rejected_cases h with rfl | ⟨k, rfl, hk⟩
    · exact .inl rfl
    · exact .inr (by rw [decodeAt, decodeEnd, compareBytes_differs_append more hk])

/-- Bytes behind an item are left over. -/
theorem decodeAt_item_append {p : Place} {m : Magic} {bs rest : List Byte} {i : Instr} (more : List Byte)
    (h : decodeAt p m bs = .item i rest) : decodeAt p m (bs ++ more) = .item i (rest ++ more) := by
  obtain ⟨hw, rfl, rfl⟩ := decodeAt_item h
  rw [List.append_assoc, decodeAt_encode m _ hw]

/-! ### The same state on a longer stream -/

/-- The state with another stream, its length and another WARN_TRAILING. -/
def withInput (m : Memory) (n : Nat) (warn : Bool) (s : State) : State :=
  { s with stream := m, inLen := n, warnTrailing := warn }

/-- t has the stream of s with more bytes behind it; all else but the warning is as in s. -/
structure LongerInput (s t : State) : Prop where
  alike : t = withInput t.stream t.inLen t.warnTrailing s
  filled : Filled s.stream s.inLen
  longer : Filled t.stream t.inLen
  le : s.inLen ≤ t.inLen
  same : ∀ a, a < s.inLen → t.stream.read a = s.stream.read a

theorem LongerInput.magic {s t : State} (h : LongerInput s t) : t.magic = s.magic :=
  (congrArg State.magic h.alike :)

theorem LongerInput.op {s t : State} (h : LongerInput s t) : t.op = s.op := (congrArg State.op h.alike :)

theorem LongerInput.ipos {s t : State} (h : LongerInput s t) : t.ipos = s.ipos := (congrArg State.ipos h.alike :)

theorem LongerInput.phase {s t : State} (h : LongerInput s t) : t.phase = s.phase := (congrArg State.phase h.alike :)

theorem LongerInput.cmd {s t : State} (h : LongerInput s t) : t.cmd = s.cmd := (congrArg State.cmd h.alike :)

/-! ### Fetching from a longer stream -/

/-- What fetching answers where the stream ends too early: TruncatedStreamError at IN_LEN (R194, R198). -/
def Truncates (s : State) (f : Fetched) : Prop := ∃ c, f = .raised c s.inLen ∧ c.err = 3 ∧ c.surfaces = false

theorem truncates_of_missing {r : Reject} (base : Nat) (s : State) (h : r.missing = true) :
    Truncates s (rejection r base s) := by
  cases r with
  | badMagic | markerMismatch => cases h
  | noFirstByte | payloadMissing | headerShort | markerShort => exact ⟨_, rfl, rfl, rfl⟩

/-- A rejection for a wrong byte is reported at that byte, wherever the stream ends. -/
theorem rejection_of_not_missing {r : Reject} (base : Nat) (s t : State) (h : ¬ r.missing = true) :
    rejection r base t = rejection r base s := by
  cases r with
  | badMagic | markerMismatch => rfl
  | noFirstByte | payloadMissing | headerShort | markerShort => exact absurd rfl h

/-- The bytes of the longer stream begin with those of the shorter one. -/
theorem LongerInput.bytes {s t : State} (h : LongerInput s t) {base j k : Nat} (hjk : j ≤ k)
    (hj : ∀ x, x < j → base + x < s.inLen) (hk : ∀ x, x < k → base + x < t.inLen) :
    ∃ bs more, HoldsAt s.stream base bs ∧ bs.length = j ∧ HoldsAt t.stream base (bs ++ more) ∧
      (bs ++ more).length = k := by
  obtain ⟨all, hall⟩ := Memory.readBytes_total t.stream base k fun x hx => (h.longer _).mpr (hk x hx)
  obtain ⟨hholds, hlen⟩ := holdsAt_of_readBytes hall
  have hsplit : all.take j ++ all.drop j = all := List.take_append_drop j all
  have htake : (all.take j).length = j := List.length_take_of_le (by omega)
  rw [← hsplit] at hholds hlen
  refine ⟨all.take j, all.drop j, fun x b hx => ?_, htake, hholds, hlen⟩
  have hxj : x < j := htake ▸ (List.getElem?_eq_some_iff.mp hx).1
  rw [← h.same _ (hj x hxj)]
  exact (holdsAt_append.mp hholds).1 x b hx

/-- The item or the wrong byte that is found is found in the longer stream too. -/
theorem LongerInput.fetchBytes {s t : State} (h : LongerInput s t) (p : Place) {base j k : Nat} (hjk : j ≤ k)
    (hj : ∀ x, x < j → base + x < s.inLen) (hk : ∀ x, x < k → base + x < t.inLen) :
    Truncates s (fetchBytes p base j s) ∨ Machine.fetchBytes p base k t = Machine.fetchBytes p base j s := by
  obtain ⟨bs, more, hbs, rfl, hall, rfl⟩ := h.bytes hjk hj hk
  rw [fetchBytes_of_holdsAt p hbs, fetchBytes_of_holdsAt p hall, h.magic]
  cases hd : decodeAt p s.magic bs with
  | item i rest => exact .inr (by rw [decodeAt_item_append more hd])
  | rejected r =>
    by_cases hr : r.missing = true
    · exact .inl (truncates_of_missing base s hr)
    · rw [(decodeAt_rejected_append more hd).resolve_left hr]
      exact .inr (rejection_of_not_missing base s t hr)

theorem LongerInput.fetchHeader {s t : State} (h : LongerInput s t) :
    Truncates s (fetchHeader s) ∨ Machine.fetchHeader t = Machine.fetchHeader s := by
  have hle := h.le
  exact h.fetchBytes .atHeader (by omega) (fun x hx => by omega) (fun x hx => by omega)

theorem LongerInput.fetchEnd {s t : State} (h : LongerInput s t) :
    Truncates s (fetchEnd s) ∨ Machine.fetchEnd t = Machine.fetchEnd s := by
  have hle := h.le
  unfold Machine.fetchEnd
  rw [h.ipos]
  exact h.fetchBytes .atEnd (by omega) (fun x hx => by omega) (fun x hx => by omega)

theorem LongerInput.fetchChunk {s t : State} (h : LongerInput s t) :
    Truncates s (fetchChunk s) ∨ Machine.fetchChunk t = Machine.fetchChunk s := by
  have hle := h.le
  by_cases hend : s.inLen ≤ s.ipos
  · exact .inl ⟨.inChunks, if_pos hend, rfl, rfl⟩
  obtain ⟨b0, hb0⟩ := Option.isSome_iff_exists.mp ((h.filled s.ipos).mpr (by omega))
  have hb0' : t.stream.read s.ipos = some b0 := by rw [h.same _ (by omega), hb0]
  unfold Machine.fetchChunk
  simp only [h.ipos, hb0, hb0', if_neg hend, if_neg (show ¬ t.inLen ≤ s.ipos by omega)]
  by_cases hshort : s.inLen < s.ipos + chunkLen b0
  · rw [if_pos hshort]
    exact .inl ⟨.inChunkPayload, rfl, rfl, rfl⟩
  · rw [if_neg hshort, if_neg (by omega)]
    exact h.fetchBytes .atChunk (Nat.le_refl _) (fun x hx => by omega) (fun x hx => by omega)

/-! ### Executing an item on a longer stream -/

theorem repeatPrev_withInput (k : Nat) (m : Memory) (n : Nat) (warn : Bool) (s : State) :
    repeatPrev k (withInput m n warn s) = withInput m n warn (repeatPrev k s) := by
  induction k generalizing s with
  | zero => rfl
  | succ k ih => exact ih (resolve s.prev s)

theorem checkHeader_withInput (m : Memory) (n : Nat) (warn : Bool) (s : State) :
    ∃ warn', checkHeader (withInput m n warn s) = withInput m n warn' (checkHeader s) := by
  by_cases hl : HeaderLegal s.width s.height s.channels s.reqch
  · rw [checkHeader_of_legal hl, checkHeader_of_legal (s := withInput m n warn s) hl]
    exact ⟨warn, rfl⟩
  · rw [checkHeader_of_illegal hl, checkHeader_of_illegal (s := withInput m n warn s) hl]
    exact ⟨false, rfl⟩

/-- What an item does in a decode does not depend on STREAM; on IN_LEN only the warning does. -/
theorem exec_withInput {i : Instr} {s u : State} (ho : s.op = .decode) (m : Memory) (n : Nat) (warn : Bool)
    (h : exec i s = .next u) : ∃ warn', exec i (withInput m n warn s) = .next (withInput m n warn' u) := by
  cases hp : i.place with
  | atChunk =>
    rcases onePixel_or_run hp with hi | ⟨k, rfl⟩
    · rw [exec_eq_resolveChunk hi ho] at h
      obtain ⟨ha, rfl⟩ := (resolveChunk_eq_next_iff _ _ _ _).mp h
      exact ⟨warn, exec_onePixel_of_atChunk (s := withInput m n warn s) hi ho ha⟩
    · rw [exec_run_decode ho] at h
      obtain ⟨ha, ⟨hk, rfl⟩ | ⟨hk, rfl⟩⟩ := (repeatChunk_eq_next_iff _ _ _).mp h
      · exact ⟨false, exec_run_of_overrun (s := withInput m n warn s) ho ha hk⟩
      · refine ⟨warn, (exec_run_of_fits (s := withInput m n warn s) ho ha hk).trans ?_⟩
        rw [repeatPrev_withInput]
        rfl
  | atHeader =>
    cases i with
    | header w v c cs =>
      by_cases hph : s.phase = .header
      · rw [exec_header_decode ho hph] at h
        cases h
        obtain ⟨warn', hw⟩ := checkHeader_withInput m n warn (takeHeader w v c cs s)
        exact ⟨warn', (exec_header_decode (s := withInput m n warn s) ho hph).trans (congrArg _ hw)⟩
      · rw [itemOutOfPlaceIsRefused (.header w v c cs) s hph] at h
        cases h
    | _ => cases hp
  | atEnd =>
    cases i with
    | endMarker =>
      by_cases hph : s.phase = .endMarker
      · rw [exec_end_decode ho hph] at h
        cases h
        exact ⟨_, exec_end_decode (s := withInput m n warn s) ho hph⟩
      · rw [itemOutOfPlaceIsRefused .endMarker s hph] at h
        cases h
    | _ => cases hp

/-! ### One step on a longer stream -/

/-- The decode has ended in TruncatedStreamError at IN_LEN. -/
structure EndedTruncated (s : State) : Prop where
  phase : s.phase = .error
  err : s.err = 3
  outvalid : s.outvalid = false
  errpos : s.errpos = s.inLen

/-- A step that fetches finds its stream truncated, or does what the fetched does on the longer stream too. -/
theorem LongerInput.runFetched {s t u : State} (hl : LongerInput s t) (ho : s.op = .decode) {f g : Fetched}
    (hfg : Truncates s f ∨ g = f) (h : runFetched f s = .next u) :
    EndedTruncated u ∨ ∃ warn, Machine.runFetched g t = .next (withInput t.stream t.inLen warn u) := by
  rcases hfg with ⟨c, rfl, herr, hsurf⟩ | rfl
  · cases h
    exact .inl ⟨rfl, herr, hsurf, rfl⟩
  · rw [hl.alike]
    rcases (runFetched_eq_next_iff _ _ _).mp h with ⟨c, pos, rfl, rfl⟩ | ⟨i, rfl, hi⟩
    · exact .inr ⟨false, rfl⟩
    · exact .inr (exec_withInput ho _ _ _ hi)

theorem LongerInput.next {s t u : State} (hl : LongerInput s t) (hs : u.stream = s.stream) (hn : u.inLen = s.inLen)
    (warn : Bool) : LongerInput u (withInput t.stream t.inLen warn u) :=
  ⟨rfl, hs ▸ hn ▸ hl.filled, hl.longer, hn ▸ hl.le, hs ▸ hn ▸ hl.same⟩

/-- A step of a running decode finds its stream truncated, or is the step on the longer stream. -/
theorem LongerInput.step {s t u : State} (hl : LongerInput s t) (hs : Launched s) (ho : s.op = .decode)
    (hr : Running s) (h : step s = .next u) :
    EndedTruncated u ∨ ∃ v, Machine.step t = .next v ∧ LongerInput u v := by
  have hc : t.cmd = none := hl.cmd.trans hs.cmd
  have ho' : t.op = .decode := hl.op.trans ho
  have hrun : EndedTruncated u ∨ ∃ warn, Machine.step t = .next (withInput t.stream t.inLen warn u) := by
    rcases hs.engine.place hr with hp | ha | hp
    · rw [step_header_decode hs.cmd ho hp] at h
      rw [step_header_decode hc ho' (hl.phase.trans hp)]
      exact hl.runFetched ho hl.fetchHeader h
    · have ha' : atChunk t := by
        rw [hl.alike]
        exact ha
      rw [step_chunk_decode hs.cmd ho ha] at h
      rw [step_chunk_decode hc ho' ha']
      exact hl.runFetched ho hl.fetchChunk h
    · rw [step_end_decode hs.cmd ho hp] at h
      rw [step_end_decode hc ho' (hl.phase.trans hp)]
      exact hl.runFetched ho hl.fetchEnd h
  refine hrun.imp_right fun ⟨warn, hv⟩ => ⟨_, hv, hl.next ?_ ?_ warn⟩
  · exact (step_inputKept hs.cmd h).stream ho
  · exact (descriptorStands s u h).2.2.1

/-! ### The run on a longer stream -/

/-- A run of a decode has found its stream truncated, or the decode of the longer stream has a run alike. -/
theorem LongerInput.run {s t u : State} {k : Nat} (hl : LongerInput s t) (hs : DecodeRun s)
    (h : stepsFrom k s = .next u) : EndedTruncated u ∨ ∃ v, Reaches t v ∧ LongerInput u v := by
  induction k generalizing s t with
  | zero =>
    cases h
    exact .inr ⟨t, .refl t, hl⟩
  | succ k ih =>
    obtain ⟨s', hst, hu⟩ := (andThen_eq_next_iff _ _ _).mp h
    have hs' := decodeRun_step hs hst
    by_cases hr : Running s
    · rcases hl.step hs.toLaunched hs.op hr hst with he | ⟨t', hst', hl'⟩
      · rw [stepsFrom_of_resting hs'.cmd (by rw [he.phase]; rfl)] at hu
        cases hu
        exact .inl he
      · exact (ih hl' hs' hu).imp_right fun ⟨v, hv, hlv⟩ => ⟨v, (Reaches.step hst').trans hv, hlv⟩
    · rw [step_of_resting hs.cmd (by simpa [running_iff] using hr)] at hst
      cases hst
      exact ih hl hs hu

end Sys2Proof
end

section
/-! SUPPORT. The outcomes of a decode and of the decode of a longer stream (R184, R194, R197): what the warning tells of a
decode in DONE, and both operations from their launch. -/

namespace Sys2Proof

open Machine

/-! ### The end marker and the warning (R122 to R124, R197) -/

/-- The end marker fetched stands at IPOS, all of it below IN_LEN. -/
theorem holdsAt_of_fetchEnd {s : State} (h : fetchEnd s = .item .endMarker) :
    HoldsAt s.stream s.ipos endMarkerBytes ∧ s.ipos + 8 ≤ s.inLen := by
  obtain ⟨bs, rest, hb, hlen, hd⟩ := fetchBytes_item h
  have hbs := length_of_decodeAt hd
  rw [Instr.length] at hbs
  obtain ⟨_, _, rfl⟩ := decodeAt_item hd
  exact ⟨(holdsAt_append.mp hb).1, by omega⟩

/-- A decode comes to DONE by its end marker only. -/
theorem step_to_done_decode {s t : State} (hc : s.cmd = none) (ho : s.op = .decode) (hr : Running s)
    (h : step s = .next t) (hd : t.phase = .done) : fetchEnd s = .item .endMarker ∧ t = endDecode s := by
  obtain ⟨hheader, hchunks, _, _⟩ := phaseOrder s t hc h
  rcases hr with hp | hp | hp
  · simpa [hd] using hheader hp
  · simpa [hd] using hchunks hp
  · rw [step_end_decode hc ho hp] at h
    rcases (runFetched_eq_next_iff _ _ _).mp h with ⟨c, pos, _, rfl⟩ | ⟨i, hf, hi⟩
    · cases hd
    · obtain rfl := fetchEnd_item hf
      rw [exec_end_decode ho hp] at hi
      cases hi
      exact ⟨hf, rfl⟩

/-- In DONE the warning tells whether bytes remain behind IPOS. -/
def WarningTells (s : State) : Prop :=
  s.phase = .done → s.ipos ≤ s.inLen ∧ (s.warnTrailing = true ↔ s.ipos < s.inLen)

theorem warningTells_step {s t : State} (hs : DecodeRun s) (hw : WarningTells s) (h : step s = .next t) :
    WarningTells t := by
  by_cases hr : Running s
  · intro hd
    obtain ⟨hf, rfl⟩ := step_to_done_decode hs.cmd hs.op hr h hd
    exact ⟨(holdsAt_of_fetchEnd hf).2, decide_eq_true_iff⟩
  · rw [step_of_resting hs.cmd (by simpa [running_iff] using hr)] at h
    cases h
    exact hw

/-- Every state of a launched decode keeps what `DecodeRun` says, and its warning tells the truth. -/
theorem decodeRun_of_reaches {m : Magic} {bs : List Byte} {r : Byte} {t : State}
    (h : Reaches (startDecode (launchedDecode m bs r)) t) : DecodeRun t ∧ WarningTells t ∧ t.inLen = bs.length := by
  obtain ⟨n, hn⟩ := h
  obtain ⟨_, _, _, hlen, hp⟩ := startDecode_spec (launchedDecode m bs r)
  refine stepsFrom_keeps (P := fun u => DecodeRun u ∧ WarningTells u ∧ u.inLen = bs.length) ?_ ?_ hn
  · rintro u v ⟨hu, hw, hl⟩ huv
    exact ⟨decodeRun_step hu huv, warningTells_step hu hw huv, ((descriptorStands u v huv).2.2.1).trans hl⟩
  · refine ⟨decodeRun_startDecode m bs r, fun hd => ?_, hlen⟩
    rcases hp with hp | hp <;> rw [hp] at hd <;> cases hd

/-! ### The outcome of a decode (R182, R184) -/

/-- The outcome of a decode is that of the state of rest its run reaches. -/
theorem decodeOperation_of_reaches {m : Magic} {bs : List Byte} {r : Byte} {t : State}
    (h : Reaches (startDecode (launchedDecode m bs r)) t) (hr : t.phase.resting = true) :
    decodeOperation m bs r = readDecode t := by
  obtain ⟨hs, hn⟩ := launched_startDecode m bs r
  obtain ⟨u, hu, _, hread⟩ := decodeOperation_run m bs r
  rw [hs.stepsFrom_eq hn h hr] at hu
  cases hu
  exact hread

/-- A success is read in DONE, from an output and the registers. -/
theorem readDecode_eq_ok {s : State} {px : List Byte} {w h : Word32} {c cs : Byte} {warn : Bool}
    (hs : readDecode s = .ok px w h c cs warn) :
    s.phase = .done ∧ s.err = 0 ∧ hostReadOutput s = some px ∧ s.warnTrailing = warn ∧
      s.width = w ∧ s.height = h ∧ s.channels = c ∧ s.colorspace = cs := by
  unfold readDecode at hs
  split at hs
  next px' hp hout =>
    split at hs
    · cases hs
      exact ⟨hp, ‹_›, hout, rfl, rfl, rfl, rfl, rfl⟩
    · cases hs
  all_goals cases hs

theorem EndedTruncated.readDecode {s : State} (h : EndedTruncated s) :
    readDecode s = .error 3 s.sub s.inLen := by
  simp only [Machine.readDecode, h.phase, hostReadOutput_of_not_outvalid h.outvalid, h.err, h.errpos]

/-- The output of a decode does not depend on its stream. -/
theorem LongerInput.hostReadOutput {s t : State} {px : List Byte} (hl : LongerInput s t) (ho : s.op = .decode)
    (h : hostReadOutput s = some px) : Machine.hostReadOutput t = some px := by
  obtain ⟨hr, hlen, hb⟩ := (hostReadOutput_eq_some_iff s px).mp h
  have hpix : HoldsAt s.pixbuf 0 px := ((holdsAt_outputSpace_iff s px).mp hb).1 ho
  rw [hl.alike]
  refine (hostReadOutput_eq_some_iff _ px).mpr ⟨hr, hlen, (holdsAt_outputSpace_iff _ px).mpr ⟨fun _ => hpix, ?_⟩⟩
  intro he
  cases ho.symm.trans he

/-- The success of a decode is read alike from the longer one, but for the warning. -/
theorem LongerInput.readDecode_ok {s t : State} {px : List Byte} {w h : Word32} {c cs : Byte} {warn : Bool}
    (hl : LongerInput s t) (ho : s.op = .decode) (hs : Machine.readDecode s = .ok px w h c cs warn) :
    Machine.readDecode t = .ok px w h c cs t.warnTrailing := by
  obtain ⟨hp, herr, hout, _, rfl, rfl, rfl, rfl⟩ := readDecode_eq_ok hs
  have h := readDecode_of_done (hl.phase.trans hp) ((congrArg State.err hl.alike :).trans herr)
    (hl.hostReadOutput ho hout)
  rw [h, hl.alike]
  rfl

/-! ### A decode and the decode of a longer stream, from their launch -/

theorem startDecode_withInput (m : Memory) (n : Nat) (warn : Bool) (s : State) :
    startDecode (withInput m n warn s) = withInput m n false (startDecode s) := by
  rcases startDecode_cases s with ⟨hr, h⟩ | ⟨hr, h⟩ <;> rw [h]
  · exact if_pos hr
  · exact if_neg hr

theorem longerInput_startDecode (m : Magic) (bs more : List Byte) (r : Byte) :
    LongerInput (startDecode (launchedDecode m bs r)) (startDecode (launchedDecode m (bs ++ more) r)) := by
  obtain ⟨_, _, hlen, hstream⟩ := startDecode_launched m bs r
  obtain ⟨_, _, hlen', hstream'⟩ := startDecode_launched m (bs ++ more) r
  have halike := startDecode_withInput (Memory.ofBytes (bs ++ more)) (bs ++ more).length false (launchedDecode m bs r)
  constructor
  · rw [show launchedDecode m (bs ++ more) r =
      withInput (Memory.ofBytes (bs ++ more)) (bs ++ more).length false (launchedDecode m bs r) from rfl, halike]
    rfl
  · rw [hstream, hlen]
    exact filled_ofBytes bs
  · rw [hstream', hlen']
    exact filled_ofBytes _
  · rw [hlen, hlen', List.length_append]
    exact Nat.le_add_right _ _
  · intro a ha
    rw [hlen] at ha
    rw [hstream, hstream', Memory.read_ofBytes, Memory.read_ofBytes, List.getElem?_append_left ha]

/-- A decode finds its stream truncated, or it comes to rest as the decode of the stream with more bytes behind it. -/
theorem decodeOperation_append (m : Magic) (bs more : List Byte) (r : Byte) :
    (∃ sub, decodeOperation m bs r = .error 3 sub bs.length) ∨
      ∃ s t, Reaches (startDecode (launchedDecode m bs r)) s ∧
        Reaches (startDecode (launchedDecode m (bs ++ more) r)) t ∧ LongerInput s t ∧
        decodeOperation m bs r = readDecode s ∧ decodeOperation m (bs ++ more) r = readDecode t := by
  obtain ⟨s, hs, hrest, hread⟩ := decodeOperation_run m bs r
  rcases (longerInput_startDecode m bs more r).run (decodeRun_startDecode m bs r) hs with he | ⟨t, ht, hl⟩
  · obtain ⟨_, _, hlen⟩ := decodeRun_of_reaches ⟨_, hs⟩
    rw [hread, he.readDecode, hlen]
    exact .inl ⟨_, rfl⟩
  · exact .inr ⟨s, t, ⟨_, hs⟩, ht, hl, hread, decodeOperation_of_reaches ht (hl.phase ▸ hrest)⟩

end Sys2Proof
end

section
/-! SUPPORT. What each step does to ERR, SUB and WARN_TRAILING (R191, R193, R197). -/

namespace Sys2Proof

open Machine

/-- The codes FORMAT / UNRECOGNIZED_TAG are those of one cause (R191). -/
theorem cause_of_unrecognizedTag_codes {c : Cause} (herr : c.err = 2) (hsub : c.sub = 3) : c = .unrecognizedTag := by
  cases c with
  | unrecognizedTag => rfl
  | badMagic | runOverrun => cases hsub
  | reqChannels | badChannels | zeroDimension | sizeOverflow | badBufferLength | inHeader | inChunks | inChunkPayload
  | inEndMarker | endMismatch => cases herr

/-- What a step can do to ERR, SUB and WARN_TRAILING: leave them, clear ERR and the warning, raise a cause that some rule
raises, or end a decode at its marker. -/
inductive StatusMove (s t : State) : Prop where
  | kept (herr : t.err = s.err) (hsub : t.sub = s.sub) (hwarn : t.warnTrailing = s.warnTrailing)
  | cleared (herr : t.err = 0) (hwarn : t.warnTrailing = false)
  | raised (c : Cause) (hc : c ≠ .unrecognizedTag) (herr : t.err = c.err) (hsub : t.sub = c.sub)
      (hwarn : t.warnTrailing = false)
  | endedDecode (hc : s.cmd = none) (ho : s.op = .decode) (hp : s.phase = .endMarker)
      (hf : fetchEnd s = .item .endMarker) (ht : t = endDecode s)

theorem StatusMove.of_sameStatus {s t : State} (h : SameStatus s t) : StatusMove s t :=
  .kept h.err h.sub h.warnTrailing

theorem StatusMove.of_raise {c : Cause} (hc : c ≠ .unrecognizedTag) (pos : Nat) (s u : State) :
    StatusMove s (raise c pos u) :=
  .raised c hc rfl rfl rfl

theorem step_statusMove {s t : State} (h : step s = .next t) : StatusMove s t := by
  cases step_cases h with
  | startedDecode _ _ ht =>
    rcases startDecode_cases s with ⟨_, hk⟩ | ⟨_, hk⟩ <;> rw [ht, hk]
    · exact .cleared rfl rfl
    · exact .of_raise (c := .reqChannels) nofun 0 s _
  | startedEncode _ _ ht =>
    rw [ht, startEncode_eq]
    rcases validateEncode_cases (unvalidatedEncode s) with ⟨c, hc, _, hk⟩ | ⟨_, _, _, _, _, hk⟩ <;> rw [hk]
    · exact .of_raise hc 0 s _
    · exact .cleared rfl rfl
  | rested _ _ ht => exact .of_sameStatus (ht ▸ sameStatus_refl s)
  | raised c pos _ _ _ hc ht => exact ht ▸ .of_raise hc pos s s
  | decodedHeader w v c cs _ _ _ _ _ ht =>
    rw [ht]
    rcases checkHeader_cases (takeHeader w v c cs s) with ⟨k, hc, _, hk⟩ | ⟨_, _, _, _, _, hk⟩ <;> rw [hk]
    · exact .of_raise hc headerLen s _
    · exact .kept rfl rfl rfl
  | resolved len p _ _ _ _ _ ht => exact .of_sameStatus (ht ▸ sameStatus_resolved len p s)
  | repeated n _ _ _ _ _ ht => exact .of_sameStatus (ht ▸ sameStatus_repeated 1 n s)
  | decodedEnd hc ho hp hf ht => exact .endedDecode hc ho hp hf ht
  | chunksOver _ _ _ ht => exact ht ▸ .kept rfl rfl rfl
  | encodedHeader _ _ _ ht => exact ht ▸ .kept rfl rfl rfl
  | encodedPixel p _ _ _ _ ht => exact ht ▸ .kept (by simp) (by simp) (by simp)
  | encodedEnd _ _ _ ht => exact ht ▸ .cleared rfl rfl

end Sys2Proof
end

section
/-! PROOF. The tier 3 obligations of 60_exceptions.md: bytes behind the end marker (R197) and a stream that is cut (R194,
R214). -/

namespace Sys2Proof

open Machine

/-- Settles O57: the decode of the longer stream ends as that of the shorter one, with the warning that tells of the
bytes left. -/
theorem trailingBytesOnlyWarn : Obligations.TrailingBytesOnlyWarn := by
  refine ⟨fun m bs extra px r w h c cs hne hok => ?_, fun s t hs hst ht => ?_⟩
  · rcases decodeOperation_append m bs extra r with ⟨sub, he⟩ | ⟨s, t, hs, ht, hl, hread, hread'⟩
    · cases he.symm.trans hok
    · rw [hread] at hok
      obtain ⟨hrun, hwarn, hlen⟩ := decodeRun_of_reaches hs
      obtain ⟨_, hwarn', hlen'⟩ := decodeRun_of_reaches ht
      obtain ⟨hdone, _⟩ := readDecode_eq_ok hok
      have hle := (hwarn hdone).1
      have hpos : 0 < extra.length := List.length_pos_iff.mpr hne
      have hset : t.warnTrailing = true := by
        refine (hwarn' (hl.phase.trans hdone)).2.mpr ?_
        rw [hl.ipos, hlen', List.length_append]
        omega
      rw [hread', hl.readDecode_ok hrun.op hok, hset]
  · cases step_statusMove hst with
    | kept _ _ hwarn => cases (hwarn.trans hs).symm.trans ht
    | cleared _ hwarn | raised _ _ _ _ hwarn => cases hwarn.symm.trans ht
    | endedDecode hc ho hp hf he =>
      subst he
      exact ⟨hc, ho, hp, (holdsAt_of_fetchEnd hf).1, decide_eq_true_iff.mp ht, rfl, rfl, rfl⟩

/-- Settles O58: a decode of the beginning that did not find it truncated would end where the decode of the whole stream
ends, which is at its last byte. -/
theorem everyCutIsTruncation : Obligations.EveryCutIsTruncation := by
  intro m bs px r w h c cs k hok hk
  have hlength : (bs.take k).length = k := List.length_take_of_le (Nat.le_of_lt hk)
  have hcut := decodeOperation_append m (bs.take k) (bs.drop k) r
  rw [List.take_append_drop, hlength] at hcut
  rcases hcut with he | ⟨s, t, hs, ht, hl, _, hread⟩
  · exact he
  · rw [hread] at hok
    obtain ⟨_, hwarn, hlen⟩ := decodeRun_of_reaches hs
    obtain ⟨_, hwarn', hlen'⟩ := decodeRun_of_reaches ht
    obtain ⟨hdone, _, _, hclear, _⟩ := readDecode_eq_ok hok
    have hle := (hwarn (hl.phase.symm.trans hdone)).1
    have hset : t.warnTrailing = true := by
      refine (hwarn' hdone).2.mpr ?_
      rw [hl.ipos]
      omega
    cases hclear.symm.trans hset

end Sys2Proof
end

section
/-! PROOF. The tier 2 obligations of 60_exceptions.md: UNRECOGNIZED_TAG (R193) and the errors of an encode (R205). -/

namespace Sys2Proof

open Machine

/-- Settles O40: no rule raises the one cause that has these codes. -/
theorem unrecognizedTagIsNeverRaised : Obligations.UnrecognizedTagIsNeverRaised := by
  rintro s t h ⟨herr, hsub⟩
  cases step_statusMove h with
  | kept he hs _ => exact ⟨he.symm.trans herr, hs.symm.trans hsub⟩
  | cleared he _ => cases he.symm.trans herr
  | raised c hc he hs _ => exact absurd (cause_of_unrecognizedTag_codes (he.symm.trans herr) (hs.symm.trans hsub)) hc
  | endedDecode _ _ _ _ ht =>
    subst ht
    cases herr

/-- Settles O41: a running phase goes to ERROR in a decode only, and every error of START_ENCODE is of class 1. -/
theorem encodeFailsAtStartOnly : Obligations.EncodeFailsAtStartOnly := by
  refine ⟨fun s t hc ho hne h herr => ?_, fun s t hc h herr => ?_⟩
  · cases step_phaseMove hc h with
    | rest _ ht => exact hne (ht.symm.trans herr)
    | toError _ hod _ => cases ho.symm.trans hod
    | toChunks _ ht => cases ht.symm.trans herr
    | inChunks _ ht => rcases ht with ht | ht <;> cases ht.symm.trans herr
    | toDone _ ht => cases ht.symm.trans herr
  · have hrest : NoOperationRunning s := by
      by_contra hn
      have hr : Running s := (running_iff s).mpr ((Bool.not_eq_true _).mp (mt (resting_iff s).mp hn))
      cases h.symm.trans (startWhileRunningIsRefused _ s hc hr)
    obtain ⟨u, hu, _, _, _, _, _, _, hempty, _, _, _, _, _, _, _, _, hcond⟩ := startEncodeValidates s hrest hc
    cases hu.symm.trans h
    refine ⟨?_, hempty⟩
    split_ifs at hcond
    case neg => cases hcond.1.symm.trans herr
    all_goals exact hcond.2.1

end Sys2Proof
end

section
/-! PROOF. The tier 1 obligation of 60_exceptions.md: `raise` (R195, R196). -/

namespace Sys2Proof

open Machine

/-- What an error leaves: all but PHASE, the status and what R25 calls unspecified. -/
theorem onlyErrorState_raise (c : Cause) (pos : Nat) (s : State) : OnlyErrorState s (raise c pos s) where
  descriptor := sameDescriptor_raise c pos s
  pixelState := ⟨rfl, rfl, rfl⟩
  stream := sameBytes_refl _
  pixbuf := sameBytes_refl _
  cmd := rfl

/-- MissingEndMarkerError alone surfaces the output (R195, R200). -/
theorem surfaces_iff (c : Cause) : c.surfaces = true ↔ c = .endMismatch := by
  cases c <;> simp [Cause.surfaces]

/-- Settles O39: the cause decides what `raise` records, and whether OUT_LEN counts an output. -/
theorem raiseEndsTheOperation : Obligations.RaiseEndsTheOperation := by
  refine fun c pos s => ⟨errorTaken_raise c pos s, onlyErrorState_raise c pos s, surfaces_iff c, ?_⟩
  rintro rfl
  rfl

end Sys2Proof
end

section
/-! SUPPORT. What one step does to each byte space of 20_memory.md: it leaves the space, empties it, or writes bytes in a
row. -/

namespace Sys2Proof

open Machine

/-- What one step does to one byte space: a START empties its output, an item writes consecutive bytes. -/
inductive SpaceMove (m m' : Memory) : Prop where
  | kept (h : m' = m)
  | emptied (h : m' = [])
  | written (a : Nat) (bs : List Byte) (h : m' = m.writeBytes a bs)

theorem SpaceMove.wf {m m' : Memory} (h : SpaceMove m m') (hm : m.wf) : m'.wf := by
  cases h with
  | kept h => exact h ▸ hm
  | emptied h => exact h ▸ Memory.wf_nil
  | written a bs h => exact h ▸ Memory.wf_writeBytes a bs hm

/-- The header's checks touch neither space: they raise, or they set PXCOUNT and PHASE. -/
theorem checkHeader_spaces (s : State) : (checkHeader s).stream = s.stream ∧ (checkHeader s).pixbuf = s.pixbuf := by
  rcases checkHeader_cases s with ⟨_, _, _, h⟩ | ⟨_, _, _, _, _, h⟩ <;> rw [h] <;> exact ⟨rfl, rfl⟩

/-- Everything one step does to the two spaces, from any state. -/
theorem step_spaceMove {s t : State} (h : step s = .next t) :
    SpaceMove s.stream t.stream ∧ SpaceMove s.pixbuf t.pixbuf := by
  cases step_cases h with
  | startedDecode _ _ ht =>
    obtain ⟨_, _, hstream, _⟩ := startDecode_spec s
    exact ht ▸ ⟨.kept hstream, .emptied (startDecode_pixbuf s)⟩
  | startedEncode _ _ ht =>
    obtain ⟨hstream, _⟩ := startEncode_stream_colorspace s
    obtain ⟨hpixbuf, _⟩ := startEncode_input s
    exact ht ▸ ⟨.emptied hstream, .kept hpixbuf⟩
  | rested _ _ ht | raised _ _ _ _ _ _ ht | chunksOver _ _ _ ht | decodedEnd _ _ _ _ ht =>
    exact ht ▸ ⟨.kept rfl, .kept rfl⟩
  | decodedHeader w v c cs _ _ _ _ _ ht =>
    obtain ⟨hstream, hpixbuf⟩ := checkHeader_spaces (takeHeader w v c cs s)
    exact ht ▸ ⟨.kept hstream, .kept hpixbuf⟩
  | resolved len p _ _ _ _ _ ht =>
    exact ht ▸ ⟨.kept (by simp), .written _ _ ((nextChunk_pixbuf len _).trans (resolve_pixbuf p _))⟩
  | repeated n _ _ _ _ _ ht =>
    exact ht ▸ ⟨.kept (by simp), .written _ _ ((nextChunk_pixbuf 1 _).trans (repeatPrev_pixbuf n s))⟩
  | encodedHeader _ _ _ ht | encodedEnd _ _ _ ht => exact ht ▸ ⟨.written _ _ rfl, .kept rfl⟩
  | encodedPixel p _ _ _ _ ht => exact ht ▸ ⟨.written _ _ (endPixel_stream _), .kept (by simp)⟩

end Sys2Proof
end

section
/-! PROOF. The tier 3 obligation about the model's own form of the byte spaces: every step keeps it (entry 3). -/

namespace Sys2Proof

open Machine

/-- Settles O49: whatever a step does to a space, the canonical form is kept. -/
theorem spacesStayCanonical : Obligations.SpacesStayCanonical := by
  rintro s t ⟨hstream, hpixbuf⟩ h
  obtain ⟨hs, hp⟩ := step_spaceMove h
  exact ⟨hs.wf hstream, hp.wf hpixbuf⟩

end Sys2Proof
end

section
/-! PROOF. The tier 1 obligations about rest: a resting phase without a START (R201) and the state after power-on
(R221). -/

namespace Sys2Proof

open Machine

/-- Settles O45: a step without a START goes by PHASE, and a resting phase has nothing to do. -/
theorem restingPhaseIsLeftByStartOnly : Obligations.RestingPhaseIsLeftByStartOnly :=
  fun s hr hc => step_of_resting hc ((resting_iff s).mpr hr)

/-- After power-on RUN is 0 and PREV, the zero pixel, sits in its slot. -/
theorem engineInv_reset : EngineInv State.reset := engineInv_of_resting rfl (Nat.zero_le _) (slot_of_zero rfl rfl)

/-- Settles O51: the registers have these values in the reset state; both spaces are empty, and a state of rest needs no
more of the engine's invariant than RUN and PREV's slot. -/
theorem resetMeetsTheInvariants : Obligations.ResetMeetsTheInvariants :=
  ⟨rfl, rfl, rfl, rfl, rfl, ⟨Memory.wf_nil, Memory.wf_nil⟩, engineInv_reset⟩

end Sys2Proof
end
